-- ==== Sys2Proof/Word.lean ====
section
/-! DEFINITION. The word types of HASHCORE (00_scope.md R7, R8): every value is unsigned, a register is 32 bits,
the 64-bit algorithms use 64, memory is made of bytes. Every operation wraps as `BitVec` does (R9). -/

namespace Sys2Proof

/-- One byte of input (00_scope.md R10). -/
abbrev Byte := BitVec 8

/-- A `u32`: a register, an address, a command word (00_scope.md R8). -/
abbrev Word := BitVec 32

/-- A `u64`: the accumulator and result of FNV1A64 and MURMUR2_64 (00_scope.md R7, R8). -/
abbrev DWord := BitVec 64

/-- The number of bytes of the platform memory, 2^32 (20_memory.md R60). -/
abbrev addressSpace : Nat := 4294967296

end Sys2Proof
end

