-- ==== Sys2Proof/Config.lean ====
section
/-! DEFINITION. What a build and a platform fix (00_scope.md R5, 92_eei_decisions.md "Open parameters"), and the free
values of the model. The parameters are plain data that State carries unchanged (log 13), so a claim over every state is
a claim over every build; the free values are constants without a body, so nothing can be proved of their value. -/

namespace Sys2Proof.Config

/-- MURMUR2A's tail form (00_scope.md R5, 44_murmur2.md R172). -/
inductive Mm2aTail where
  | perByte
  | combined
  deriving DecidableEq, Repr

/-- MURMUR2_64's word fold order (00_scope.md R5, 44_murmur2.md R173). -/
inductive Mm64Fold where
  | xorThenMul
  | mulThenXor
  deriving DecidableEq, Repr

/-- The build parameters of 00_scope.md R5, under the spec's names, with the spec's defaults. -/
structure Build where
  crcPoly : Word := 0xEDB88320#32
  crcTableEn : Bool := true
  djbBasis : Word := 0x00001505#32
  fnv32Basis : Word := 0x811C9DC5#32
  fnv32Prime : Word := 0x01000193#32
  fnv64Basis : DWord := 0xCBF29CE484222325#64
  fnv64Prime : DWord := 0x00000100000001B3#64
  mm2M : Word := 0x5BD1E995#32
  mm64M : DWord := 0xC6A4A7935BD1E995#64
  mm3C1 : Word := 0xCC9E2D51#32
  mm3C2 : Word := 0x1B873593#32
  mm3C3 : Word := 0xE6546B64#32
  mm3F1 : Word := 0x85EBCA6B#32
  mm3F2 : Word := 0xC2B2AE35#32
  crcDefaultSeed : Word := 0x00000000#32
  mmDefaultSeed : Word := 0x00000000#32
  mm2aTail : Mm2aTail := .perByte
  mm64Fold : Mm64Fold := .xorThenMul
  deriving DecidableEq, Repr

/-- The default build, HASHCORE's own. -/
def Build.default : Build := { }

/-- The open platform parameters of 92_eei_decisions.md. `hcBase` holds address bits [31:8] of the register window, so
the base is 256-byte aligned by its type (20_memory.md R68); `hcIrq` is the line irq is routed to (60_exceptions.md
R204); `sideEffects` lists the half-open address windows `[lo, hi)` whose reads have side effects or are not
idempotent (20_memory.md R63, 93_implementation_defined.md U3). -/
structure Platform where
  hcBase : BitVec 24 := 0#24
  hcIrq : Nat := 0
  sideEffects : List (Nat × Nat) := []
  deriving DecidableEq, Repr

/-- Log 19 (DESIGN CHOICE): the platform of the reset state. -/
def Platform.default : Platform := { }

/-- Whose atomic event comes next in the total order of 60_exceptions.md R206. `command` is a run of the engine, and of
the generator while the engine is held, to the completion with no host event between (10_state.md R42; log 1). -/
inductive Turn where
  | host
  | engine
  | tableGen
  | command
  deriving DecidableEq, Repr, Inhabited

/-- The `n`-th free byte: what an engine read returns under the hazard of 70_reset_and_hazards.md R240 and for a location
with read side effects (20_memory.md R63). Free (log 6, log 7). -/
opaque freeByte : Nat → Byte

/-- The `n`-th free instant: how many of the platform's changes of the memory come before a read that may take place at any
instant since the read before it (20_memory.md R73, 93_implementation_defined.md U12). Free (log 6). -/
opaque freeInstant : Nat → Nat

/-- The `n`-th free scheduling choice: who moves when State's `sched` names nobody (60_exceptions.md R206: "A model
interleaves them in any order"). Free (log 2). -/
opaque freeTurn : Nat → Turn

end Sys2Proof.Config
end

