-- ==== Sys2Proof/Syntax.lean ====
section
/-! DEFINITION. The syntax: the 18 commands of spec/opcode_table.json (30_encoding.md R86), the command word's fields
(R80), and the host statements of 30_encoding.md R89 with the platform's events. -/

namespace Sys2Proof

/-- The nine algorithms (00_scope.md R1, 30_encoding.md R81). -/
inductive Alg where
  | crc32
  | djb2
  | djb2a
  | fnv1a
  | fnv1a64
  | murmur2
  | murmur2a
  | murmur2_64
  | murmur3
  deriving DecidableEq, Repr

/-- How the input is found (30_encoding.md R82): a counted ByteSpan or a null-terminated TextHandle. -/
inductive Shape where
  | span
  | text
  deriving DecidableEq, Repr

/-- One legal command: an algorithm and a shape, which the row of the opcode table names, and the free field DSEED
(30_encoding.md R83, R86): true takes the algorithm's default seed. -/
inductive Instr where
  | crc32Span (dseed : Bool)
  | crc32Text (dseed : Bool)
  | djb2Span (dseed : Bool)
  | djb2Text (dseed : Bool)
  | djb2aSpan (dseed : Bool)
  | djb2aText (dseed : Bool)
  | fnv1aSpan (dseed : Bool)
  | fnv1aText (dseed : Bool)
  | fnv1a64Span (dseed : Bool)
  | fnv1a64Text (dseed : Bool)
  | murmur2Span (dseed : Bool)
  | murmur2Text (dseed : Bool)
  | murmur2aSpan (dseed : Bool)
  | murmur2aText (dseed : Bool)
  | murmur2_64Span (dseed : Bool)
  | murmur2_64Text (dseed : Bool)
  | murmur3Span (dseed : Bool)
  | murmur3Text (dseed : Bool)
  deriving DecidableEq, Repr

/-- The algorithm a command selects. -/
def Instr.alg : Instr → Alg
  | .crc32Span _ => .crc32
  | .crc32Text _ => .crc32
  | .djb2Span _ => .djb2
  | .djb2Text _ => .djb2
  | .djb2aSpan _ => .djb2a
  | .djb2aText _ => .djb2a
  | .fnv1aSpan _ => .fnv1a
  | .fnv1aText _ => .fnv1a
  | .fnv1a64Span _ => .fnv1a64
  | .fnv1a64Text _ => .fnv1a64
  | .murmur2Span _ => .murmur2
  | .murmur2Text _ => .murmur2
  | .murmur2aSpan _ => .murmur2a
  | .murmur2aText _ => .murmur2a
  | .murmur2_64Span _ => .murmur2_64
  | .murmur2_64Text _ => .murmur2_64
  | .murmur3Span _ => .murmur3
  | .murmur3Text _ => .murmur3

/-- The shape a command selects. -/
def Instr.shape : Instr → Shape
  | .crc32Span _ => .span
  | .crc32Text _ => .text
  | .djb2Span _ => .span
  | .djb2Text _ => .text
  | .djb2aSpan _ => .span
  | .djb2aText _ => .text
  | .fnv1aSpan _ => .span
  | .fnv1aText _ => .text
  | .fnv1a64Span _ => .span
  | .fnv1a64Text _ => .text
  | .murmur2Span _ => .span
  | .murmur2Text _ => .text
  | .murmur2aSpan _ => .span
  | .murmur2aText _ => .text
  | .murmur2_64Span _ => .span
  | .murmur2_64Text _ => .text
  | .murmur3Span _ => .span
  | .murmur3Text _ => .text

/-- The DSEED bit of a command. -/
def Instr.dseed : Instr → Bool
  | .crc32Span d => d
  | .crc32Text d => d
  | .djb2Span d => d
  | .djb2Text d => d
  | .djb2aSpan d => d
  | .djb2aText d => d
  | .fnv1aSpan d => d
  | .fnv1aText d => d
  | .fnv1a64Span d => d
  | .fnv1a64Text d => d
  | .murmur2Span d => d
  | .murmur2Text d => d
  | .murmur2aSpan d => d
  | .murmur2aText d => d
  | .murmur2_64Span d => d
  | .murmur2_64Text d => d
  | .murmur3Span d => d
  | .murmur3Text d => d

/-- The fields of a 32-bit command word as they stand in it, legal or not (30_encoding.md R80). -/
structure CommandFields where
  alg : BitVec 4
  shape : Bool
  dseed : Bool
  rsvd : BitVec 26
  deriving DecidableEq, Repr

/-- The width of a host access to the register window (20_memory.md R70). -/
inductive AccessWidth where
  | w8
  | w16
  | w32
  | w64
  deriving DecidableEq, Repr

/-- One event of the outside world: the host statements WR, RD, POLL and MEMB (30_encoding.md R89), the platform's change
of one address to BusError (20_memory.md R60; log 4), and the platform's assertion of the reset input
(70_reset_and_hazards.md R230). An offset is a byte offset into the 256-byte window (10_state.md R23). -/
inductive HostOp where
  | write (width : AccessWidth) (offset : BitVec 8) (data : Word)
  | read (width : AccessWidth) (offset : BitVec 8)
  | poll (offset : BitVec 8) (mask value : Word)
  | memb (addr : Word) (bytes : List Byte)
  | busFault (addr : Word)
  | assertReset
  deriving DecidableEq, Repr

end Sys2Proof
end

