-- ==== Sys2Proof/WellFormed.lean ====
section
/-! DEFINITION. The checks on syntax. A term of `Instr` is always well formed: its one operand is a `Bool` (30_encoding.md
R84: "A SHAPE or DSEED value is never illegal on its own"). The checks that can fail are on a command word's fields
(R84) and on a host access (20_memory.md R70). -/

namespace Sys2Proof

/-- 30_encoding.md R81, R84: ALG codes 9 to 15 are reserved. -/
def CommandFields.algDefined (f : CommandFields) : Bool := f.alg.toNat ≤ 8

/-- 30_encoding.md R80, R84: RSVD must be 0. -/
def CommandFields.rsvdZero (f : CommandFields) : Bool := f.rsvd = 0#26

/-- 30_encoding.md R84: a command word is illegal when ALG is reserved, or when RSVD is not 0, or both. -/
def CommandFields.wellFormed (f : CommandFields) : Bool := f.rsvdZero && f.algDefined

/-- 30_encoding.md R86: every combination of ALG 0..8, SHAPE and DSEED is legal, so nothing is left to check. -/
def Instr.wellFormed : Instr → Bool
  | .crc32Span _ => true
  | .crc32Text _ => true
  | .djb2Span _ => true
  | .djb2Text _ => true
  | .djb2aSpan _ => true
  | .djb2aText _ => true
  | .fnv1aSpan _ => true
  | .fnv1aText _ => true
  | .fnv1a64Span _ => true
  | .fnv1a64Text _ => true
  | .murmur2Span _ => true
  | .murmur2Text _ => true
  | .murmur2aSpan _ => true
  | .murmur2aText _ => true
  | .murmur2_64Span _ => true
  | .murmur2_64Text _ => true
  | .murmur3Span _ => true
  | .murmur3Text _ => true

/-- 20_memory.md R70: the window takes 32-bit accesses only. -/
def AccessWidth.accepted (w : AccessWidth) : Bool := w = .w32

/-- 20_memory.md R70: an offset with bits [1:0] not 0 is refused. -/
def offsetAligned (offset : BitVec 8) : Bool := offset.extractLsb' 0 2 = 0#2

/-- 20_memory.md R70: the accesses the register port accepts. -/
def accessAccepted (w : AccessWidth) (offset : BitVec 8) : Bool := w.accepted && offsetAligned offset

end Sys2Proof
end

