-- ==== Sys2Proof/Decode.lean ====
section
/-! DEFINITION. The command word's decoder and encoder (30_encoding.md R80 to R88). The decoder is total and rejects an
illegal word by name; the machine turns a rejection into the ILLEGAL completion (40_command.md R108). -/

namespace Sys2Proof

/-- Why a word is no legal command. The first two are 30_encoding.md R84's; the third is for a byte string that is not
the four bytes of one word (R80, R87: no other length). -/
inductive Reject where
  | reservedBits
  | reservedAlg
  | notOneWord
  deriving DecidableEq, Repr

/-- What the decoder answers. -/
inductive Decoded where
  | ok (i : Instr)
  | reject (r : Reject)
  deriving DecidableEq, Repr

/-- The fields of a word, at 30_encoding.md R80's places. -/
def splitWord (w : Word) : CommandFields :=
  { alg := w.extractLsb' 0 4, shape := w.getLsbD 4, dseed := w.getLsbD 5, rsvd := w.extractLsb' 6 26 }

/-- The algorithm of an ALG code (30_encoding.md R81); 9 to 15 are reserved. -/
def algOfCode (c : BitVec 4) : Option Alg :=
  match c.toNat with
  | 0 => some .crc32
  | 1 => some .djb2
  | 2 => some .djb2a
  | 3 => some .fnv1a
  | 4 => some .fnv1a64
  | 5 => some .murmur2
  | 6 => some .murmur2a
  | 7 => some .murmur2_64
  | 8 => some .murmur3
  | _ => none

/-- The command an algorithm, a shape and a DSEED bit name (30_encoding.md R86). -/
def instrOf (a : Alg) (sh : Shape) (dseed : Bool) : Instr :=
  match a, sh with
  | .crc32, .span => .crc32Span dseed
  | .crc32, .text => .crc32Text dseed
  | .djb2, .span => .djb2Span dseed
  | .djb2, .text => .djb2Text dseed
  | .djb2a, .span => .djb2aSpan dseed
  | .djb2a, .text => .djb2aText dseed
  | .fnv1a, .span => .fnv1aSpan dseed
  | .fnv1a, .text => .fnv1aText dseed
  | .fnv1a64, .span => .fnv1a64Span dseed
  | .fnv1a64, .text => .fnv1a64Text dseed
  | .murmur2, .span => .murmur2Span dseed
  | .murmur2, .text => .murmur2Text dseed
  | .murmur2a, .span => .murmur2aSpan dseed
  | .murmur2a, .text => .murmur2aText dseed
  | .murmur2_64, .span => .murmur2_64Span dseed
  | .murmur2_64, .text => .murmur2_64Text dseed
  | .murmur3, .span => .murmur3Span dseed
  | .murmur3, .text => .murmur3Text dseed

/-- 30_encoding.md R82. -/
def shapeOf (bit : Bool) : Shape := if bit then .text else .span

/-- 30_encoding.md R84, R86: every word is exactly one row of the opcode map, or illegal. -/
def decode (w : Word) : Decoded :=
  let f := splitWord w
  if f.rsvdZero then
    match algOfCode f.alg with
    | some a => .ok (instrOf a (shapeOf f.shape) f.dseed)
    | none => .reject .reservedAlg
  else .reject .reservedBits

/-- The word of four bytes, the first in bits [7:0] (20_memory.md R71: little-endian byte lanes). -/
def wordOfLanes (b0 b1 b2 b3 : Byte) : Word := b3 ++ b2 ++ b1 ++ b0

/-- Decode a byte string: exactly one 32-bit word (30_encoding.md R80, R87). -/
def decodeBytes : List Byte → Decoded
  | [b0, b1, b2, b3] => decode (wordOfLanes b0 b1 b2 b3)
  | _ => .reject .notOneWord

/-- The four little-endian byte lanes of a word (20_memory.md R71). -/
def lanesOfWord (w : Word) : List Byte :=
  [w.extractLsb' 0 8, w.extractLsb' 8 8, w.extractLsb' 16 8, w.extractLsb' 24 8]

/-- The instruction the decoder reads from the word whose low `nbits` bits are those of `w`, bit 0 the least significant,
every bit above `nbits` 0. -/
def decodeTableWord (nbits w : Nat) : Option Instr :=
  match decodeBytes (lanesOfWord (BitVec.ofNat 32 (w % 2 ^ nbits))) with
  | .ok i => some i
  | .reject _ => none

/-- The ALG code of an algorithm (30_encoding.md R81). -/
def Alg.code : Alg → BitVec 4
  | .crc32 => 0#4
  | .djb2 => 1#4
  | .djb2a => 2#4
  | .fnv1a => 3#4
  | .fnv1a64 => 4#4
  | .murmur2 => 5#4
  | .murmur2a => 6#4
  | .murmur2_64 => 7#4
  | .murmur3 => 8#4

/-- The SHAPE bit (30_encoding.md R82). -/
def Shape.bit : Shape → Bool
  | .span => false
  | .text => true

/-- The word of a command: `ALG | (SHAPE << 4) | (D << 5)` with RSVD 0 (30_encoding.md R80, R88). -/
def encode (i : Instr) : Word :=
  0#26 ++ BitVec.ofBool i.dseed ++ BitVec.ofBool i.shape.bit ++ i.alg.code

/-- The mnemonic of an algorithm (30_encoding.md R88). -/
def Alg.mnemonic : Alg → String
  | .crc32 => "CRC32"
  | .djb2 => "DJB2"
  | .djb2a => "DJB2A"
  | .fnv1a => "FNV1A"
  | .fnv1a64 => "FNV1A64"
  | .murmur2 => "MURMUR2"
  | .murmur2a => "MURMUR2A"
  | .murmur2_64 => "MURMUR2_64"
  | .murmur3 => "MURMUR3"

/-- The assembler spelling `HASH.<ALG>.<SHAPE>` with the suffix `.D` for DSEED = 1 (30_encoding.md R88). -/
def Instr.mnemonic (i : Instr) : String :=
  "HASH." ++ i.alg.mnemonic ++ (match i.shape with | .span => ".SPAN" | .text => ".TEXT") ++ (if i.dseed then ".D" else "")

/-- Every command with both values of DSEED. -/
def allInstrs : List Instr :=
  [.crc32Span false, .crc32Span true, .crc32Text false, .crc32Text true] ++
  [.djb2Span false, .djb2Span true, .djb2Text false, .djb2Text true] ++
  [.djb2aSpan false, .djb2aSpan true, .djb2aText false, .djb2aText true] ++
  [.fnv1aSpan false, .fnv1aSpan true, .fnv1aText false, .fnv1aText true] ++
  [.fnv1a64Span false, .fnv1a64Span true, .fnv1a64Text false, .fnv1a64Text true] ++
  [.murmur2Span false, .murmur2Span true, .murmur2Text false, .murmur2Text true] ++
  [.murmur2aSpan false, .murmur2aSpan true, .murmur2aText false, .murmur2aText true] ++
  [.murmur2_64Span false, .murmur2_64Span true, .murmur2_64Text false, .murmur2_64Text true] ++
  [.murmur3Span false, .murmur3Span true, .murmur3Text false, .murmur3Text true]

/-- 30_encoding.md R88: the word an assembler line stands for; mnemonics are case-insensitive. -/
def assemble (line : String) : Option Word :=
  (allInstrs.find? fun i => i.mnemonic == line.toUpper).map encode

end Sys2Proof
end

