-- ==== Sys2Proof/Machine/State.lean ====
section
/-! DEFINITION. The machine's state as plain data: everything 10_state.md gives the machine (R20 to R46), the parameters
of the build and the platform, and the model's own fields for the outside world, the schedule and the free values. BUSY,
TABLE_READY, irq, ID, CAPS, CRC_POLY and TAB_DATA are views of what is stored here (log 18) and stand in Machine/Flags.lean
and Machine/Port.lean. -/

namespace Sys2Proof.Machine

/-- The platform memory (10_state.md R45, 20_memory.md R60): the oracle's graph, a listed address answers its byte and an
unlisted one BusError (log 3). -/
abbrev Memory := List Host.Cell

/-- The canonical form: addresses strictly rising, every address inside the 2^32-byte space. No entry can equal what an
unlisted address answers, since that is no byte. -/
abbrev Memory.wf (m : Memory) : Prop := m.Pairwise (fun x y => x.1 < y.1) ∧ ∀ c ∈ m, c.1 < addressSpace

/-- The error codes of 60_exceptions.md R200. Codes 5 to 15 are never produced and have no name here. -/
inductive ErrCode where
  | none
  | illegal
  | range
  | bus
  | noterm
  deriving DecidableEq, Repr

/-- The engine's phase (10_state.md R42). After the first engine step the phase carries the command decoded from
`lat.word` (log 18). -/
inductive Phase where
  | idle
  | held
  | scan (i : Instr)
  | hash (i : Instr)
  deriving DecidableEq, Repr

/-- The table generator's state (10_state.md R43). -/
inductive TGen where
  | fill (n : Fin 256)
  | ready
  | absent
  deriving DecidableEq, Repr

/-- The latched operands of the running command (10_state.md R42, 40_command.md R100). `lat.alg`, `lat.shape` and
`lat.dseed` are bits of `word`. -/
structure Lat where
  word : Word
  src : Word
  len : Word
  seed : DWord
  deriving DecidableEq, Repr

/-- What the register port answered to the last access (20_memory.md R70): nothing yet, a write taken, a read's data, or
the bus error response. -/
inductive Response where
  | none
  | ack
  | data (v : Word)
  | busError
  deriving DecidableEq, Repr

/-- What happened to the input of a running command since its first pass began: a read of its engine, with the byte the
location answered, or a change of the memory by the platform, with the memory as it was before (log 6). -/
inductive Moment where
  | read (v : Byte)
  | change (m : Memory)
  deriving DecidableEq, Repr

/-- Why the machine stops. The spec gives the hardware no fault at all (60_exceptions.md R201). -/
inductive Fault where
  /-- Raised by a host memory event (MEMB) that names an address at or past 2^32, where there is no memory
  (20_memory.md R60). SAFE: the spec gives such an event no effect (log 5). -/
  | memoryAddress
  deriving DecidableEq, Repr

/-- What has no meaning. No arm of `exec` and no meaning answers with one: every command of the table is modelled. -/
inductive Refusal where
  /-- For an arm of `exec` with no meaning yet. SAFE. No arm uses it. -/
  | notModelled (mnemonic : String)
  deriving DecidableEq, Repr

/-- The state of HASHCORE and of the platform around it. -/
structure State where
  /-- The build parameters (00_scope.md R5; log 13). -/
  build : Config.Build
  /-- HC_BASE, HC_IRQ and the windows with read side effects (92_eei_decisions.md; log 19). -/
  platform : Config.Platform
  /-- CTRL.IE (10_state.md R26). -/
  ie : Bool
  /-- CMD (10_state.md R27). -/
  cmd : Word
  /-- STATUS.DONE (10_state.md R28). -/
  done : Bool
  /-- STATUS.ERR (10_state.md R28). -/
  err : Bool
  /-- STATUS.DROP (10_state.md R28). -/
  drop : Bool
  /-- STATUS.ERRCODE (10_state.md R28). -/
  errcode : ErrCode
  /-- SRC_ADDR (10_state.md R29). -/
  srcAddr : Word
  /-- LENGTH (10_state.md R30). -/
  length : Word
  /-- SEED_LO (10_state.md R31). -/
  seedLo : Word
  /-- SEED_HI (10_state.md R32). -/
  seedHi : Word
  /-- RESULT_LO (10_state.md R33). -/
  resultLo : Word
  /-- RESULT_HI (10_state.md R34). -/
  resultHi : Word
  /-- COUNT (10_state.md R35). -/
  count : Word
  /-- ERR_ADDR (10_state.md R36). -/
  errAddr : Word
  /-- TAB_INDEX.INDEX (10_state.md R37). -/
  tabIndex : BitVec 8
  /-- The engine's phase (10_state.md R42). -/
  phase : Phase
  /-- The latched operands (10_state.md R42). -/
  lat : Lat
  /-- The byte cursor `i` of the current pass (10_state.md R42, R21). -/
  cursor : Nat
  /-- The accumulator `acc` (10_state.md R42); a 32-bit algorithm uses bits [31:0] (log 15). -/
  acc : DWord
  /-- The tail bytes of the MurMur engines (10_state.md R42). -/
  tail : List Byte
  /-- The length `L` of the hash pass: the measured one of a TEXT (10_state.md R42), `lat.len` otherwise and until a one-pass
  TEXT has read its terminator. -/
  len : Nat
  /-- The table generator (10_state.md R43). -/
  tgen : TGen
  /-- The CRC table T, 256 entries (10_state.md R41). -/
  table : List Word
  /-- The platform memory (10_state.md R45). -/
  mem : Memory
  /-- The platform's reset input, asserted or not (70_reset_and_hazards.md R230; log 17). -/
  resetLine : Bool
  /-- The host events still to come (30_encoding.md R89; log 4). The model's own. -/
  script : List HostOp
  /-- The register port's last answer (20_memory.md R70; log 14). The model's own. -/
  response : Response
  /-- The turns chosen so far (60_exceptions.md R206; log 2). The model's own. -/
  sched : List Config.Turn
  /-- The addresses written since the running command was accepted (70_reset_and_hazards.md R240; log 6). The model's own. -/
  dirty : List Nat
  /-- The reads of the running command and the memory's changes since its first pass began, oldest first
  (70_reset_and_hazards.md R240, 20_memory.md R62; log 6). The model's own. -/
  past : List Moment
  /-- How many free bytes and free instants have been drawn (log 10). The model's own. -/
  draws : Nat
  /-- How many free scheduling choices have been made (log 10). The model's own. -/
  turns : Nat
  deriving DecidableEq, Repr

/-- The latched operands of a machine that has accepted no command: unspecified and unused (10_state.md R46;
93_implementation_defined.md U6). Log 8 (DESIGN CHOICE): zero. -/
def Lat.unused : Lat := { word := 0#32, src := 0#32, len := 0#32, seed := 0#64 }

/-- The state right after a hardware reset of a build on a platform (10_state.md R46, 70_reset_and_hazards.md R230).
Memory is the platform's and no part of the block's reset. Log 8, log 9 and log 10 name the values the spec does not
state. -/
def State.afterReset (b : Config.Build) (p : Config.Platform) (m : Memory) : State :=
  { build := b, platform := p
    ie := false, cmd := 0#32
    done := false, err := false, drop := false, errcode := .none
    srcAddr := 0#32, length := 0#32, seedLo := 0#32, seedHi := 0#32
    resultLo := 0#32, resultHi := 0#32, count := 0#32, errAddr := 0#32
    tabIndex := 0#8
    phase := .idle, lat := Lat.unused, cursor := 0, acc := 0#64, tail := [], len := 0
    tgen := if b.crcTableEn then .fill 0 else .absent
    table := List.replicate 256 0#32
    mem := m
    resetLine := false, script := [], response := .none, sched := [], dirty := [], past := [], draws := 0,
    turns := 0 }

/-- The machine right after reset: the default build (00_scope.md R5), nothing placed in memory (log 3), no host event
pending (log 4). -/
def State.reset : State := State.afterReset Config.Build.default Config.Platform.default []

end Sys2Proof.Machine
end

