-- ==== Sys2Proof/Machine/Flags.lean ====
section
/-! DEFINITION. The flags (10_state.md R40): STATUS as a word (R28), what a write to it clears, BUSY and TABLE_READY as
views (R42, R43), and the interrupt output (R44, 60_exceptions.md R204). The algorithms set no flag. -/

namespace Sys2Proof.Machine

/-- The 4-bit code of an error (60_exceptions.md R200). -/
def ErrCode.code : ErrCode → BitVec 4
  | .none => 0#4
  | .illegal => 1#4
  | .range => 2#4
  | .bus => 3#4
  | .noterm => 4#4

namespace State

/-- STATUS.BUSY: "BUSY = 1 exactly when phase ≠ IDLE" (10_state.md R42). -/
def busy (s : State) : Bool := s.phase != .idle

/-- STATUS.TABLE_READY: "1 exactly when tgen = READY" (10_state.md R43). -/
def tableReady (s : State) : Bool := s.tgen == .ready

/-- STATUS (10_state.md R28): BUSY [0], DONE [1], ERR [2], TABLE_READY [3], DROP [4], RES0 [7:5], ERRCODE [11:8],
RES0 [31:12]. -/
def statusWord (s : State) : Word :=
  0#20 ++ s.errcode.code ++ 0#3 ++ BitVec.ofBool s.drop ++ BitVec.ofBool s.tableReady ++ BitVec.ofBool s.err ++
    BitVec.ofBool s.done ++ BitVec.ofBool s.busy

/-- A write to STATUS (10_state.md R28, R40): each W1C bit written 1 is cleared, a 1 at ERR clears ERRCODE too; BUSY,
TABLE_READY and ERRCODE ignore the written value otherwise. This is the acknowledgement of 60_exceptions.md R208, the
hardware's return from an error or a completion. -/
def writeStatus (s : State) (v : Word) : State :=
  { s with
    done := s.done && !v.getLsbD 1
    err := s.err && !v.getLsbD 2
    errcode := if v.getLsbD 2 then .none else s.errcode
    drop := s.drop && !v.getLsbD 4 }

/-- The interrupt output, a level: `irq = reg(CTRL).IE & reg(STATUS).DONE` (10_state.md R44, 60_exceptions.md R204). -/
def irq (s : State) : Bool := s.ie && s.done

/-- The platform's interrupt lines as HASHCORE drives them: irq on HC_IRQ, nothing on another (60_exceptions.md R204). -/
def irqLine (s : State) (line : Nat) : Bool := s.irq && line == s.platform.hcIrq

/-- 60_exceptions.md R215: idle when the phase is IDLE and the generator is READY or ABSENT. -/
def quiescent (s : State) : Bool := s.phase == .idle && (s.tgen == .ready || s.tgen == .absent)

end State

end Sys2Proof.Machine
end

