-- ==== Sys2Proof/Machine/Ops.lean ====
section
/-! DEFINITION. The named operations over memory and registers: the platform memory and the engine's one read of it
(20_memory.md R60 to R63), acceptance and the dropped command (40_command.md R100, R101), the two completions (R111,
R112; the error completion is the hardware's one exception entry, 60_exceptions.md R207), soft and hardware reset
(70_reset_and_hazards.md R232, R230), and the table generator (41_crc32.md R130, R131). -/

namespace Sys2Proof.Machine

/-- The byte the platform memory holds at an address, none where it answers BusError (20_memory.md R60). -/
def Memory.read : Memory → Nat → Option Byte
  | [], _ => none
  | c :: m, a => if c.1 = a then some c.2 else Memory.read m a

/-- The memory after a write of one byte, in canonical form. -/
def Memory.write : Memory → Nat → Byte → Memory
  | [], a, v => [(a, v)]
  | c :: m, a, v =>
    if a < c.1 then (a, v) :: c :: m
    else if a = c.1 then (a, v) :: m
    else c :: Memory.write m a v

/-- The memory after its platform makes one address answer BusError (log 4). -/
def Memory.erase : Memory → Nat → Memory
  | [], _ => []
  | c :: m, a => if c.1 = a then m else c :: Memory.erase m a

/-- The memory after a write of bytes at ascending addresses (30_encoding.md R89, MEMB). -/
def Memory.writeAll : Memory → Nat → List Byte → Memory
  | m, _, [] => m
  | m, a, v :: vs => Memory.writeAll (m.write a v) (a + 1) vs

/-- What `MemRead` returns (20_memory.md R60). -/
inductive ReadResult where
  | byte (v : Byte)
  | busError
  deriving DecidableEq, Repr

namespace State

/-- Does the half-open range `[lo, hi)` share an address with a window whose reads have side effects (20_memory.md R63)? -/
def sideEffectIn (s : State) (lo hi : Nat) : Bool :=
  s.platform.sideEffects.any fun w => max w.1 lo < min w.2 hi

/-- Does the location at `a` have read side effects (20_memory.md R63)? -/
def sideEffectAt (s : State) (a : Nat) : Bool := s.sideEffectIn a (a + 1)

/-- The state after `d` free values have been drawn in all (log 10). -/
def withDraws (s : State) (d : Nat) : State := { s with draws := d }

/-- The state after reads that leave the moments `l` and have drawn `d` free values in all (log 6, log 10). -/
def withReads (s : State) (l : List Moment) (d : Nat) : State := { s with past := l, draws := d }

/-- The state without a record of the past: every read is still to come and takes place now. -/
def fresh (s : State) : State := s.withReads [] s.draws

end State

/-- The first read among the moments, and the moments after it. -/
def Moment.nextRead : List Moment → Option (Byte × List Moment)
  | [] => none
  | .read v :: l => some (v, l)
  | .change _ :: l => Moment.nextRead l

/-- The moments without the reads. -/
def Moment.changes : List Moment → List Moment
  | [] => []
  | .read _ :: l => Moment.changes l
  | .change m :: l => .change m :: Moment.changes l

/-- The memory before the moments, `now` being the memory after them. -/
def Moment.memory (now : Memory) : List Moment → Memory
  | [] => now
  | .read _ :: l => Moment.memory now l
  | .change m :: _ => m

namespace State

/-- The memory at the instant of a read still to come: a free instant from the last read until now (20_memory.md R73,
93_implementation_defined.md U12; log 6), which is now if nothing has happened since. -/
def instant (s : State) : Memory × State :=
  match s.past with
  | [] => (s.mem, s)
  | m :: l =>
    let later := (m :: l).drop (Config.freeInstant s.draws % (l.length + 2))
    (Moment.memory s.mem later, s.withReads later (s.draws + 1))

/-- What the location at `a` answers the engine's next read: what it answered if the read has taken place, otherwise what it
answers at the instant of the read. No read takes place twice (20_memory.md R62). -/
def answer (s : State) (a : Nat) : Option Byte × State :=
  match Moment.nextRead s.past with
  | some (v, l) => (some v, s.withReads l s.draws)
  | none => (s.instant.1.read a, s.instant.2)

/-- One engine read of the byte at `a` (20_memory.md R60, R61). A byte written since the acceptance of the command is a
fresh free byte (70_reset_and_hazards.md R240; log 6), and so is every byte of a command that is `unsteady` because it
reads a location with read side effects (20_memory.md R63, 93_implementation_defined.md U3; log 7). -/
def memRead (s : State) (a : Nat) (unsteady : Bool) : ReadResult × State :=
  match s.answer a with
  | (none, s1) => (.busError, s1)
  | (some v, s1) =>
    if unsteady || s1.dirty.contains a then (.byte (Config.freeByte s1.draws), s1.withDraws (s1.draws + 1))
    else (.byte v, s1)

/-- A scan that consumes `v` where its read was answered `w`, if it has taken place: when only one of the two bytes ends the
text, the reads after it were none of this scan's, and other reads take place after the same instant (log 6). -/
def followed (s : State) (w : Option Byte) (v : Byte) : State :=
  match w with
  | none => s
  | some w => if (w == 0#8) == (v == 0#8) then s else s.withReads (Moment.changes s.past) s.draws

/-- One engine read of a scan for the terminator. -/
def scanRead (s : State) (a : Nat) (unsteady : Bool) : ReadResult × State :=
  match s.memRead a unsteady with
  | (.busError, s1) => (.busError, s1)
  | (.byte v, s1) => (.byte v, s1.followed ((Moment.nextRead s.past).map Prod.fst) v)

/-- The end of a command, by completion or abort: phase IDLE. The working registers are unused from here on
(93_implementation_defined.md U6); log 8 (DESIGN CHOICE) clears them, all but `lat`. -/
def endCommand (s : State) : State :=
  { s with phase := .idle, cursor := 0, acc := 0#64, tail := [], len := 0, dirty := [], past := [] }

/-- Command acceptance of the word `w` (40_command.md R100). STATUS.BUSY becomes 1 with the phase. -/
def accept (s : State) (w : Word) : State :=
  { s with
    cmd := w
    done := false, err := false, errcode := .none
    lat := { word := w, src := s.srcAddr, len := s.length, seed := s.seedHi ++ s.seedLo }
    phase := .held
    dirty := [], past := [] }

/-- A dropped command (40_command.md R101). -/
def dropCommand (s : State) : State := { s with drop := true }

/-- A host write to CMD: accepted when BUSY = 0 (40_command.md R100), dropped when BUSY = 1 (R101). -/
def writeCmd (s : State) (w : Word) : State := if s.busy then s.dropCommand else s.accept w

/-- `raise CmdError(code, a)`, the error completion (40_command.md R112, 60_exceptions.md R207): one atomic update.
RESULT_LO, RESULT_HI and COUNT are unchanged. -/
def cmdError (s : State) (code : ErrCode) (a : Word) : State :=
  { s.endCommand with errAddr := a, errcode := code, err := true, done := true }

end State

/-- A HashResult of an algorithm's width (00_scope.md R7). -/
inductive Digest where
  | w32 (h : Word)
  | w64 (h : DWord)
  deriving DecidableEq, Repr

/-- RESULT_LO of a result (40_command.md R110). -/
def Digest.lo : Digest → Word
  | .w32 h => h
  | .w64 h => h.extractLsb' 0 32

/-- RESULT_HI of a result (40_command.md R110): 0 for a 32-bit algorithm. -/
def Digest.hi : Digest → Word
  | .w32 _ => 0#32
  | .w64 h => h.extractLsb' 32 32

namespace State

/-- `complete(H, L)`, the success completion (40_command.md R111): one atomic update. ERR_ADDR is unchanged. -/
def complete (s : State) (h : Digest) (n : Nat) : State :=
  { s.endCommand with
    resultLo := h.lo, resultHi := h.hi
    count := BitVec.ofNat 32 n
    done := true, err := false, errcode := .none }

/-- Soft reset (70_reset_and_hazards.md R232), less the write of CTRL.IE that goes with it. -/
def softReset (s : State) : State :=
  { s.endCommand with done := false, err := false, drop := false, errcode := .none }

/-- A write to CTRL (10_state.md R26): bit 1 performs a soft reset, and bit 0 is then written to IE. -/
def writeCtrl (s : State) (v : Word) : State :=
  { (if v.getLsbD 1 then s.softReset else s) with ie := v.getLsbD 0 }

/-- Hardware reset (70_reset_and_hazards.md R230): every piece of the block's state takes its value of 10_state.md R46,
any command and any table generation are aborted, and the generator starts anew. The platform's memory, the host's coming
events, the schedule and the free values' counters are no state of the block (log 17). The reset input is released. -/
def hardReset (s : State) : State :=
  { State.afterReset s.build s.platform s.mem with
    script := s.script, response := s.response, sched := s.sched, draws := s.draws, turns := s.turns }

end State

/-- The CRC bit step (41_crc32.md R130), with `p` the polynomial. -/
def crcStep (p r : Word) : Word := (r >>> 1) ^^^ (p &&& (0#32 - (r &&& 1#32)))

/-- Eight bit steps (41_crc32.md R130). -/
def crcStep8 (p r : Word) : Word :=
  crcStep p (crcStep p (crcStep p (crcStep p (crcStep p (crcStep p (crcStep p (crcStep p r)))))))

/-- The table entry `T[n] = step^8(zext_32(n))` (41_crc32.md R130). -/
def crcEntry (p : Word) (n : Nat) : Word := crcStep8 p (BitVec.ofNat 32 n)

/-- `count` entries of the table from index `n` on. -/
def crcEntries (p : Word) : (count n : Nat) → List Word
  | 0, _ => []
  | k + 1, n => crcEntry p n :: crcEntries p k (n + 1)

namespace State

/-- `T[n]` as the engine and TAB_DATA read it (10_state.md R38, R41). -/
def tableAt (s : State) (n : BitVec 8) : Word := s.table.getD n.toNat 0#32

/-- One table-generator step (41_crc32.md R131): in FILL(n) it writes `T[n]` and moves to FILL(n+1), or to READY after
n = 255; otherwise the generator takes no step. -/
def tableStep (s : State) : State :=
  match s.tgen with
  | .fill n =>
    { s with
      table := s.table.set n.val (crcEntry s.build.crcPoly n.val)
      tgen := if h : n.val + 1 < 256 then .fill ⟨n.val + 1, h⟩ else .ready }
  | .ready => s
  | .absent => s

/-- The generator run to its end: entries n to 255 written, READY (41_crc32.md R131). -/
def finishTable (s : State) : State :=
  match s.tgen with
  | .fill n =>
    { s with
      table := s.table.take n.val ++ crcEntries s.build.crcPoly (256 - n.val) n.val
      tgen := .ready }
  | .ready => s
  | .absent => s

/-- What a CRC32 command waits for (40_command.md R102): with CRC_TABLE_EN = 1 it is held until TABLE_READY = 1, and
"the hold ends by table-generator steps only, and the generator always finishes" (log 12). -/
def awaitTable (s : State) : State := if s.build.crcTableEn then s.finishTable else s

end State

end Sys2Proof.Machine
end

