-- ==== Sys2Proof/Machine/Operands.lean ====
section
/-! DEFINITION. The operands of a command (30_encoding.md R85): the seed (40_command.md R103), the input bytes by the
SPAN and TEXT shapes (R104 to R106), the word loads (20_memory.md R66), and the frame every meaning runs in (R107). -/

namespace Sys2Proof.Machine

/-- A byte as a `u32`, zero extended (00_scope.md R10). -/
def zext32 (b : Byte) : Word := b.setWidth 32

/-- A byte as a `u64`, zero extended (00_scope.md R10). -/
def zext64 (b : Byte) : DWord := b.setWidth 64

/-- `trunc_32(n)` (00_scope.md R10). -/
def trunc32 (n : Nat) : Word := BitVec.ofNat 32 n

/-- `rotl32(x, n)`, a true rotation for 0 < n < 32 (00_scope.md R9). -/
def rotl32 (x : Word) (n : Nat) : Word := (x <<< n) ||| (x >>> (32 - n))

/-- `B[i]`, used below the length only. -/
def byteAt (b : List Byte) (i : Nat) : Byte := b.getD i 0#8

/-- `LE32(B, i)` (20_memory.md R66). -/
def le32 (b : List Byte) (i : Nat) : Word :=
  zext32 (byteAt b i) ||| (zext32 (byteAt b (i + 1)) <<< 8) ||| (zext32 (byteAt b (i + 2)) <<< 16) |||
    (zext32 (byteAt b (i + 3)) <<< 24)

/-- `LE64(B, i)` (20_memory.md R66). -/
def le64 (b : List Byte) (i : Nat) : DWord :=
  (List.range 8).foldl (fun w j => w ||| (zext64 (byteAt b (i + j)) <<< (8 * j))) 0#64

/-- A list of tail bytes with their offsets, from the highest offset down: `for j in r-1 downto 0` (44_murmur2.md R172). -/
def downTail (t : List Byte) : List (Byte × Nat) := t.zipIdx.reverse

namespace State

/-- The seed of a 32-bit algorithm (40_command.md R103): SEED_HI is ignored. -/
def seed32 (s : State) (default : Word) (dseed : Bool) : Word :=
  if dseed then default else s.lat.seed.extractLsb' 0 32

/-- The seed of a 64-bit algorithm (40_command.md R103). -/
def seed64 (s : State) (default : DWord) (dseed : Bool) : DWord :=
  if dseed then default else s.lat.seed

end State

/-- The outcome of gathering the input: the bytes B, or the command error that ends it (40_command.md R104, R105). -/
inductive Gathered where
  | bytes (b : List Byte)
  | error (code : ErrCode) (addr : Word)
  deriving DecidableEq, Repr

/-- One more byte in front of what the rest of a pass gathers. -/
def Gathered.cons (v : Byte) : Gathered → Gathered
  | .bytes b => .bytes (v :: b)
  | .error c a => .error c a

/-- The reads of a span pass (40_command.md R104): `n` bytes at ascending addresses from `a`; the first BusError ends it. -/
def readSpan (unsteady : Bool) : (n a : Nat) → State → Gathered × State
  | 0, _, s => (.bytes [], s)
  | n + 1, a, s =>
    match s.memRead a unsteady with
    | (.busError, s1) => (.error .bus (BitVec.ofNat 32 a), s1)
    | (.byte v, s1) =>
      let r := readSpan unsteady n (a + 1) s1
      (r.1.cons v, r.2)

/-- The SPAN shape with length `L` (40_command.md R104): RANGE is checked before any read, and never for L = 0. The pass
reads `[lat.src, lat.src + L)` (20_memory.md R62). -/
def gatherSpan (unsteady : Bool) (s : State) (n : Nat) : Gathered × State :=
  if 0 < n ∧ s.lat.src.toNat + n > addressSpace then (.error .range s.lat.src, s)
  else readSpan unsteady n s.lat.src.toNat s

/-- The TEXT scan from offset `i` with `k` offsets left below the limit (40_command.md R105): at each offset NOTERM, then
RANGE, then BUS; the first zero byte ends the text and is no part of it. -/
def scanText (unsteady : Bool) (src : Word) : (k i : Nat) → State → Gathered × State
  | 0, _, s => (.error .noterm src, s)
  | k + 1, i, s =>
    if src.toNat + i ≥ addressSpace then (.error .range src, s)
    else
      match s.scanRead (src.toNat + i) unsteady with
      | (.busError, s1) => (.error .bus (BitVec.ofNat 32 (src.toNat + i)), s1)
      | (.byte v, s1) =>
        if v = 0#8 then (.bytes [], s1)
        else
          let r := scanText unsteady src k (i + 1) s1
          (r.1.cons v, r.2)

/-- The TEXT shape's scan with the latched limit (40_command.md R105). -/
def gatherText (unsteady : Bool) (s : State) : Gathered × State := scanText unsteady s.lat.src s.lat.len.toNat 0 s

/-- Where a span pass reads a location with read side effects (20_memory.md R63): the count of free values just before its
first such read, none if the pass ends without one. -/
def spanSideEffect : (n a : Nat) → State → Option Nat
  | 0, _, _ => none
  | n + 1, a, s =>
    if s.sideEffectAt a then some s.draws
    else
      match s.memRead a false with
      | (.busError, _) => none
      | (.byte _, s1) => spanSideEffect n (a + 1) s1

/-- Where a scan reads a location with read side effects, in the same way. -/
def textSideEffect (src : Word) : (k i : Nat) → State → Option Nat
  | 0, _, _ => none
  | k + 1, i, s =>
    if src.toNat + i ≥ addressSpace then none
    else if s.sideEffectAt (src.toNat + i) then some s.draws
    else
      match s.scanRead (src.toNat + i) false with
      | (.busError, _) => none
      | (.byte v, s1) => if v = 0#8 then none else textSideEffect src k (i + 1) s1

/-- The end of a command whose input is known (40_command.md R107, R111, R112): the result of `f` on the bytes, or the
error. -/
def finishCommand (f : List Byte → Digest) : Gathered × State → State
  | (.bytes b, s) => s.complete (f b) b.length
  | (.error c a, s) => s.cmdError c a

namespace State

/-- A SPAN command whose reads are all of one kind, `unsteady` or not. -/
def spanRun (unsteady : Bool) (s : State) (f : List Byte → Digest) : State :=
  finishCommand f (gatherSpan unsteady s s.lat.len.toNat)

/-- A single-pass TEXT command whose reads are all of one kind. -/
def textRun (unsteady : Bool) (s : State) (f : List Byte → Digest) : State :=
  finishCommand f (gatherText unsteady s)

/-- A MurMur-family TEXT command whose reads are all of one kind (40_command.md R106): a scan that measures L, then the span
of length L read again. -/
def measuredTextRun (unsteady : Bool) (s : State) (f : List Byte → Digest) : State :=
  match gatherText unsteady s with
  | (.bytes b, s1) => finishCommand f (gatherSpan unsteady s1 b.length)
  | (.error c a, s1) => s1.cmdError c a

/-- Where a SPAN command reads a location with read side effects; it reads nothing when it ends in RANGE. -/
def spanMeets (s : State) : Option Nat :=
  if s.lat.src.toNat + s.lat.len.toNat > addressSpace then none
  else spanSideEffect s.lat.len.toNat s.lat.src.toNat s

/-- Where a TEXT command reads a location with read side effects; a second pass reads no location the scan did not. -/
def textMeets (s : State) : Option Nat := textSideEffect s.lat.src s.lat.len.toNat 0 s

/-- The end of a SPAN command that computes `f`: the reads that have taken place stand, the others follow (40_command.md
R104, R107). If it reads a location with read side effects, every byte it consumes is free (93_implementation_defined.md
U3; log 7). -/
def spanReplay (s : State) (f : List Byte → Digest) : State :=
  match s.spanMeets with
  | none => s.spanRun false f
  | some d => (s.withDraws d).spanRun true f

/-- The end of a single-pass TEXT command, of CRC32, the DJB and the FNV families (40_command.md R105, R106), in the same
way. -/
def textReplay (s : State) (f : List Byte → Digest) : State :=
  match s.textMeets with
  | none => s.textRun false f
  | some d => (s.withDraws d).textRun true f

/-- The end of a MurMur-family TEXT command (40_command.md R106), in the same way, both passes alike. -/
def measuredTextReplay (s : State) (f : List Byte → Digest) : State :=
  match s.textMeets with
  | none => s.measuredTextRun false f
  | some d => (s.withDraws d).measuredTextRun true f

/-- A SPAN command from its first read, in one event (40_command.md R104, R107). -/
def spanCommand (s : State) (f : List Byte → Digest) : State := s.fresh.spanReplay f

/-- A single-pass TEXT command from its first read, in one event (40_command.md R105, R106). -/
def textCommand (s : State) (f : List Byte → Digest) : State := s.fresh.textReplay f

/-- A MurMur-family TEXT command from its first read, in one event (40_command.md R106). -/
def measuredTextCommand (s : State) (f : List Byte → Digest) : State := s.fresh.measuredTextReplay f

end State

end Sys2Proof.Machine
end

