-- ==== Sys2Proof/Machine/Crc32.lean ====
section
/-! DEFINITION. The CRC32 engine (41_crc32.md): the per-byte update with and without the table (R132), the algorithm
(R133) and the meanings of HASH.CRC32.SPAN and HASH.CRC32.TEXT. -/

namespace Sys2Proof.Machine

/-- The per-byte update of the bitwise engine (41_crc32.md R132, CRC_TABLE_EN = 0). -/
def crcUpdBitwise (p c : Word) (b : Byte) : Word := crcStep8 p (c ^^^ zext32 b)

/-- The per-byte update through a table (41_crc32.md R132, CRC_TABLE_EN = 1), with `t` the lookup of an entry. -/
def crcUpdTable (t : BitVec 8 → Word) (c : Word) (b : Byte) : Word :=
  (c >>> 8) ^^^ t ((c ^^^ zext32 b).setWidth 8)

/-- `upd(c, b)` of the build in hand (41_crc32.md R132). -/
def State.crcUpd (s : State) (c : Word) (b : Byte) : Word :=
  if s.build.crcTableEn then crcUpdTable s.tableAt c b else crcUpdBitwise s.build.crcPoly c b

/-- `F_CRC32(B, seed)` (41_crc32.md R133) with the per-byte update `upd`. -/
def fCrc32 (upd : Word → Byte → Word) (b : List Byte) (seed : Word) : Word := ~~~(b.foldl upd (~~~seed))

/-- What a CRC32 command computes, once the table is ready (41_crc32.md R133). -/
def State.digestCrc32 (s : State) (dseed : Bool) (b : List Byte) : Digest :=
  .w32 (fCrc32 s.crcUpd b (s.seed32 s.build.crcDefaultSeed dseed))

/-- HASH.CRC32.SPAN (41_crc32.md R133): held until the table is ready (40_command.md R102), then the span. -/
def execCrc32Span (dseed : Bool) (s : State) : Host.Outcome State Fault Refusal :=
  .next (s.awaitTable.spanCommand (s.awaitTable.digestCrc32 dseed))

/-- HASH.CRC32.TEXT (41_crc32.md R133): held until the table is ready (40_command.md R102), then one pass. -/
def execCrc32Text (dseed : Bool) (s : State) : Host.Outcome State Fault Refusal :=
  .next (s.awaitTable.textCommand (s.awaitTable.digestCrc32 dseed))

end Sys2Proof.Machine
end

