-- ==== Sys2Proof/Machine/Djb.lean ====
section
/-! DEFINITION. The DJB2 and DJB2A engines (42_djb.md R150, R151) and the meanings of their four commands. -/

namespace Sys2Proof.Machine

/-- One byte of DJB2: `h + (h << 5) + zext_32(b)` (42_djb.md R150). -/
def djb2Byte (h : Word) (b : Byte) : Word := h + (h <<< 5) + zext32 b

/-- One byte of DJB2A: `(h + (h << 5)) ^ zext_32(b)` (42_djb.md R151). -/
def djb2aByte (h : Word) (b : Byte) : Word := (h + (h <<< 5)) ^^^ zext32 b

/-- `F_DJB2(B, seed)` (42_djb.md R150). -/
def fDjb2 (b : List Byte) (seed : Word) : Word := b.foldl djb2Byte seed

/-- `F_DJB2A(B, seed)` (42_djb.md R151). -/
def fDjb2a (b : List Byte) (seed : Word) : Word := b.foldl djb2aByte seed

/-- What a DJB2 command computes. -/
def State.digestDjb2 (s : State) (dseed : Bool) (b : List Byte) : Digest :=
  .w32 (fDjb2 b (s.seed32 s.build.djbBasis dseed))

/-- What a DJB2A command computes. -/
def State.digestDjb2a (s : State) (dseed : Bool) (b : List Byte) : Digest :=
  .w32 (fDjb2a b (s.seed32 s.build.djbBasis dseed))

/-- HASH.DJB2.SPAN (42_djb.md R150). -/
def execDjb2Span (dseed : Bool) (s : State) : Host.Outcome State Fault Refusal :=
  .next (s.spanCommand (s.digestDjb2 dseed))

/-- HASH.DJB2.TEXT (42_djb.md R150). -/
def execDjb2Text (dseed : Bool) (s : State) : Host.Outcome State Fault Refusal :=
  .next (s.textCommand (s.digestDjb2 dseed))

/-- HASH.DJB2A.SPAN (42_djb.md R151). -/
def execDjb2aSpan (dseed : Bool) (s : State) : Host.Outcome State Fault Refusal :=
  .next (s.spanCommand (s.digestDjb2a dseed))

/-- HASH.DJB2A.TEXT (42_djb.md R151). -/
def execDjb2aText (dseed : Bool) (s : State) : Host.Outcome State Fault Refusal :=
  .next (s.textCommand (s.digestDjb2a dseed))

end Sys2Proof.Machine
end

