-- ==== Sys2Proof/Machine/Fnv.lean ====
section
/-! DEFINITION. The FNV1A and FNV1A64 engines (43_fnv.md R160, R161) and the meanings of their four commands. -/

namespace Sys2Proof.Machine

/-- One byte of FNV1A: `(h ^ zext_32(b)) * FNV32_PRIME` (43_fnv.md R160). -/
def fnv1aByte (prime h : Word) (b : Byte) : Word := (h ^^^ zext32 b) * prime

/-- One byte of FNV1A64: `(h ^ zext_64(b)) * FNV64_PRIME` (43_fnv.md R161). -/
def fnv1a64Byte (prime h : DWord) (b : Byte) : DWord := (h ^^^ zext64 b) * prime

/-- `F_FNV1A(B, seed)` (43_fnv.md R160). -/
def fFnv1a (prime : Word) (b : List Byte) (seed : Word) : Word := b.foldl (fnv1aByte prime) seed

/-- `F_FNV1A64(B, seed)` (43_fnv.md R161). -/
def fFnv1a64 (prime : DWord) (b : List Byte) (seed : DWord) : DWord := b.foldl (fnv1a64Byte prime) seed

/-- What an FNV1A command computes. -/
def State.digestFnv1a (s : State) (dseed : Bool) (b : List Byte) : Digest :=
  .w32 (fFnv1a s.build.fnv32Prime b (s.seed32 s.build.fnv32Basis dseed))

/-- What an FNV1A64 command computes. -/
def State.digestFnv1a64 (s : State) (dseed : Bool) (b : List Byte) : Digest :=
  .w64 (fFnv1a64 s.build.fnv64Prime b (s.seed64 s.build.fnv64Basis dseed))

/-- HASH.FNV1A.SPAN (43_fnv.md R160). -/
def execFnv1aSpan (dseed : Bool) (s : State) : Host.Outcome State Fault Refusal :=
  .next (s.spanCommand (s.digestFnv1a dseed))

/-- HASH.FNV1A.TEXT (43_fnv.md R160). -/
def execFnv1aText (dseed : Bool) (s : State) : Host.Outcome State Fault Refusal :=
  .next (s.textCommand (s.digestFnv1a dseed))

/-- HASH.FNV1A64.SPAN (43_fnv.md R161). -/
def execFnv1a64Span (dseed : Bool) (s : State) : Host.Outcome State Fault Refusal :=
  .next (s.spanCommand (s.digestFnv1a64 dseed))

/-- HASH.FNV1A64.TEXT (43_fnv.md R161). -/
def execFnv1a64Text (dseed : Bool) (s : State) : Host.Outcome State Fault Refusal :=
  .next (s.textCommand (s.digestFnv1a64 dseed))

end Sys2Proof.Machine
end

