-- ==== Sys2Proof/Machine/Murmur2.lean ====
section
/-! DEFINITION. The MurMur2 family (44_murmur2.md): the shared helpers (R170), MURMUR2 (R171), MURMUR2A with both values
of MM2A_TAIL (R172), MURMUR2_64 with both values of MM64_FOLD (R173), and the meanings of the six commands. -/

namespace Sys2Proof.Machine

/-- `scr32(k)`, the word scramble (44_murmur2.md R170). -/
def scr32 (m k : Word) : Word :=
  let k1 := k * m
  let k2 := k1 ^^^ (k1 >>> 24)
  k2 * m

/-- `mmix(h, k)` (44_murmur2.md R170). -/
def mmix (m h k : Word) : Word := (h * m) ^^^ scr32 m k

/-- `fin2(h)`, the finalization (44_murmur2.md R170). -/
def fin2 (m h : Word) : Word :=
  let h1 := h ^^^ (h >>> 13)
  let h2 := h1 * m
  h2 ^^^ (h2 >>> 15)

/-- The tail of MURMUR2 on its r = 0 to 3 bytes (44_murmur2.md R171): XORed at their little-endian positions, one
multiply, and none when there is no byte. -/
def murmur2Tail (m h : Word) (t : List Byte) : Word :=
  let h3 := if 3 ≤ t.length then h ^^^ (zext32 (byteAt t 2) <<< 16) else h
  let h2 := if 2 ≤ t.length then h3 ^^^ (zext32 (byteAt t 1) <<< 8) else h3
  if 1 ≤ t.length then (h2 ^^^ zext32 (byteAt t 0)) * m else h2

/-- `F_MURMUR2(B, seed)` (44_murmur2.md R171). -/
def fMurmur2 (m : Word) (b : List Byte) (seed : Word) : Word :=
  let nw := b.length / 4
  let h := (List.range nw).foldl (fun h j => mmix m h (le32 b (4 * j))) (seed ^^^ trunc32 b.length)
  fin2 m (murmur2Tail m h (b.drop (4 * nw)))

/-- A tail gathered into one word: XOR of the bytes at their little-endian positions, from the highest offset down
(44_murmur2.md R172 COMBINED, 45_murmur3.md R190). -/
def combinedTail (t : List Byte) : Word :=
  (downTail t).foldl (fun k x => k ^^^ (zext32 x.1 <<< (8 * x.2))) 0#32

/-- The tail of MURMUR2A (44_murmur2.md R172): one mmix for each byte from the highest offset down (PER_BYTE), or one for
the combined word (COMBINED). -/
def murmur2aTail (form : Config.Mm2aTail) (m h : Word) (t : List Byte) : Word :=
  match form with
  | .perByte => (downTail t).foldl (fun h x => mmix m h (zext32 x.1 <<< (8 * x.2))) h
  | .combined => mmix m h (combinedTail t)

/-- The end of MURMUR2A: the length mixed as a final word, then the finalization (44_murmur2.md R172). -/
def murmur2aEnd (m h : Word) (n : Nat) : Word := fin2 m (mmix m h (trunc32 n))

/-- `F_MURMUR2A(B, seed)` (44_murmur2.md R172). -/
def fMurmur2a (form : Config.Mm2aTail) (m : Word) (b : List Byte) (seed : Word) : Word :=
  let nw := b.length / 4
  let h := (List.range nw).foldl (fun h j => mmix m h (le32 b (4 * j))) seed
  murmur2aEnd m (murmur2aTail form m h (b.drop (4 * nw))) b.length

/-- One 8-byte word of MURMUR2_64 (44_murmur2.md R173). -/
def mix64 (fold : Config.Mm64Fold) (m h w : DWord) : DWord :=
  let k1 := w * m
  let k2 := k1 ^^^ (k1 >>> 47)
  let k := k2 * m
  match fold with
  | .xorThenMul => (h ^^^ k) * m
  | .mulThenXor => (h * m) ^^^ k

/-- The tail of MURMUR2_64 on its r = 0 to 7 bytes (44_murmur2.md R173): one multiply, and none when there is no byte. -/
def murmur64Tail (m h : DWord) (t : List Byte) : DWord :=
  let h1 := (downTail t).foldl (fun h x => h ^^^ (zext64 x.1 <<< (8 * x.2))) h
  if 1 ≤ t.length then h1 * m else h1

/-- The finalization of MURMUR2_64 (44_murmur2.md R173). -/
def fin64 (m h : DWord) : DWord :=
  let h1 := h ^^^ (h >>> 47)
  let h2 := h1 * m
  h2 ^^^ (h2 >>> 47)

/-- `F_MURMUR2_64(B, seed)` (44_murmur2.md R173). -/
def fMurmur64 (fold : Config.Mm64Fold) (m : DWord) (b : List Byte) (seed : DWord) : DWord :=
  let nw := b.length / 8
  let h := (List.range nw).foldl (fun h j => mix64 fold m h (le64 b (8 * j))) (seed ^^^ (BitVec.ofNat 64 b.length * m))
  fin64 m (murmur64Tail m h (b.drop (8 * nw)))

/-- What a MURMUR2 command computes. -/
def State.digestMurmur2 (s : State) (dseed : Bool) (b : List Byte) : Digest :=
  .w32 (fMurmur2 s.build.mm2M b (s.seed32 s.build.mmDefaultSeed dseed))

/-- What a MURMUR2A command computes. -/
def State.digestMurmur2a (s : State) (dseed : Bool) (b : List Byte) : Digest :=
  .w32 (fMurmur2a s.build.mm2aTail s.build.mm2M b (s.seed32 s.build.mmDefaultSeed dseed))

/-- What a MURMUR2_64 command computes; its default seed is `zext_64(MM_DEFAULT_SEED)` (30_encoding.md R81). -/
def State.digestMurmur64 (s : State) (dseed : Bool) (b : List Byte) : Digest :=
  .w64 (fMurmur64 s.build.mm64Fold s.build.mm64M b (s.seed64 (s.build.mmDefaultSeed.setWidth 64) dseed))

/-- HASH.MURMUR2.SPAN (44_murmur2.md R171). -/
def execMurmur2Span (dseed : Bool) (s : State) : Host.Outcome State Fault Refusal :=
  .next (s.spanCommand (s.digestMurmur2 dseed))

/-- HASH.MURMUR2.TEXT (44_murmur2.md R171, 40_command.md R106). -/
def execMurmur2Text (dseed : Bool) (s : State) : Host.Outcome State Fault Refusal :=
  .next (s.measuredTextCommand (s.digestMurmur2 dseed))

/-- HASH.MURMUR2A.SPAN (44_murmur2.md R172). -/
def execMurmur2aSpan (dseed : Bool) (s : State) : Host.Outcome State Fault Refusal :=
  .next (s.spanCommand (s.digestMurmur2a dseed))

/-- HASH.MURMUR2A.TEXT (44_murmur2.md R172, 40_command.md R106). -/
def execMurmur2aText (dseed : Bool) (s : State) : Host.Outcome State Fault Refusal :=
  .next (s.measuredTextCommand (s.digestMurmur2a dseed))

/-- HASH.MURMUR2_64.SPAN (44_murmur2.md R173). -/
def execMurmur64Span (dseed : Bool) (s : State) : Host.Outcome State Fault Refusal :=
  .next (s.spanCommand (s.digestMurmur64 dseed))

/-- HASH.MURMUR2_64.TEXT (44_murmur2.md R173, 40_command.md R106). -/
def execMurmur64Text (dseed : Bool) (s : State) : Host.Outcome State Fault Refusal :=
  .next (s.measuredTextCommand (s.digestMurmur64 dseed))

end Sys2Proof.Machine
end

