-- ==== Sys2Proof/Machine/Murmur3.lean ====
section
/-! DEFINITION. The MurMur3 engine (45_murmur3.md R190) and the meanings of its two commands. -/

namespace Sys2Proof.Machine

/-- The scramble of one word or of the tail (45_murmur3.md R190): `*C1`, rotate-left 15, `*C2`. -/
def scr3 (b : Config.Build) (k : Word) : Word := rotl32 (k * b.mm3C1) 15 * b.mm3C2

/-- One 4-byte word of MURMUR3 (45_murmur3.md R190). -/
def mix3 (b : Config.Build) (h k : Word) : Word := rotl32 (h ^^^ scr3 b k) 13 * 5#32 + b.mm3C3

/-- The tail of MURMUR3 on its r = 0 to 3 bytes (45_murmur3.md R190): no rotate of h and no `*5 + C3`. -/
def murmur3Tail (b : Config.Build) (h : Word) (t : List Byte) : Word :=
  if 1 ≤ t.length then h ^^^ scr3 b (combinedTail t) else h

/-- The finalization of MURMUR3 with the length (45_murmur3.md R190). -/
def fin3 (b : Config.Build) (h : Word) (n : Nat) : Word :=
  let h0 := h ^^^ trunc32 n
  let h1 := (h0 ^^^ (h0 >>> 16)) * b.mm3F1
  let h2 := (h1 ^^^ (h1 >>> 13)) * b.mm3F2
  h2 ^^^ (h2 >>> 16)

/-- `F_MURMUR3(B, seed)` (45_murmur3.md R190). -/
def fMurmur3 (c : Config.Build) (b : List Byte) (seed : Word) : Word :=
  let nw := b.length / 4
  let h := (List.range nw).foldl (fun h j => mix3 c h (le32 b (4 * j))) seed
  fin3 c (murmur3Tail c h (b.drop (4 * nw))) b.length

/-- What a MURMUR3 command computes. -/
def State.digestMurmur3 (s : State) (dseed : Bool) (b : List Byte) : Digest :=
  .w32 (fMurmur3 s.build b (s.seed32 s.build.mmDefaultSeed dseed))

/-- HASH.MURMUR3.SPAN (45_murmur3.md R190). -/
def execMurmur3Span (dseed : Bool) (s : State) : Host.Outcome State Fault Refusal :=
  .next (s.spanCommand (s.digestMurmur3 dseed))

/-- HASH.MURMUR3.TEXT (45_murmur3.md R190, 40_command.md R106). -/
def execMurmur3Text (dseed : Bool) (s : State) : Host.Outcome State Fault Refusal :=
  .next (s.measuredTextCommand (s.digestMurmur3 dseed))

end Sys2Proof.Machine
end

