-- ==== Sys2Proof/Machine/Dispatch.lean ====
section
/-! DEFINITION. The dispatch: one arm per command of spec/opcode_table.json. `exec i s` is the command `i` run on the
latched operands of `s` to its completion, in one event (10_state.md R42; log 1). -/

namespace Sys2Proof.Machine

def exec (i : Instr) (s : State) : Host.Outcome State Fault Refusal :=
  match i with
  | .crc32Span dseed => Sys2Proof.Machine.execCrc32Span dseed s
  | .crc32Text dseed => Sys2Proof.Machine.execCrc32Text dseed s
  | .djb2Span dseed => Sys2Proof.Machine.execDjb2Span dseed s
  | .djb2Text dseed => Sys2Proof.Machine.execDjb2Text dseed s
  | .djb2aSpan dseed => Sys2Proof.Machine.execDjb2aSpan dseed s
  | .djb2aText dseed => Sys2Proof.Machine.execDjb2aText dseed s
  | .fnv1aSpan dseed => Sys2Proof.Machine.execFnv1aSpan dseed s
  | .fnv1aText dseed => Sys2Proof.Machine.execFnv1aText dseed s
  | .fnv1a64Span dseed => Sys2Proof.Machine.execFnv1a64Span dseed s
  | .fnv1a64Text dseed => Sys2Proof.Machine.execFnv1a64Text dseed s
  | .murmur2Span dseed => Sys2Proof.Machine.execMurmur2Span dseed s
  | .murmur2Text dseed => Sys2Proof.Machine.execMurmur2Text dseed s
  | .murmur2aSpan dseed => Sys2Proof.Machine.execMurmur2aSpan dseed s
  | .murmur2aText dseed => Sys2Proof.Machine.execMurmur2aText dseed s
  | .murmur2_64Span dseed => Sys2Proof.Machine.execMurmur64Span dseed s
  | .murmur2_64Text dseed => Sys2Proof.Machine.execMurmur64Text dseed s
  | .murmur3Span dseed => Sys2Proof.Machine.execMurmur3Span dseed s
  | .murmur3Text dseed => Sys2Proof.Machine.execMurmur3Text dseed s

end Sys2Proof.Machine
end

