-- ==== Sys2Proof/Machine/Engine.lean ====
section
/-! DEFINITION. The engine one atomic step at a time (10_state.md R42, 40_command.md R102 to R107): the first step from
HELD, then one byte read and folded a step, then the completion. It interleaves with host events (60_exceptions.md R206), and
the hazards of 70_reset_and_hazards.md R240 and 20_memory.md R63 end it on free bytes. It folds the bytes while it reads
them, which 40_command.md R107 allows: "H must equal F_ALG over the whole sequence". `exec` is the same command in one
event (log 1). -/

namespace Sys2Proof.Machine

/-- The MurMur family (40_command.md R106): its TEXT commands make two passes. -/
def Alg.isMurmur : Alg → Bool
  | .crc32 => false
  | .djb2 => false
  | .djb2a => false
  | .fnv1a => false
  | .fnv1a64 => false
  | .murmur2 => true
  | .murmur2a => true
  | .murmur2_64 => true
  | .murmur3 => true

/-- A command with a scan pass before its hash pass (40_command.md R102, R106). -/
def twoPass (i : Instr) : Bool := i.shape == .text && Alg.isMurmur i.alg

/-- A command whose one pass looks for the terminator (40_command.md R106). -/
def onePassText (i : Instr) : Bool := i.shape == .text && !Alg.isMurmur i.alg

/-- How many tail bytes the engine keeps before they make a word (00_scope.md R14): 4, 8 for MURMUR2_64, and 1 where each
byte is folded alone. -/
def Alg.wordSize : Alg → Nat
  | .crc32 => 1
  | .djb2 => 1
  | .djb2a => 1
  | .fnv1a => 1
  | .fnv1a64 => 1
  | .murmur2 => 4
  | .murmur2a => 4
  | .murmur2_64 => 8
  | .murmur3 => 4

/-- The accumulator register read by a 32-bit algorithm (log 15). -/
def acc32 (acc : DWord) : Word := acc.setWidth 32

/-- The accumulator register written by a 32-bit algorithm (log 15). -/
def ofAcc32 (h : Word) : DWord := h.setWidth 64

/-- The accumulator before the first byte of a hash pass over `n` bytes, `n` used where the rule takes L up front
(44_murmur2.md R171, R173). -/
def startAcc (s : State) (i : Instr) (n : Nat) : DWord :=
  match i.alg with
  | .crc32 => ofAcc32 (~~~(s.seed32 s.build.crcDefaultSeed i.dseed))
  | .djb2 => ofAcc32 (s.seed32 s.build.djbBasis i.dseed)
  | .djb2a => ofAcc32 (s.seed32 s.build.djbBasis i.dseed)
  | .fnv1a => ofAcc32 (s.seed32 s.build.fnv32Basis i.dseed)
  | .fnv1a64 => s.seed64 s.build.fnv64Basis i.dseed
  | .murmur2 => ofAcc32 (s.seed32 s.build.mmDefaultSeed i.dseed ^^^ trunc32 n)
  | .murmur2a => ofAcc32 (s.seed32 s.build.mmDefaultSeed i.dseed)
  | .murmur2_64 => s.seed64 (s.build.mmDefaultSeed.setWidth 64) i.dseed ^^^ (BitVec.ofNat 64 n * s.build.mm64M)
  | .murmur3 => ofAcc32 (s.seed32 s.build.mmDefaultSeed i.dseed)

/-- The accumulator after one whole word, or one byte for an algorithm that folds bytes. -/
def foldWord (s : State) (a : Alg) (acc : DWord) (w : List Byte) : DWord :=
  match a with
  | .crc32 => ofAcc32 (s.crcUpd (acc32 acc) (byteAt w 0))
  | .djb2 => ofAcc32 (djb2Byte (acc32 acc) (byteAt w 0))
  | .djb2a => ofAcc32 (djb2aByte (acc32 acc) (byteAt w 0))
  | .fnv1a => ofAcc32 (fnv1aByte s.build.fnv32Prime (acc32 acc) (byteAt w 0))
  | .fnv1a64 => fnv1a64Byte s.build.fnv64Prime acc (byteAt w 0)
  | .murmur2 => ofAcc32 (mmix s.build.mm2M (acc32 acc) (le32 w 0))
  | .murmur2a => ofAcc32 (mmix s.build.mm2M (acc32 acc) (le32 w 0))
  | .murmur2_64 => mix64 s.build.mm64Fold s.build.mm64M acc (le64 w 0)
  | .murmur3 => ofAcc32 (mix3 s.build (acc32 acc) (le32 w 0))

/-- One byte into the accumulator and the tail: the byte joins the tail, and a full word is folded. -/
def absorb (s : State) (a : Alg) (acc : DWord) (tail : List Byte) (b : Byte) : DWord × List Byte :=
  let t := tail ++ [b]
  if t.length < Alg.wordSize a then (acc, t) else (foldWord s a acc t, [])

/-- The result of a hash pass of `n` bytes from its accumulator and its tail. -/
def finishAcc (s : State) (a : Alg) (acc : DWord) (tail : List Byte) (n : Nat) : Digest :=
  match a with
  | .crc32 => .w32 (~~~(acc32 acc))
  | .djb2 => .w32 (acc32 acc)
  | .djb2a => .w32 (acc32 acc)
  | .fnv1a => .w32 (acc32 acc)
  | .fnv1a64 => .w64 acc
  | .murmur2 => .w32 (fin2 s.build.mm2M (murmur2Tail s.build.mm2M (acc32 acc) tail))
  | .murmur2a =>
    .w32 (murmur2aEnd s.build.mm2M (murmur2aTail s.build.mm2aTail s.build.mm2M (acc32 acc) tail) n)
  | .murmur2_64 => .w64 (fin64 s.build.mm64M (murmur64Tail s.build.mm64M acc tail))
  | .murmur3 => .w32 (fin3 s.build (murmur3Tail s.build (acc32 acc) tail) n)

namespace State

/-- The result of an algorithm on a byte sequence, with the seed DSEED selects (40_command.md R107). -/
def digest (s : State) (a : Alg) (dseed : Bool) (b : List Byte) : Digest :=
  match a with
  | .crc32 => s.digestCrc32 dseed b
  | .djb2 => s.digestDjb2 dseed b
  | .djb2a => s.digestDjb2a dseed b
  | .fnv1a => s.digestFnv1a dseed b
  | .fnv1a64 => s.digestFnv1a64 dseed b
  | .murmur2 => s.digestMurmur2 dseed b
  | .murmur2a => s.digestMurmur2a dseed b
  | .murmur2_64 => s.digestMurmur64 dseed b
  | .murmur3 => s.digestMurmur3 dseed b

/-- The end of a legal command: its reads that have taken place stand, the others follow (40_command.md R107). -/
def replay (s : State) (i : Instr) : State :=
  match i.shape with
  | .span => s.spanReplay (s.digest i.alg i.dseed)
  | .text =>
    if Alg.isMurmur i.alg then s.measuredTextReplay (s.digest i.alg i.dseed)
    else s.textReplay (s.digest i.alg i.dseed)

/-- The end of a legal command that reads a location with read side effects: the same, and every byte it consumes is free
(93_implementation_defined.md U3; log 7). -/
def replayFree (s : State) (i : Instr) : State :=
  match i.shape with
  | .span => s.spanRun true (s.digest i.alg i.dseed)
  | .text =>
    if Alg.isMurmur i.alg then s.measuredTextRun true (s.digest i.alg i.dseed)
    else s.textRun true (s.digest i.alg i.dseed)

/-- A legal command in one event, once it is not held (40_command.md R107). -/
def run (s : State) (i : Instr) : State := s.fresh.replay i

/-- Is the command held (40_command.md R102)? Only CRC32 is, with CRC_TABLE_EN = 1, until TABLE_READY = 1. -/
def holds (s : State) (i : Instr) : Bool := i.alg == .crc32 && s.build.crcTableEn && !s.tableReady

/-- The start of a hash pass: cursor 0, the accumulator set up, no tail; `n` is the length to hash, or the limit of a
one-pass TEXT, until its terminator is read. -/
def beginHash (s : State) (i : Instr) (n : Nat) : State :=
  { s with phase := .hash i, cursor := 0, len := n, acc := startAcc s i n, tail := [] }

/-- The first engine step, from phase HELD (40_command.md R102, R108): ILLEGAL, then the hold, then the first pass. -/
def startStep (s : State) : State :=
  match decode s.lat.word with
  | .reject _ => s.cmdError .illegal 0#32
  | .ok i =>
    if s.holds i then s
    else if twoPass i then { s.fresh with phase := .scan i, cursor := 0 }
    else s.fresh.beginHash i s.lat.len.toNat

/-- The engine has read `v`, the memory's byte. -/
def noted (s : State) (v : Byte) : State := { s with past := s.past ++ [.read v] }

/-- One step of a scan pass (40_command.md R105, R106): it only measures L. -/
def scanStep (s : State) (i : Instr) : State :=
  if s.cursor = s.lat.len.toNat then s.cmdError .noterm s.lat.src
  else if s.lat.src.toNat + s.cursor ≥ addressSpace then s.cmdError .range s.lat.src
  else if s.sideEffectAt (s.lat.src.toNat + s.cursor) then s.replayFree i
  else
    match s.mem.read (s.lat.src.toNat + s.cursor) with
    | none => s.cmdError .bus (BitVec.ofNat 32 (s.lat.src.toNat + s.cursor))
    | some v => if v = 0#8 then (s.noted v).beginHash i s.cursor else { s.noted v with cursor := s.cursor + 1 }

/-- A byte read by a hash pass: folded, and counted by the cursor (10_state.md R21). -/
def consume (s : State) (i : Instr) (v : Byte) : State :=
  let r := absorb s i.alg s.acc s.tail v
  { s.noted v with acc := r.1, tail := r.2, cursor := s.cursor + 1 }

/-- One step of the hash pass of a one-pass TEXT (40_command.md R105, R106): the terminator fixes L, and the step after it
completes the command. -/
def textHashStep (s : State) (i : Instr) : State :=
  if s.cursor = s.lat.len.toNat then s.cmdError .noterm s.lat.src
  else if s.cursor = s.len then s.complete (finishAcc s i.alg s.acc s.tail s.len) s.len
  else if s.lat.src.toNat + s.cursor ≥ addressSpace then s.cmdError .range s.lat.src
  else if s.sideEffectAt (s.lat.src.toNat + s.cursor) then s.replayFree i
  else
    match s.mem.read (s.lat.src.toNat + s.cursor) with
    | none => s.cmdError .bus (BitVec.ofNat 32 (s.lat.src.toNat + s.cursor))
    | some v => if v = 0#8 then { s.noted v with len := s.cursor } else s.consume i v

/-- One step of a hash pass over a counted span (40_command.md R104, R106): the range check before the first read, the
completion after the last. -/
def spanHashStep (s : State) (i : Instr) : State :=
  if s.cursor = 0 ∧ 0 < s.len ∧ s.lat.src.toNat + s.len > addressSpace then s.cmdError .range s.lat.src
  else if s.cursor = s.len then s.complete (finishAcc s i.alg s.acc s.tail s.len) s.len
  else if s.sideEffectAt (s.lat.src.toNat + s.cursor) then s.replayFree i
  else
    match s.mem.read (s.lat.src.toNat + s.cursor) with
    | none => s.cmdError .bus (BitVec.ofNat 32 (s.lat.src.toNat + s.cursor))
    | some v => s.consume i v

/-- Has the input range `[lat.src, lat.src + lat.len)` of the running command been written since its acceptance
(70_reset_and_hazards.md R240)? -/
def disturbed (s : State) : Bool :=
  s.dirty.any fun a => decide (s.lat.src.toNat ≤ a ∧ a < s.lat.src.toNat + s.lat.len.toNat)

/-- One engine step (10_state.md R42). An idle engine takes none. When the input has been written since acceptance, every
read of a written address gives a free byte, whether the write came before or after it (70_reset_and_hazards.md R240): the
step ends the command as its rules give on such bytes, where the reads that have taken place keep their instants and the
others take place at any instant until this step (log 6). -/
def engineStep (s : State) : State :=
  match s.phase with
  | .idle => s
  | .held => s.startStep
  | .scan i => if s.disturbed then s.replay i else s.scanStep i
  | .hash i =>
    if s.disturbed then s.replay i else if onePassText i then s.textHashStep i else s.spanHashStep i

/-- `n` engine steps with no other event between. -/
def engineRun : Nat → State → State
  | 0, s => s
  | n + 1, s => engineRun n s.engineStep

/-- `n` table-generator steps with no other event between. -/
def tableRun : Nat → State → State
  | 0, s => s
  | n + 1, s => tableRun n s.tableStep

end State

end Sys2Proof.Machine
end

