-- ==== Sys2Proof/Machine/Port.lean ====
section
/-! DEFINITION. The register window (10_state.md R20 to R39) and the host's side of the block: the accesses the port takes
and refuses (20_memory.md R70 to R72), the host statements and pseudo-instructions (30_encoding.md R89, R90), and the
platform's events. -/

namespace Sys2Proof.Machine

/-- ID: MAGIC 0x4843, MAJOR 0x01, MINOR 0x00 (10_state.md R22). -/
def idWord : Word := 0x4843#16 ++ 0x01#8 ++ 0x00#8

/-- CAPS: RES0 [31:20], NALG [19:16], AW [15:8], RES0 [7:1], TABLE [0] (10_state.md R24). -/
def capsWord (b : Config.Build) : Word := 0#12 ++ 9#4 ++ 32#8 ++ 0#7 ++ BitVec.ofBool b.crcTableEn

namespace State

/-- CTRL as it reads (10_state.md R26): IE in bit 0, SRST and the rest 0. -/
def ctrlWord (s : State) : Word := 0#31 ++ BitVec.ofBool s.ie

/-- TAB_INDEX as it reads (10_state.md R37). -/
def tabIndexWord (s : State) : Word := 0#24 ++ s.tabIndex

/-- TAB_DATA as it reads (10_state.md R38): the selected entry when TABLE_READY = 1, else 0. -/
def tabDataWord (s : State) : Word := if s.tableReady then s.tableAt s.tabIndex else 0#32

/-- `R(offset)` at a 4-byte-aligned offset (10_state.md R23); reserved offsets read 0 (R39). -/
def readReg (s : State) (offset : BitVec 8) : Word :=
  match offset.toNat with
  | 0x00 => idWord
  | 0x04 => capsWord s.build
  | 0x08 => s.build.crcPoly
  | 0x0C => s.ctrlWord
  | 0x10 => s.cmd
  | 0x14 => s.statusWord
  | 0x18 => s.srcAddr
  | 0x1C => s.length
  | 0x20 => s.seedLo
  | 0x24 => s.seedHi
  | 0x28 => s.resultLo
  | 0x2C => s.resultHi
  | 0x30 => s.count
  | 0x34 => s.errAddr
  | 0x38 => s.tabIndexWord
  | 0x3C => s.tabDataWord
  | _ => 0#32

/-- `W(offset, data)` at a 4-byte-aligned offset (10_state.md R23 to R39): read-only registers and reserved offsets ignore
the write. It behaves alike while BUSY = 1, but for CMD (40_command.md R109). -/
def writeReg (s : State) (offset : BitVec 8) (v : Word) : State :=
  match offset.toNat with
  | 0x0C => s.writeCtrl v
  | 0x10 => s.writeCmd v
  | 0x14 => s.writeStatus v
  | 0x18 => { s with srcAddr := v }
  | 0x1C => { s with length := v }
  | 0x20 => { s with seedLo := v }
  | 0x24 => { s with seedHi := v }
  | 0x38 => { s with tabIndex := v.extractLsb' 0 8 }
  | _ => s

/-- A host write access: taken, or refused with the bus error response and no effect (20_memory.md R70, R202). -/
def hostWrite (s : State) (w : AccessWidth) (offset : BitVec 8) (v : Word) : State :=
  if accessAccepted w offset then { s.writeReg offset v with response := .ack }
  else { s with response := .busError }

/-- A host read access: its data, or the bus error response (20_memory.md R70); no side effect (R72). -/
def hostRead (s : State) (w : AccessWidth) (offset : BitVec 8) : State :=
  if accessAccepted w offset then { s with response := .data (s.readReg offset) }
  else { s with response := .busError }

/-- The platform address of a register (20_memory.md R68): HC_BASE, 256-byte aligned, plus the offset. -/
def registerAddress (s : State) (offset : BitVec 8) : Word := s.platform.hcBase ++ offset

/-- The offset of a platform address inside the window, none outside it (20_memory.md R68). -/
def windowOffset (s : State) (a : Word) : Option (BitVec 8) :=
  if a.extractLsb' 8 24 = s.platform.hcBase then some (a.extractLsb' 0 8) else none

/-- The moments after a change of the memory: a running pass remembers the memory before it (log 6). -/
def pastChange (s : State) : List Moment :=
  match s.phase with
  | .idle => s.past
  | .held => s.past
  | .scan _ => s.past ++ [.change s.mem]
  | .hash _ => s.past ++ [.change s.mem]

/-- A write of bytes to the platform memory by the host or another agent (30_encoding.md R89; log 4). While BUSY = 1 the
written addresses are remembered for 70_reset_and_hazards.md R240 (log 6). -/
def writeMem (s : State) (a : Nat) (bytes : List Byte) : State :=
  { s with
    mem := s.mem.writeAll a bytes
    dirty := if s.busy then s.dirty ++ (List.range bytes.length).map (a + ·) else s.dirty
    past := s.pastChange }

/-- The platform makes one address answer BusError from here on (20_memory.md R60; log 4). -/
def faultMem (s : State) (a : Word) : State := { s with mem := s.mem.erase a.toNat, past := s.pastChange }

/-- One POLL read (30_encoding.md R89): the read takes place, and POLL stays the host's next event until the read
satisfies its test (log 20). `rest` are the events after it. -/
def hostPoll (s : State) (offset : BitVec 8) (mask value : Word) (rest : List HostOp) : State :=
  let s1 := s.hostRead .w32 offset
  match s1.response with
  | .data v => if v &&& mask = value then { s1 with script := rest } else s1
  | .none => s1
  | .ack => s1
  | .busError => s1

/-- One host event (00_scope.md R16, 30_encoding.md R89). A host with nothing to do takes no step. -/
def hostStep (s : State) : Host.Outcome State Fault Refusal :=
  match s.script with
  | [] => .next s
  | .write w offset v :: rest => .next { s.hostWrite w offset v with script := rest }
  | .read w offset :: rest => .next { s.hostRead w offset with script := rest }
  | .poll offset mask value :: rest => .next (s.hostPoll offset mask value rest)
  | .memb a bytes :: rest =>
    if a.toNat + bytes.length ≤ addressSpace then .next { s.writeMem a.toNat bytes with script := rest }
    else .fault .memoryAddress
  | .busFault a :: rest => .next { s.faultMem a with script := rest }
  | .assertReset :: rest => .next { s with resetLine := true, script := rest }

end State

/-- `WR <REG>, <imm32>` by offset (30_encoding.md R89). -/
def wr (offset : BitVec 8) (v : Word) : HostOp := .write .w32 offset v

/-- `WR CMD, <mnemonic>` (30_encoding.md R89). -/
def wrCmd (i : Instr) : HostOp := wr 0x10#8 (encode i)

/-- `HASHRUN <mnem>, <addr>, <len>, <seed64>` (30_encoding.md R90). -/
def hashrun (i : Instr) (addr len : Word) (seed : DWord) : List HostOp :=
  [wr 0x18#8 addr, wr 0x1C#8 len, wr 0x20#8 (seed.extractLsb' 0 32), wr 0x24#8 (seed.extractLsb' 32 32), wrCmd i,
    .poll 0x14#8 1#32 0#32]

/-- The same command with DSEED = 1, the suffix `.D` (30_encoding.md R88). -/
def withDefaultSeed (i : Instr) : Instr := instrOf i.alg i.shape true

/-- `HASHRUN.D <mnem>, <addr>, <len>` (30_encoding.md R90). -/
def hashrunD (i : Instr) (addr len : Word) : List HostOp :=
  [wr 0x18#8 addr, wr 0x1C#8 len, wrCmd (withDefaultSeed i), .poll 0x14#8 1#32 0#32]

/-- `CLRST` (30_encoding.md R90). -/
def clrst : HostOp := wr 0x14#8 0x00000016#32

/-- `SRST` (30_encoding.md R90). -/
def srst : HostOp := wr 0x0C#8 0x00000002#32

end Sys2Proof.Machine
end

