-- ==== Sys2Proof/Machine/Agents.lean ====
section
/-! DEFINITION. The event of each agent of 00_scope.md R16 and the choice of the agent whose turn it is
(60_exceptions.md R206). -/

namespace Sys2Proof.Machine

namespace State

/-- The state with its schedule and its count of free choices replaced. -/
def withSchedule (s : State) (l : List Config.Turn) (n : Nat) : State := { s with sched := l, turns := n }

/-- Whose turn it is, and the state with that turn taken off: the next of `sched`, or a free choice (log 2). -/
def nextTurn (s : State) : Config.Turn × State :=
  match s.sched with
  | t :: rest => (t, s.withSchedule rest s.turns)
  | [] => (Config.freeTurn s.turns, s.withSchedule [] (s.turns + 1))

/-- The turn `command` (10_state.md R42; log 1): from HELD the latched word is decoded and its command runs to the
completion in one event, or ends in ILLEGAL (40_command.md R108). In any other phase it is one engine step. -/
def commandStep (s : State) : Host.Outcome State Fault Refusal :=
  match s.phase with
  | .held =>
    match decode s.lat.word with
    | .ok i => exec i s
    | .reject _ => .next (s.cmdError .illegal 0#32)
  | .idle => .next s.engineStep
  | .scan _ => .next s.engineStep
  | .hash _ => .next s.engineStep

/-- The event of one agent (00_scope.md R16). -/
def agentStep (t : Config.Turn) (s : State) : Host.Outcome State Fault Refusal :=
  match t with
  | .host => s.hostStep
  | .engine => .next s.engineStep
  | .tableGen => .next s.tableStep
  | .command => s.commandStep

end State

end Sys2Proof.Machine
end

