-- ==== Sys2Proof/Machine/Step.lean ====
section
/-! DEFINITION. One atomic event of the machine (60_exceptions.md R206): the hardware reset if its input is asserted,
otherwise the event of the agent whose turn it is. -/

namespace Sys2Proof.Machine

/-- One event. "A hardware reset takes precedence over every other event" (60_exceptions.md R206). -/
def step (s : State) : Host.Outcome State Fault Refusal :=
  if s.resetLine then .next s.hardReset else State.agentStep s.nextTurn.1 s.nextTurn.2

/-- `s` with the word of `nbits` bits accepted as a command and the turn given to its run (log 11): the command's
acceptance (40_command.md R100) latches the operand registers of `s`, and the reset input is not asserted, so that the very
next step runs exactly that command. -/
def State.withFetchWord (s : State) (nbits w : Nat) : State :=
  { s.accept (BitVec.ofNat 32 (w % 2 ^ nbits)) with resetLine := false, sched := .command :: s.sched }

end Sys2Proof.Machine
end

