-- ==== Sys2Proof/Safety.lean ====
section
/-! DEFINITION. The terms claims use: when an input is in memory and steady, what a command computes, and the invariant
every step keeps. -/

namespace Sys2Proof.Machine

/-- A step went on: no fault and no refusal. -/
def GoesOn (o : Host.Outcome State Fault Refusal) : Prop := ∃ t, o = .next t

/-- The memory answers the bytes `b` at ascending addresses from `a`. -/
def HoldsAt (m : Memory) (a : Nat) (b : List Byte) : Prop := ∀ (k : Nat) (h : k < b.length), m.read (a + k) = some b[k]

/-- The premise of 70_reset_and_hazards.md R240 and 20_memory.md R63 on the addresses `[lo, hi)`: none was written since
the command's acceptance, and none has a read side effect. -/
def Steady (s : State) (lo hi : Nat) : Prop :=
  (∀ a, lo ≤ a → a < hi → a ∉ s.dirty) ∧ s.sideEffectIn lo hi = false

/-- The latched operands name the span `b` (40_command.md R104): its bytes are in memory, inside the address space, and
steady. -/
def SpanInput (s : State) (b : List Byte) : Prop :=
  s.lat.len.toNat = b.length ∧ s.lat.src.toNat + b.length ≤ addressSpace ∧ HoldsAt s.mem s.lat.src.toNat b ∧
    Steady s s.lat.src.toNat (s.lat.src.toNat + b.length)

/-- The latched operands name the null-terminated text `b` (40_command.md R105): no zero byte in it, a zero byte after it
below the limit and inside the address space, all in memory and steady. -/
def TextInput (s : State) (b : List Byte) : Prop :=
  (∀ v ∈ b, v ≠ 0#8) ∧ b.length < s.lat.len.toNat ∧ s.lat.src.toNat + b.length < addressSpace ∧
    HoldsAt s.mem s.lat.src.toNat (b ++ [0#8]) ∧ Steady s s.lat.src.toNat (s.lat.src.toNat + b.length + 1)

/-- The state in which the engine of a command runs: a CRC32 command has waited for the table (40_command.md R102). -/
def State.started (s : State) (a : Alg) : State :=
  match a with
  | .crc32 => s.awaitTable
  | .djb2 => s
  | .djb2a => s
  | .fnv1a => s
  | .fnv1a64 => s
  | .murmur2 => s
  | .murmur2a => s
  | .murmur2_64 => s
  | .murmur3 => s

/-- How many entries of T the generator has written (10_state.md R43). -/
def TGen.filled : TGen → Nat
  | .fill n => n.val
  | .ready => 256
  | .absent => 0

/-- The CRC table and its generator are consistent (10_state.md R41, R43): 256 entries, ABSENT exactly in a build without
the table, and every entry written so far the one of 41_crc32.md R130. -/
structure TableSound (s : State) : Prop where
  entries : s.table.length = 256
  absent : s.tgen = .absent ↔ s.build.crcTableEn = false
  written : ∀ n, n < s.tgen.filled → s.table[n]? = some (crcEntry s.build.crcPoly n)

/-- The invariant of the machine: what every reachable state satisfies, and every step keeps. -/
structure Inv (s : State) : Prop where
  /-- The memory list is canonical. -/
  memory : s.mem.wf
  /-- The CRC table is sound. -/
  table : TableSound s
  /-- STATUS.ERR = 1 exactly when an error code is recorded (10_state.md R28). -/
  errCode : s.err = true ↔ s.errcode ≠ .none
  /-- "DONE and ERR are already 0" while BUSY = 1 (40_command.md R109). -/
  busyClean : s.busy = true → s.done = false ∧ s.err = false
  /-- A running pass carries the command of the latched word. -/
  decoded : ∀ i, s.phase = .scan i ∨ s.phase = .hash i → decode s.lat.word = .ok i
  /-- Only a MurMur-family TEXT command scans (40_command.md R102). -/
  scanTwoPass : ∀ i, s.phase = .scan i → twoPass i = true
  /-- A CRC32 command hashes only once the table is ready (40_command.md R102). -/
  hashReady : ∀ i, s.phase = .hash i → s.holds i = false
  /-- Outside a pass the working registers are clear (log 8). -/
  clear : s.phase = .idle ∨ s.phase = .held → s.cursor = 0 ∧ s.acc = 0#64 ∧ s.tail = [] ∧ s.len = 0
  /-- No write is remembered for a command when there is none (log 6). -/
  idleSteady : s.phase = .idle → s.dirty = []
  /-- Outside a pass no read has taken place (log 6). -/
  freshStart : s.phase = .idle ∨ s.phase = .held → s.past = []
  /-- The cursor of a scan stays below the limit and never wraps (10_state.md R21). -/
  scanCursor : ∀ i, s.phase = .scan i →
    s.cursor ≤ s.lat.len.toNat ∧ s.lat.src.toNat + s.cursor ≤ addressSpace ∧ s.tail = []
  /-- The cursor of a hash pass stays below its length, which is at most the latched one, and never wraps (10_state.md
  R21). -/
  hashCursor : ∀ i, s.phase = .hash i →
    s.cursor ≤ s.len ∧ s.len ≤ s.lat.len.toNat ∧ s.lat.src.toNat + s.cursor ≤ addressSpace
  /-- The one pass of a TEXT command has the latched limit as its length until it has read the terminator, and then the
  measured length (40_command.md R105). -/
  onePassLength : ∀ i, s.phase = .hash i → onePassText i = true → s.len = s.lat.len.toNat ∨ s.len = s.cursor
  /-- The tail holds the bytes that do not fill a word (00_scope.md R14). -/
  tailLength : ∀ i, s.phase = .hash i → s.tail.length = s.cursor % Alg.wordSize i.alg

end Sys2Proof.Machine
end

