-- ==== Sys2Proof/Certificates/Slice0/Obligations.lean ====
section
/-! DEFINITION. The statements for the provers. Each says which rule of spec/ it formalises. Names under `Claims` are
this file's own: the spec's tables and formulas written a second time, apart from the model's. -/

open Sys2Proof Sys2Proof.Machine

namespace Sys2Proof.Claims

/-- The column `match` of 30_encoding.md R86. -/
def matchWord : Instr → Word
  | .crc32Span _ => 0x00000000#32
  | .crc32Text _ => 0x00000010#32
  | .djb2Span _ => 0x00000001#32
  | .djb2Text _ => 0x00000011#32
  | .djb2aSpan _ => 0x00000002#32
  | .djb2aText _ => 0x00000012#32
  | .fnv1aSpan _ => 0x00000003#32
  | .fnv1aText _ => 0x00000013#32
  | .fnv1a64Span _ => 0x00000004#32
  | .fnv1a64Text _ => 0x00000014#32
  | .murmur2Span _ => 0x00000005#32
  | .murmur2Text _ => 0x00000015#32
  | .murmur2aSpan _ => 0x00000006#32
  | .murmur2aText _ => 0x00000016#32
  | .murmur2_64Span _ => 0x00000007#32
  | .murmur2_64Text _ => 0x00000017#32
  | .murmur3Span _ => 0x00000008#32
  | .murmur3Text _ => 0x00000018#32

/-- A word is illegal (30_encoding.md R84): a reserved ALG code, or a reserved bit set. -/
def Illegal (w : Word) : Prop := 8 < (w.extractLsb' 0 4).toNat ∨ w.extractLsb' 6 26 ≠ 0#26

/-- The unsigned number whose little-endian bytes are `t` (20_memory.md R64), in 32 bits. -/
def leWord (t : List Byte) : Word := t.foldr (fun b k => (k <<< 8) ||| b.setWidth 32) 0#32

/-- The unsigned number whose little-endian bytes are `t` (20_memory.md R64), in 64 bits. -/
def leDWord (t : List Byte) : DWord := t.foldr (fun b k => (k <<< 8) ||| b.setWidth 64) 0#64

/-- The four bytes of a word, lowest first. -/
def bytesOf32 (w : Word) : List Byte :=
  [w.extractLsb' 0 8, w.extractLsb' 8 8, w.extractLsb' 16 8, w.extractLsb' 24 8]

/-- The eight bytes of a double word, lowest first. -/
def bytesOf64 (w : DWord) : List Byte :=
  [w.extractLsb' 0 8, w.extractLsb' 8 8, w.extractLsb' 16 8, w.extractLsb' 24 8, w.extractLsb' 32 8,
    w.extractLsb' 40 8, w.extractLsb' 48 8, w.extractLsb' 56 8]

/-- The seed of a 32-bit algorithm (40_command.md R103). -/
def seedOf32 (s : State) (dseed : Bool) (default : Word) : Word := if dseed then default else s.lat.seed.extractLsb' 0 32

/-- The seed of a 64-bit algorithm (40_command.md R103). -/
def seedOf64 (s : State) (dseed : Bool) (default : DWord) : DWord := if dseed then default else s.lat.seed

/-- `mmix(h, k)` with the word scramble of 44_murmur2.md R170. -/
def mixWord (m h k : Word) : Word := (h * m) ^^^ ((k * m ^^^ ((k * m) >>> 24)) * m)

/-- The finalization `fin2(h)` of 44_murmur2.md R170. -/
def finishMurmur2 (m h : Word) : Word := ((h ^^^ (h >>> 13)) * m) ^^^ (((h ^^^ (h >>> 13)) * m) >>> 15)

/-- One word of 44_murmur2.md R173: the scramble with shift 47, then the fold MM64_FOLD names. -/
def mixDWord (fold : Config.Mm64Fold) (m h w : DWord) : DWord :=
  let k := (w * m ^^^ ((w * m) >>> 47)) * m
  match fold with
  | .xorThenMul => (h ^^^ k) * m
  | .mulThenXor => (h * m) ^^^ k

/-- The finalization of 44_murmur2.md R173: xor-shift 47, multiply, xor-shift 47. -/
def finishMurmur64 (m h : DWord) : DWord := ((h ^^^ (h >>> 47)) * m) ^^^ (((h ^^^ (h >>> 47)) * m) >>> 47)

/-- The finalization of 45_murmur3.md R190 on the state `x` that the length is XORed into: xor-shifts 16, 13 and 16 with the
multiplications by F1 and F2 between. -/
def finishMurmur3 (f1 f2 x : Word) : Word :=
  let y := (x ^^^ (x >>> 16)) * f1
  let z := (y ^^^ (y >>> 13)) * f2
  z ^^^ (z >>> 16)

/-- MURMUR2A's PER_BYTE tail of 0 to 3 bytes, byte by byte from the highest offset down (44_murmur2.md R172). -/
def perByteTail (m h : Word) : List Byte → Word
  | [] => h
  | [x] => mixWord m h (x.setWidth 32)
  | [x, y] => mixWord m (mixWord m h (y.setWidth 32 <<< 8)) (x.setWidth 32)
  | x :: y :: z :: _ => mixWord m (mixWord m (mixWord m h (z.setWidth 32 <<< 16)) (y.setWidth 32 <<< 8)) (x.setWidth 32)

/-- A command completes on an input: in SPAN shape on the span, and in TEXT shape on the terminated text, with the result
`h` and the byte count as COUNT (40_command.md R107, R111); `f` is what a CRC32 command first waits for. -/
def Completes (span text : Instr) (s t : State) (b : List Byte) (h : Digest) : Prop :=
  (SpanInput s b → exec span s = .next (t.complete h b.length)) ∧
    (TextInput s b → exec text s = .next (t.complete h b.length))

/-- `n` host turns in a row, each going on. -/
def hostRun : Nat → State → Option State
  | 0, s => some s
  | n + 1, s =>
    match s.hostStep with
    | .next t => hostRun n t
    | .fault _ => none
    | .refused _ => none

/-- `n` free bytes from the `d`-th on. -/
def freeBytes (d n : Nat) : List Byte := (List.range n).map fun k => Config.freeByte (d + k)

/-- The address is in the input range of the latched operands (70_reset_and_hazards.md R240). -/
def InRange (s : State) (a : Nat) : Prop := s.lat.src.toNat ≤ a ∧ a < s.lat.src.toNat + s.lat.len.toNat

/-- The MurMur family, whose TEXT commands make two passes (40_command.md R106). -/
def murmurs : List Alg := [Alg.murmur2, Alg.murmur2a, Alg.murmur2_64, Alg.murmur3]

/-- One engine read of a memory with no past: free when the command is unsteady or the address was written since
acceptance, the byte itself when neither holds, BusError in any case where the address answers it. -/
def FreshReads : Prop :=
  ∀ (s : State) (a : Nat) (v : Byte) (u : Bool), s.past = [] →
    (s.mem.read a = some v → (u = true ∨ a ∈ s.dirty) →
      s.memRead a u = (.byte (Config.freeByte s.draws), { s with draws := s.draws + 1 })) ∧
      (s.mem.read a = some v → a ∉ s.dirty → s.memRead a false = (.byte v, s)) ∧
      (s.mem.read a = none → s.memRead a u = (.busError, s))

/-- A read that has taken place, `ms` being the memories the platform has changed before it: it is free or the byte it was
answered, whatever its address answers now, and it is none of the reads that follow (20_memory.md R62). -/
def PastReadsStand : Prop :=
  ∀ (s : State) (ms : List Memory) (l : List Moment) (a : Nat) (v : Byte) (u : Bool),
    s.past = ms.map .change ++ .read v :: l →
    ((u = true ∨ a ∈ s.dirty) →
      s.memRead a u = (.byte (Config.freeByte s.draws), { s with past := l, draws := s.draws + 1 })) ∧
      (a ∉ s.dirty → s.memRead a false = (.byte v, { s with past := l }))

/-- A read still to come, `ms` being the memories the platform has changed since the last read: it takes place at a free
instant, before the first of those changes, between two of them or now, and the next read at no earlier one. -/
def ReadsToComeChooseTheirInstant : Prop :=
  ∀ (s : State) (ms : List Memory) (a : Nat) (v : Byte) (u : Bool), ms ≠ [] → s.past = ms.map .change →
    let k := Config.freeInstant s.draws % (ms.length + 1)
    let s1 := { s with past := (ms.drop k).map .change, draws := s.draws + 1 }
    let m := (ms ++ [s.mem]).getD k []
    (m.read a = none → s.memRead a u = (.busError, s1)) ∧
      (m.read a = some v → a ∉ s.dirty → s.memRead a false = (.byte v, s1)) ∧
      (m.read a = some v → (u = true ∨ a ∈ s.dirty) →
        s.memRead a u = (.byte (Config.freeByte s1.draws), { s1 with draws := s1.draws + 1 }))

/-- The memories that the platform has changed, among the moments. -/
def memories (l : List Moment) : List Memory :=
  l.filterMap fun e => match e with
    | .read _ => none
    | .change m => some m

/-- A scan's read of `v`: it follows the reads that have taken place as long as the same bytes end the text, and where
another byte does, the reads after it were none of this scan's. -/
def ScansFollowTheirReads : Prop :=
  ∀ (s s1 : State) (ms : List Memory) (a : Nat) (v : Byte) (u : Bool), s.memRead a u = (.byte v, s1) →
    (s.past = ms.map .change → s.scanRead a u = (.byte v, s1)) ∧
      ∀ (w : Byte) (l : List Moment), s.past = ms.map .change ++ .read w :: l →
        ((v = 0#8 ↔ w = 0#8) → s.scanRead a u = (.byte v, s1)) ∧
          (¬(v = 0#8 ↔ w = 0#8) → s.scanRead a u = (.byte v, { s1 with past := (memories l).map .change }))

/-- What is remembered: a memory write marks its addresses exactly while BUSY = 1, a running pass keeps each memory that the
platform changes and each byte it reads, and acceptance leaves nothing. -/
def ThePastIsRemembered : Prop :=
  (∀ (s : State) (x : Nat) (b : List Byte) (a w : Word),
    (s.busy = true → (s.writeMem x b).dirty = s.dirty ++ (List.range b.length).map (x + ·)) ∧
      (s.busy = false → (s.writeMem x b).dirty = s.dirty) ∧ (s.accept w).dirty = [] ∧ (s.accept w).past = [] ∧
      (∀ i, s.phase = .scan i ∨ s.phase = .hash i →
        (s.writeMem x b).past = s.past ++ [.change s.mem] ∧ (s.faultMem a).past = s.past ++ [.change s.mem])) ∧
    ∀ (s : State) (i : Instr) (v : Byte), (∀ a ∈ s.dirty, ¬InRange s a) →
      s.lat.src.toNat + s.cursor < 4294967296 → s.cursor < s.lat.len.toNat →
      s.sideEffectIn (s.lat.src.toNat + s.cursor) (s.lat.src.toNat + s.cursor + 1) = false →
      s.mem.read (s.lat.src.toNat + s.cursor) = some v → (v ≠ 0#8 ∨ s.phase = .hash i ∧ i.shape = .span) →
      (s.phase = .scan i ∨ s.phase = .hash i ∧
        s.cursor < s.len ∧ (i.shape = .text ∧ i.alg ∉ murmurs ∨ s.lat.src.toNat + s.len ≤ 4294967296)) →
      s.engineStep.past = s.past ++ [.read v] ∧ s.engineStep.cursor = s.cursor + 1 ∧ s.engineStep.phase = s.phase

/-- A pass whose input range has been written since acceptance, before or after the reads: the engine's next step ends the
command by 40_command.md R104 to R107 on the bytes that its reads then give, those that have taken place and those to
come. The side effects of 20_memory.md R63 aside, `replay` is that end. -/
def WrittenReadsAreRedrawn : Prop :=
  (∀ (s : State) (i : Instr) (y : Nat), s.phase = .scan i ∨ s.phase = .hash i → y ∈ s.dirty → InRange s y →
    s.engineStep = s.replay i ∧ s.commandStep = .next (s.replay i)) ∧
    ∀ (i : Instr) (s : State), s.sideEffectIn s.lat.src.toNat (s.lat.src.toNat + s.lat.len.toNat) = false →
      let f := s.digest i.alg i.dseed
      let scan := scanText false s.lat.src s.lat.len.toNat 0 s
      (i.shape = .span → s.replay i = finishCommand f (gatherSpan false s s.lat.len.toNat)) ∧
        (i.shape = .text → i.alg ∉ murmurs → s.replay i = finishCommand f scan) ∧
        (i.shape = .text → i.alg ∈ murmurs →
          s.replay i = match scan.1 with
            | .bytes c => finishCommand f (gatherSpan false scan.2 c.length)
            | .error c a => scan.2.cmdError c a)

/-- A command whose next read, after the steady bytes `b`, is of a location with side effects runs on free bytes from the
first on, in each shape. -/
def SideEffectsFreeTheCommand : Prop :=
  ∀ (i : Instr) (s : State) (b : List Byte), HoldsAt s.mem s.lat.src.toNat b →
    Steady s s.lat.src.toNat (s.lat.src.toNat + b.length) → b.length < s.lat.len.toNat →
    s.lat.src.toNat + b.length < 4294967296 →
    s.sideEffectIn (s.lat.src.toNat + b.length) (s.lat.src.toNat + b.length + 1) = true →
    (i.shape = .span → s.lat.src.toNat + s.lat.len.toNat ≤ 4294967296 →
      exec i s = .next ({ s.started i.alg with past := [] }.replayFree i)) ∧
      (i.shape = .text → (∀ v ∈ b, v ≠ 0#8) → exec i s = .next ({ s.started i.alg with past := [] }.replayFree i))

/-- The engine byte by byte, where its next read is of a location with side effects: in a scan, in the one pass of a TEXT
and in a span. The reads that have taken place stand. -/
def SideEffectsFreeTheEngine : Prop :=
  ∀ (i : Instr) (s : State), (∀ a ∈ s.dirty, ¬InRange s a) → s.lat.src.toNat + s.cursor < 4294967296 →
    s.sideEffectIn (s.lat.src.toNat + s.cursor) (s.lat.src.toNat + s.cursor + 1) = true →
    (s.phase = .scan i → s.cursor < s.lat.len.toNat → s.engineStep = s.replayFree i) ∧
      (s.phase = .hash i → i.shape = .text → i.alg ∉ murmurs → s.cursor < s.lat.len.toNat → s.cursor < s.len →
        s.engineStep = s.replayFree i) ∧
      (s.phase = .hash i → i.shape = .span → s.cursor < s.len → s.lat.src.toNat + s.len ≤ 4294967296 →
        s.engineStep = s.replayFree i)

/-- What a run on free bytes reads: in a span a free byte at each read that has taken place (`b`) and at each address after
them that answers one (`c`); in a scan a free byte at each address that answers one, the first zero among them ending the
text; in a measured TEXT both passes. -/
def FreeRunsDrawEveryByte : Prop :=
  (∀ (s : State) (b c : List Byte), s.past = b.map .read → HoldsAt s.mem (s.lat.src.toNat + b.length) c →
    s.lat.src.toNat + (b.length + c.length) ≤ 4294967296 →
    gatherSpan true s (b.length + c.length) =
      (.bytes (freeBytes s.draws (b.length + c.length)),
        { s with past := [], draws := s.draws + (b.length + c.length) })) ∧
    (∀ (s : State) (k j : Nat) (v : Byte), s.past = [] → s.mem.read (s.lat.src.toNat + j) = some v →
      s.lat.src.toNat + j < 4294967296 →
      scanText true s.lat.src (k + 1) j s =
        (let s1 := s.withDraws (s.draws + 1)
        if Config.freeByte s.draws = 0#8 then (.bytes [], s1)
        else ((scanText true s.lat.src k (j + 1) s1).1.cons (Config.freeByte s.draws),
          (scanText true s.lat.src k (j + 1) s1).2))) ∧
    ∀ (i : Instr) (s : State),
      let f := s.digest i.alg i.dseed
      let scan := scanText true s.lat.src s.lat.len.toNat 0 s
      (i.shape = .span → s.replayFree i = finishCommand f (gatherSpan true s s.lat.len.toNat)) ∧
        (i.shape = .text → i.alg ∉ murmurs → s.replayFree i = finishCommand f scan) ∧
        (i.shape = .text → i.alg ∈ murmurs →
          s.replayFree i = match scan.1 with
            | .bytes c => finishCommand f (gatherSpan true scan.2 c.length)
            | .error c a => scan.2.cmdError c a)

end Sys2Proof.Claims

open Sys2Proof.Claims

/-! Encoding and decoding -/

/-- 30_encoding.md R86: the opcode map's mask, match column and free DSEED bit decide every word, and a word no row takes
is illegal by R84. -/
def Obligations.OpcodeMapDecidesEveryWord : Prop :=
  (∀ (w : Word) (i : Instr), decode w = .ok i ↔ w &&& 0xFFFFFFDF#32 = matchWord i ∧ w.getLsbD 5 = i.dseed) ∧
    (∀ w : Word, (∃ r, decode w = .reject r) ↔ Illegal w)

/-- 30_encoding.md R80, R86, R88: decoding inverts encoding, and no other word decodes to the command. -/
def Obligations.DecodeInvertsEncode : Prop :=
  ∀ i : Instr, i.wellFormed = true → ∀ w : Word, decode w = .ok i ↔ w = encode i

/-- Words written out from 30_encoding.md R86 and 95_test_vectors.md 3.7, one of each family and the illegal ones. -/
def Obligations.SpecWordsDecode : Prop :=
  decode 0x00000000#32 = .ok (.crc32Span false) ∧ decode 0x00000020#32 = .ok (.crc32Span true) ∧
    decode 0x00000011#32 = .ok (.djb2Text false) ∧ decode 0x00000022#32 = .ok (.djb2aSpan true) ∧
    decode 0x00000024#32 = .ok (.fnv1a64Span true) ∧ decode 0x00000016#32 = .ok (.murmur2aText false) ∧
    decode 0x00000017#32 = .ok (.murmur2_64Text false) ∧ decode 0x00000038#32 = .ok (.murmur3Text true) ∧
    decode 0x00000009#32 = .reject .reservedAlg ∧ decode 0x0000003F#32 = .reject .reservedAlg ∧
    decode 0x00000040#32 = .reject .reservedBits ∧ decode 0x80000005#32 = .reject .reservedBits

/-! A step runs the latched command -/

/-- 40_command.md R102 and 10_state.md R42: when the word latched for the engine decodes to `i` and the turn is the
command's run, the step is `exec i`; the step adds only that the turn is taken off the schedule. -/
def Obligations.StepRunsTheLatchedCommand : Prop :=
  ∀ (s : State) (i : Instr) (rest : List Config.Turn), s.resetLine = false → s.sched = .command :: rest →
    s.phase = .held → decode s.lat.word = .ok i → step s = exec i (s.withSchedule rest s.turns)

/-- The host's placing of a word (log 11): the very next step is `exec` of the command it decodes to, on the operand
registers latched by 40_command.md R100. -/
def Obligations.FetchedWordRunsNext : Prop :=
  ∀ (s : State) (nbits w : Nat) (i : Instr), decodeTableWord nbits w = some i →
    step (s.withFetchWord nbits w) = exec i { s.accept (encode i) with resetLine := false }

/-- 40_command.md R108: an illegal word is accepted, and its first engine step is the ILLEGAL error completion, whatever
memory holds and whatever the table generator's state is; so is its run in one event. -/
def Obligations.IllegalWordEndsInIllegal : Prop :=
  ∀ (s : State) (w : Word), Illegal w → s.busy = false →
    s.writeReg 0x10#8 w = s.accept w ∧ (s.accept w).busy = true ∧
      (s.accept w).engineStep = (s.accept w).cmdError .illegal 0x00000000#32 ∧
      (s.accept w).commandStep = .next ((s.accept w).cmdError .illegal 0x00000000#32)

/-- 60_exceptions.md R205: every command answers a next state, in which it has ended in exactly one completion. -/
def Obligations.EveryCommandEndsInOneCompletion : Prop :=
  ∀ (i : Instr) (s : State), ∃ t, exec i s = .next t ∧ t.busy = false ∧ t.phase = .idle ∧ t.done = true ∧
    ((t.err = false ∧ t.errcode = .none) ∨ (t.err = true ∧ t.errcode ≠ .none))

/-! What each family computes -/

/-- 41_crc32.md R130, R132, R133: HASH.CRC32.SPAN and HASH.CRC32.TEXT complete with the bitwise CRC of the input, with or
without the table; a command that finds the table unfinished completes after the generator has finished. -/
def Obligations.Crc32CommandsComplete : Prop :=
  ∀ (d : Bool) (s : State) (b : List Byte), TableSound s →
    Completes (.crc32Span d) (.crc32Text d) s s.awaitTable b
      (.w32 (~~~(b.foldl (fun c v => crcStep8 s.build.crcPoly (c ^^^ v.setWidth 32))
        (~~~(seedOf32 s d s.build.crcDefaultSeed)))))

/-- 42_djb.md R150, R151: the four DJB commands complete with their fold of the input. -/
def Obligations.DjbCommandsComplete : Prop :=
  ∀ (d : Bool) (s : State) (b : List Byte),
    Completes (.djb2Span d) (.djb2Text d) s s b
        (.w32 (b.foldl (fun h v => h + (h <<< 5) + v.setWidth 32) (seedOf32 s d s.build.djbBasis))) ∧
      Completes (.djb2aSpan d) (.djb2aText d) s s b
        (.w32 (b.foldl (fun h v => (h + (h <<< 5)) ^^^ v.setWidth 32) (seedOf32 s d s.build.djbBasis)))

/-- 43_fnv.md R160, R161: the four FNV commands complete with their fold of the input. -/
def Obligations.FnvCommandsComplete : Prop :=
  ∀ (d : Bool) (s : State) (b : List Byte),
    Completes (.fnv1aSpan d) (.fnv1aText d) s s b
        (.w32 (b.foldl (fun h v => (h ^^^ v.setWidth 32) * s.build.fnv32Prime) (seedOf32 s d s.build.fnv32Basis))) ∧
      Completes (.fnv1a64Span d) (.fnv1a64Text d) s s b
        (.w64 (b.foldl (fun h v => (h ^^^ v.setWidth 64) * s.build.fnv64Prime) (seedOf64 s d s.build.fnv64Basis)))

/-- 44_murmur2.md R171: on an input of whole words `ws` and a tail `t` of 0 to 3 bytes, HASH.MURMUR2.SPAN and
HASH.MURMUR2.TEXT complete with the mix of the words, the tail at its little-endian positions with one multiply (none for
no tail), and the finalization. -/
def Obligations.Murmur2CommandsComplete : Prop :=
  ∀ (d : Bool) (s : State) (ws : List Word) (t : List Byte), t.length ≤ 3 →
    let m := s.build.mm2M
    let b := ws.flatMap bytesOf32 ++ t
    let h := ws.foldl (mixWord m) (seedOf32 s d s.build.mmDefaultSeed ^^^ BitVec.ofNat 32 b.length)
    Completes (.murmur2Span d) (.murmur2Text d) s s b
      (.w32 (finishMurmur2 m (if t = [] then h else (h ^^^ leWord t) * m)))

/-- 44_murmur2.md R172: HASH.MURMUR2A.SPAN and HASH.MURMUR2A.TEXT, for both values of MM2A_TAIL; the length is mixed as a
final word before the finalization. -/
def Obligations.Murmur2aCommandsComplete : Prop :=
  ∀ (d : Bool) (s : State) (ws : List Word) (t : List Byte), t.length ≤ 3 →
    let m := s.build.mm2M
    let b := ws.flatMap bytesOf32 ++ t
    let h := ws.foldl (mixWord m) (seedOf32 s d s.build.mmDefaultSeed)
    let h1 := match s.build.mm2aTail with
      | .perByte => perByteTail m h t
      | .combined => mixWord m h (leWord t)
    Completes (.murmur2aSpan d) (.murmur2aText d) s s b (.w32 (finishMurmur2 m (mixWord m h1 (BitVec.ofNat 32 b.length))))

/-- 44_murmur2.md R173: HASH.MURMUR2_64.SPAN and HASH.MURMUR2_64.TEXT on whole 8-byte words and a tail of 0 to 7 bytes, for
both values of MM64_FOLD. -/
def Obligations.Murmur64CommandsComplete : Prop :=
  ∀ (d : Bool) (s : State) (ws : List DWord) (t : List Byte), t.length ≤ 7 →
    let m := s.build.mm64M
    let b := ws.flatMap bytesOf64 ++ t
    let h := ws.foldl (mixDWord s.build.mm64Fold m)
      (seedOf64 s d (s.build.mmDefaultSeed.setWidth 64) ^^^ (BitVec.ofNat 64 b.length * m))
    Completes (.murmur2_64Span d) (.murmur2_64Text d) s s b
      (.w64 (finishMurmur64 m (if t = [] then h else (h ^^^ leDWord t) * m)))

/-- 45_murmur3.md R190: HASH.MURMUR3.SPAN and HASH.MURMUR3.TEXT on whole words and a tail of 0 to 3 bytes, written with
Lean's own rotation. -/
def Obligations.Murmur3CommandsComplete : Prop :=
  ∀ (d : Bool) (s : State) (ws : List Word) (t : List Byte), t.length ≤ 3 →
    let c := s.build
    let b := ws.flatMap bytesOf32 ++ t
    let scramble := fun k : Word => (k * c.mm3C1).rotateLeft 15 * c.mm3C2
    let h := ws.foldl (fun h k => (h ^^^ scramble k).rotateLeft 13 * 5#32 + c.mm3C3) (seedOf32 s d c.mmDefaultSeed)
    let h1 := if t = [] then h else h ^^^ scramble (leWord t)
    Completes (.murmur3Span d) (.murmur3Text d) s s b (.w32 (finishMurmur3 c.mm3F1 c.mm3F2 (h1 ^^^ BitVec.ofNat 32 b.length)))

/-! Errors and corners -/

/-- 40_command.md R104: a SPAN past the top of the address space ends in RANGE with the latched SRC_ADDR, before any read
(no free byte is drawn), for each of the nine algorithms. -/
def Obligations.SpanPastTheTopEndsInRange : Prop :=
  ∀ (i : Instr) (s : State), i.shape = .span → 0 < s.lat.len.toNat →
    s.lat.src.toNat + s.lat.len.toNat > 4294967296 →
    exec i s = .next ((s.started i.alg).cmdError .range s.lat.src)

/-- 40_command.md R104, 60_exceptions.md R205: a SPAN whose first `b` bytes are read and whose next address answers BusError
ends in BUS at that address, the lowest failing one. -/
def Obligations.SpanEndsInBusAtTheLowestFailingAddress : Prop :=
  ∀ (i : Instr) (s : State) (b : List Byte), i.shape = .span → b.length < s.lat.len.toNat →
    s.lat.src.toNat + s.lat.len.toNat ≤ 4294967296 → HoldsAt s.mem s.lat.src.toNat b →
    Steady s s.lat.src.toNat (s.lat.src.toNat + s.lat.len.toNat) →
    s.mem.read (s.lat.src.toNat + b.length) = none →
    exec i s = .next ((s.started i.alg).cmdError .bus (BitVec.ofNat 32 (s.lat.src.toNat + b.length)))

/-- 40_command.md R105, 60_exceptions.md R205: a TEXT scan over the nonzero bytes `b`. It ends in NOTERM when they reach the
limit (even at the top of the address space), otherwise in RANGE when they reach address 2^32, otherwise in BUS when the
next read fails. -/
def Obligations.TextScanEndsInItsFirstError : Prop :=
  ∀ (i : Instr) (s : State) (b : List Byte), i.shape = .text → (∀ v ∈ b, v ≠ 0#8) →
    HoldsAt s.mem s.lat.src.toNat b → Steady s s.lat.src.toNat (s.lat.src.toNat + b.length + 1) →
    s.lat.src.toNat + b.length ≤ 4294967296 →
    (b.length = s.lat.len.toNat → exec i s = .next ((s.started i.alg).cmdError .noterm s.lat.src)) ∧
      (b.length < s.lat.len.toNat → s.lat.src.toNat + b.length = 4294967296 →
        exec i s = .next ((s.started i.alg).cmdError .range s.lat.src)) ∧
      (b.length < s.lat.len.toNat → s.lat.src.toNat + b.length < 4294967296 →
        s.mem.read (s.lat.src.toNat + b.length) = none →
        exec i s = .next ((s.started i.alg).cmdError .bus (BitVec.ofNat 32 (s.lat.src.toNat + b.length))))

/-- 60_exceptions.md R205: "a TEXT command with LENGTH = 0 always ends in NOTERM, whatever SRC_ADDR is. And a SPAN command
with L = 0 always succeeds." -/
def Obligations.ZeroLengthOutcomes : Prop :=
  ∀ (i : Instr) (s : State), s.lat.len = 0#32 →
    (i.shape = .span → exec i s = .next ((s.started i.alg).complete
      ((s.started i.alg).digest i.alg i.dseed []) 0)) ∧
      (i.shape = .text → exec i s = .next ((s.started i.alg).cmdError .noterm s.lat.src))

/-- 40_command.md R115: a TEXT command on a terminated text and a SPAN command on the same bytes, from the same address with
the same seed, algorithm and build, complete with the same RESULT_LO and RESULT_HI and with COUNT = L. -/
def Obligations.TextAndSpanGiveTheSameResult : Prop :=
  ∀ (a : Alg) (d : Bool) (s u : State) (b : List Byte), TableSound s → TableSound u → u.build = s.build →
    u.lat.src = s.lat.src → u.lat.seed = s.lat.seed → TextInput s b → SpanInput u b →
    ∃ t v, exec (instrOf a .text d) s = .next t ∧ exec (instrOf a .span d) u = .next v ∧
      t.resultLo = v.resultLo ∧ t.resultHi = v.resultHi ∧
      t.count = BitVec.ofNat 32 b.length ∧ v.count = BitVec.ofNat 32 b.length ∧ t.err = false ∧ v.err = false

/-! Frames -/

/-- 40_command.md R111, R112, 60_exceptions.md R207: what a command leaves unchanged, for all eighteen. It stores nothing:
every byte of memory reads as before. A success leaves ERR_ADDR, an error leaves RESULT_LO, RESULT_HI and COUNT; only
DONE, ERR and ERRCODE of STATUS are written, with BUSY; the CRC table and its generator change only for CRC32, by the
wait of R102. The clause on the latched operands speaks of phase IDLE, where 93_implementation_defined.md U6 leaves them
open: that they stay is the model's choice (log 8). -/
def Obligations.CommandFrame : Prop :=
  ∀ (i : Instr) (s t : State), exec i s = .next t →
    t.build = s.build ∧ t.platform = s.platform ∧ t.ie = s.ie ∧ t.cmd = s.cmd ∧ t.drop = s.drop ∧
      t.srcAddr = s.srcAddr ∧ t.length = s.length ∧ t.seedLo = s.seedLo ∧ t.seedHi = s.seedHi ∧
      t.tabIndex = s.tabIndex ∧ t.lat = s.lat ∧ t.resetLine = s.resetLine ∧ t.script = s.script ∧
      t.response = s.response ∧ t.sched = s.sched ∧ t.turns = s.turns ∧
      (t.err = false → t.errAddr = s.errAddr) ∧
      (t.err = true → t.resultLo = s.resultLo ∧ t.resultHi = s.resultHi ∧ t.count = s.count) ∧
      t.table = (s.started i.alg).table ∧ t.tgen = (s.started i.alg).tgen ∧
      (i.alg ≠ .crc32 → t.table = s.table ∧ t.tgen = s.tgen) ∧
      ∀ a, t.mem.read a = s.mem.read a

/-- 40_command.md R114, 20_memory.md R62, 60_exceptions.md R207: the completion depends only on the latched operands, the
build and what the addresses `[src, src + len)` answer; no other register, and no other byte of memory, has any part in
it. -/
def Obligations.CommandDependsOnlyOnItsOperands : Prop :=
  ∀ (i : Instr) (s u : State), u.build = s.build → u.platform = s.platform → u.lat = s.lat → u.dirty = s.dirty →
    u.draws = s.draws → (i.alg = .crc32 → u.table = s.table ∧ u.tgen = s.tgen) →
    (∀ a, s.lat.src.toNat ≤ a → a < s.lat.src.toNat + s.lat.len.toNat → u.mem.read a = s.mem.read a) →
    ∃ t v, exec i s = .next t ∧ exec i u = .next v ∧ v.err = t.err ∧ v.errcode = t.errcode ∧ v.draws = t.draws ∧
      (t.err = false → v.resultLo = t.resultLo ∧ v.resultHi = t.resultHi ∧ v.count = t.count) ∧
      (t.err = true → v.errAddr = t.errAddr)

/-! The engine step by step -/

/-- 40_command.md R107, R113 and 10_state.md R42: from HELD, the engine's own steps (one byte each, folding as it reads)
reach exactly the state `exec` answers with, within the bound R113 gives. -/
def Obligations.EngineStepsReachTheCommandsCompletion : Prop :=
  ∀ (i : Instr) (s : State), s.phase = .held → decode s.lat.word = .ok i → s.holds i = false →
    ∃ n, n ≤ 2 * s.lat.len.toNat + 3 ∧ exec i s = .next (s.engineRun n)

/-- 40_command.md R107: folding byte by byte through the accumulator and the tail gives F_ALG over the whole sequence, for
every algorithm. -/
def Obligations.FoldingWhileReadingComputesTheDigest : Prop :=
  ∀ (i : Instr) (s : State) (b : List Byte),
    let r := b.foldl (fun (x : DWord × List Byte) v => absorb s i.alg x.1 x.2 v) (startAcc s i b.length, [])
    finishAcc s i.alg r.1 r.2 b.length = s.digest i.alg i.dseed b

/-- 40_command.md R102: a CRC32 command is held until TABLE_READY = 1 when CRC_TABLE_EN = 1; "commands other than CRC32 are
never held": their first engine step starts the first pass. -/
def Obligations.OnlyCrc32IsHeld : Prop :=
  ∀ (i : Instr) (s : State), s.phase = .held → decode s.lat.word = .ok i →
    (i.alg = .crc32 → s.build.crcTableEn = true → s.tableReady = false → s.engineStep = s) ∧
      ((i.alg ≠ .crc32 ∨ s.build.crcTableEn = false ∨ s.tableReady = true) →
        s.engineStep.phase =
            (if i.shape = .text ∧ i.alg ∈ [Alg.murmur2, Alg.murmur2a, Alg.murmur2_64, Alg.murmur3] then .scan i
              else .hash i) ∧
          s.engineStep.cursor = 0)

/-! Registers -/

/-- 40_command.md R100: acceptance of a command word, legal or not, with everything else unchanged. -/
def Obligations.AcceptanceLatchesTheOperands : Prop :=
  ∀ (s : State) (w : Word), s.busy = false →
    let t := s.writeReg 0x10#8 w
    t.cmd = w ∧ t.done = false ∧ t.err = false ∧ t.errcode = .none ∧ t.lat.word = w ∧
      (splitWord t.lat.word).alg = w.extractLsb' 0 4 ∧ (splitWord t.lat.word).shape = w.getLsbD 4 ∧
      (splitWord t.lat.word).dseed = w.getLsbD 5 ∧ t.lat.src = s.srcAddr ∧ t.lat.len = s.length ∧ t.lat.seed = s.seedHi ++ s.seedLo ∧ t.phase = .held ∧ t.busy = true ∧ t.drop = s.drop ∧
      t.ie = s.ie ∧ t.srcAddr = s.srcAddr ∧ t.length = s.length ∧ t.seedLo = s.seedLo ∧ t.seedHi = s.seedHi ∧
      t.resultLo = s.resultLo ∧ t.resultHi = s.resultHi ∧ t.count = s.count ∧ t.errAddr = s.errAddr ∧
      t.tabIndex = s.tabIndex ∧ t.tgen = s.tgen ∧ t.table = s.table ∧ t.mem = s.mem

/-- 40_command.md R101: a CMD write while BUSY = 1 sets DROP "and changes nothing else". -/
def Obligations.BusyCmdWriteIsDropped : Prop :=
  ∀ (s : State) (w : Word), s.busy = true → s.writeReg 0x10#8 w = { s with drop := true }

/-- 10_state.md R28: the places of the STATUS fields as they read, and what a write clears: several W1C bits at once, ERRCODE
with ERR; BUSY and TABLE_READY ignore the written value. -/
def Obligations.StatusReadsAndClears : Prop :=
  ∀ s : State,
    (let r := s.readReg 0x14#8;
      r.getLsbD 0 = s.busy ∧ r.getLsbD 1 = s.done ∧ r.getLsbD 2 = s.err ∧ r.getLsbD 3 = s.tableReady ∧
        r.getLsbD 4 = s.drop ∧ r.extractLsb' 5 3 = 0#3 ∧ r.extractLsb' 8 4 = s.errcode.code ∧
        r.extractLsb' 12 20 = 0#20) ∧
      ∀ v : Word, s.writeReg 0x14#8 v =
        { s with
          done := s.done && !v.getLsbD 1
          err := s.err && !v.getLsbD 2
          errcode := if v.getLsbD 2 then .none else s.errcode
          drop := s.drop && !v.getLsbD 4 }

/-- 70_reset_and_hazards.md R232: the soft reset and what it leaves unchanged. -/
def Obligations.SoftResetAbortsAndKeepsTheRest : Prop :=
  ∀ (s : State) (v : Word), v.getLsbD 1 = true →
    let t := s.writeReg 0x0C#8 v
    t.phase = .idle ∧ t.busy = false ∧ t.done = false ∧ t.err = false ∧ t.drop = false ∧ t.errcode = .none ∧
      t.ie = v.getLsbD 0 ∧
      t.cmd = s.cmd ∧ t.srcAddr = s.srcAddr ∧ t.length = s.length ∧ t.seedLo = s.seedLo ∧ t.seedHi = s.seedHi ∧
      t.resultLo = s.resultLo ∧ t.resultHi = s.resultHi ∧ t.count = s.count ∧ t.errAddr = s.errAddr ∧
      t.tabIndex = s.tabIndex ∧ t.tgen = s.tgen ∧ t.table = s.table ∧ t.tableReady = s.tableReady ∧ t.mem = s.mem ∧
      t.engineStep = t ∧ (s.tableStep.writeReg 0x0C#8 v) = t.tableStep

/-- 10_state.md R22, R24, R25: the identity, capability and polynomial registers read their constants in every state and
ignore writes. -/
def Obligations.IdentityRegistersAreConstant : Prop :=
  ∀ (s : State) (v : Word),
    s.readReg 0x00#8 = 0x48430100#32 ∧ s.readReg 0x08#8 = s.build.crcPoly ∧
      (let r := s.readReg 0x04#8;
        r.getLsbD 0 = s.build.crcTableEn ∧ r.extractLsb' 1 7 = 0#7 ∧ r.extractLsb' 8 8 = 32#8 ∧
          r.extractLsb' 16 4 = 9#4 ∧ r.extractLsb' 20 12 = 0#12) ∧
      (s.build = Config.Build.default → s.readReg 0x04#8 = 0x00092001#32 ∧ s.readReg 0x08#8 = 0xEDB88320#32) ∧
      s.writeReg 0x00#8 v = s ∧ s.writeReg 0x04#8 v = s ∧ s.writeReg 0x08#8 v = s

/-- 10_state.md R39: reserved offsets and reserved bits read 0, and writes to them are ignored and raise no error. -/
def Obligations.ReservedReadsZeroAndIgnoresWrites : Prop :=
  ∀ (s : State) (v : Word),
    (∀ o : BitVec 8, 0x40 ≤ o.toNat → o.toNat ≤ 0xFC → o.toNat % 4 = 0 →
      s.readReg o = 0#32 ∧ s.hostWrite .w32 o v = { s with response := .ack }) ∧
      (s.readReg 0x0C#8).extractLsb' 1 31 = 0#31 ∧ (s.readReg 0x38#8).extractLsb' 8 24 = 0#24 ∧
      (s.readReg 0x04#8).extractLsb' 1 7 = 0#7 ∧ (s.readReg 0x04#8).extractLsb' 20 12 = 0#12 ∧
      (s.readReg 0x14#8).extractLsb' 5 3 = 0#3 ∧ (s.readReg 0x14#8).extractLsb' 12 20 = 0#20 ∧
      s.hostWrite .w32 0x38#8 v = s.hostWrite .w32 0x38#8 (v &&& 0xFF#32) ∧
      s.hostWrite .w32 0x0C#8 v = s.hostWrite .w32 0x0C#8 (v &&& 0x3#32) ∧
      s.hostWrite .w32 0x14#8 v = s.hostWrite .w32 0x14#8 (v &&& 0x16#32)

/-- 20_memory.md R70: an access of another width than 32 bits, or at an offset with bits [1:0] not 0, has no effect on any
state of the block and answers a bus error, a read no data; every other access is taken. -/
def Obligations.RefusedAccessesChangeNothing : Prop :=
  ∀ (s : State) (w : AccessWidth) (o : BitVec 8) (v : Word),
    (w ≠ .w32 ∨ o.extractLsb' 0 2 ≠ 0#2 →
      s.hostWrite w o v = { s with response := .busError } ∧ s.hostRead w o = { s with response := .busError }) ∧
      (o.extractLsb' 0 2 = 0#2 →
        s.hostWrite .w32 o v = { s.writeReg o v with response := .ack } ∧
          s.hostRead .w32 o = { s with response := .data (s.readReg o) })

/-- 20_memory.md R72: a read changes nothing and answers the same again; a write other than to CMD, to STATUS with a W1C bit
set, or to CTRL with SRST = 1 changes at most the register it names. -/
def Obligations.OnlyThreeWritesHaveSideEffects : Prop :=
  ∀ (s : State) (o : BitVec 8) (v : Word), o.extractLsb' 0 2 = 0#2 →
    s.hostRead .w32 o = { s with response := .data (s.readReg o) } ∧
      (s.hostRead .w32 o).readReg o = s.readReg o ∧
      (o ≠ 0x10#8 → ¬(o = 0x14#8 ∧ v &&& 0x16#32 ≠ 0#32) → ¬(o = 0x0C#8 ∧ v.getLsbD 1 = true) →
        s.writeReg o v = s ∨ (o = 0x0C#8 ∧ s.writeReg o v = { s with ie := v.getLsbD 0 }) ∨
          (o = 0x18#8 ∧ s.writeReg o v = { s with srcAddr := v }) ∨
          (o = 0x1C#8 ∧ s.writeReg o v = { s with length := v }) ∨
          (o = 0x20#8 ∧ s.writeReg o v = { s with seedLo := v }) ∨
          (o = 0x24#8 ∧ s.writeReg o v = { s with seedHi := v }) ∨
          (o = 0x38#8 ∧ s.writeReg o v = { s with tabIndex := v.extractLsb' 0 8 }))

/-- 10_state.md R29 to R37: the operand registers and TAB_INDEX read what was written, also while BUSY = 1 (40_command.md
R109); the result registers ignore writes. -/
def Obligations.OperandRegistersReadBack : Prop :=
  ∀ (s : State) (v : Word),
    (∀ o ∈ [0x18#8, 0x1C#8, 0x20#8, 0x24#8],
      (s.writeReg o v).readReg o = v ∧ (s.writeReg o v).lat = s.lat ∧ (s.writeReg o v).phase = s.phase) ∧
      (s.writeReg 0x38#8 v).readReg 0x38#8 = v &&& 0xFF#32 ∧
      (∀ o ∈ [0x28#8, 0x2C#8, 0x30#8, 0x34#8, 0x3C#8], s.writeReg o v = s) ∧
      s.readReg 0x28#8 = s.resultLo ∧ s.readReg 0x2C#8 = s.resultHi ∧ s.readReg 0x30#8 = s.count ∧
      s.readReg 0x34#8 = s.errAddr ∧ s.readReg 0x10#8 = s.cmd

/-- 10_state.md R38: TAB_DATA reads the selected entry of 41_crc32.md R130 when the table is ready, and 0 otherwise, so in
every state of a build without the table; a read has no side effect and a write is ignored. -/
def Obligations.TabDataShowsTheSelectedEntry : Prop :=
  ∀ s : State, TableSound s →
    (s.tableReady = true → s.readReg 0x3C#8 = crcStep8 s.build.crcPoly (s.tabIndex.setWidth 32)) ∧
      (s.tableReady = false → s.readReg 0x3C#8 = 0#32) ∧
      (s.build.crcTableEn = false → s.readReg 0x3C#8 = 0#32) ∧
      s.hostRead .w32 0x3C#8 = { s with response := .data (s.readReg 0x3C#8) } ∧
      ∀ v, s.writeReg 0x3C#8 v = s

/-- 60_exceptions.md R204: every completion raises irq when IE = 1 and leaves it pending when IE = 0, setting IE then raises
it; a 1 written to DONE, the next acceptance, a soft reset and a hardware reset lower it. -/
def Obligations.InterruptFollowsCompletion : Prop :=
  ∀ (s : State) (h : Digest) (n : Nat) (c : ErrCode) (a w v : Word),
    s.irq = (s.ie && s.done) ∧ (s.complete h n).irq = s.ie ∧ (s.cmdError c a).irq = s.ie ∧
      ((s.complete h n).writeReg 0x0C#8 1#32).irq = true ∧ ((s.cmdError c a).writeReg 0x0C#8 1#32).irq = true ∧
      (v.getLsbD 1 = true → (s.writeReg 0x14#8 v).irq = false ∧ (s.writeReg 0x0C#8 v).irq = false) ∧
      (s.busy = false → (s.writeReg 0x10#8 w).irq = false) ∧ s.hardReset.irq = false ∧
      s.irqLine s.platform.hcIrq = s.irq ∧ ∀ l, l ≠ s.platform.hcIrq → s.irqLine l = false

/-! Completions -/

/-- 40_command.md R110, R111: the success completion. -/
def Obligations.SuccessCompletion : Prop :=
  ∀ (s : State) (n : Nat) (h : Word) (k : DWord), n < 4294967296 →
    (let t := s.complete (.w32 h) n;
      t.resultLo = h ∧ t.resultHi = 0x00000000#32 ∧ t.count.toNat = n ∧ t.done = true ∧ t.err = false ∧
        t.errcode = .none ∧ t.busy = false ∧ t.phase = .idle ∧ t.errAddr = s.errAddr) ∧
      (let t := s.complete (.w64 k) n;
        t.resultHi ++ t.resultLo = k ∧ t.count.toNat = n ∧ t.done = true ∧ t.err = false ∧ t.errcode = .none ∧
          t.busy = false ∧ t.phase = .idle ∧ t.errAddr = s.errAddr)

/-- 40_command.md R112, 60_exceptions.md R200, R207: the error completion, the hardware's error entry, with the code STATUS
then reads; it saves nothing else, and changes neither CTRL nor an input register. -/
def Obligations.ErrorCompletion : Prop :=
  ∀ (s : State) (c : ErrCode) (a : Word),
    let t := s.cmdError c a
    t.errAddr = a ∧ t.errcode = c ∧ t.err = true ∧ t.done = true ∧ t.busy = false ∧ t.phase = .idle ∧
      t.resultLo = s.resultLo ∧ t.resultHi = s.resultHi ∧ t.count = s.count ∧
      t.ie = s.ie ∧ t.cmd = s.cmd ∧ t.srcAddr = s.srcAddr ∧ t.length = s.length ∧ t.seedLo = s.seedLo ∧
      t.seedHi = s.seedHi ∧ t.drop = s.drop ∧ t.readReg 0x34#8 = a ∧
      (t.readReg 0x14#8).extractLsb' 8 4 =
        (match c with | .none => 0#4 | .illegal => 1#4 | .range => 2#4 | .bus => 3#4 | .noterm => 4#4)

/-! The CRC table -/

/-- 41_crc32.md R131: from FILL(0), the generator's 256 steps write every entry of R130; TABLE_READY becomes 1 with the last
of them and not before, and further steps change nothing. The wait of a CRC32 command is that run. -/
def Obligations.GeneratorFillsTheTable : Prop :=
  ∀ s : State, s.tgen = .fill 0 → s.table.length = 256 →
    (∀ k, k < 256 → (s.tableRun k).tableReady = false) ∧
      (∀ k, 256 ≤ k → s.tableRun k = s.tableRun 256) ∧ (s.tableRun 256).tableReady = true ∧
      (∀ n : BitVec 8, (s.tableRun 256).tableAt n = crcStep8 s.build.crcPoly (n.setWidth 32)) ∧
      (s.build.crcTableEn = true → s.awaitTable = s.tableRun 256)

/-- 41_crc32.md R130, R136: for every polynomial, T[0] = 0 and T[0x80] = P; for the polynomial 0, T[n] = 0 for every n. -/
def Obligations.TableEntryCorners : Prop :=
  ∀ p : Word, crcEntry p 0 = 0#32 ∧ crcEntry p 0x80 = p ∧ ∀ n, n < 256 → crcEntry 0#32 n = 0#32

/-- 41_crc32.md R134: the table form and the bitwise form of the per-byte update agree for every polynomial, and so does the
whole CRC. -/
def Obligations.TableAndBitwiseFormsAgree : Prop :=
  ∀ p : Word,
    (∀ (c : Word) (b : Byte),
      (c >>> 8) ^^^ crcEntry p ((c ^^^ b.setWidth 32) &&& 0xFF#32).toNat = crcStep8 p (c ^^^ b.setWidth 32)) ∧
      ∀ (b : List Byte) (seed : Word),
        fCrc32 (crcUpdTable fun n => crcEntry p n.toNat) b seed = fCrc32 (crcUpdBitwise p) b seed

/-- 10_state.md R41: once ready, the table is immutable and stays ready until the next hardware reset. -/
def Obligations.ReadyTableIsImmutable : Prop :=
  ∀ s t : State, s.tableReady = true → s.resetLine = false → step s = .next t →
    t.tableReady = true ∧ t.table = s.table

/-! Arithmetic laws -/

/-- 41_crc32.md R135, 42_djb.md R152, 43_fnv.md R162: seed chaining of the byte-wise families, and the multiplication by 33
of the DJB step. -/
def Obligations.SeedChaining : Prop :=
  ∀ (x y : List Byte),
    (∀ (u : Word → Byte → Word) (s : Word), fCrc32 u (x ++ y) s = fCrc32 u y (fCrc32 u x s)) ∧
      (∀ s : Word, fDjb2 (x ++ y) s = fDjb2 y (fDjb2 x s) ∧ fDjb2a (x ++ y) s = fDjb2a y (fDjb2a x s)) ∧
      (∀ h : Word, h + (h <<< 5) = h * 33#32) ∧
      (∀ p s : Word, fFnv1a p (x ++ y) s = fFnv1a p y (fFnv1a p x s)) ∧
      ∀ p s : DWord, fFnv1a64 p (x ++ y) s = fFnv1a64 p y (fFnv1a64 p x s)

/-- 44_murmur2.md R174, 45_murmur3.md R191: the MurMur family does not chain; with the default build each of the four has
byte sequences and a seed that show it. -/
def Obligations.MurmurFamilyDoesNotChain : Prop :=
  let c := Config.Build.default
  (∃ x y s, fMurmur2 c.mm2M (x ++ y) s ≠ fMurmur2 c.mm2M y (fMurmur2 c.mm2M x s)) ∧
    (∃ x y s, fMurmur2a c.mm2aTail c.mm2M (x ++ y) s ≠ fMurmur2a c.mm2aTail c.mm2M y (fMurmur2a c.mm2aTail c.mm2M x s)) ∧
    (∃ x y s, fMurmur64 c.mm64Fold c.mm64M (x ++ y) s ≠ fMurmur64 c.mm64Fold c.mm64M y (fMurmur64 c.mm64Fold c.mm64M x s)) ∧
    ∃ x y s, fMurmur3 c (x ++ y) s ≠ fMurmur3 c y (fMurmur3 c x s)

/-- 20_memory.md R64, R66: the word loads read any four and any eight bytes as little-endian numbers, at any offset. -/
def Obligations.WordLoadsAreLittleEndian : Prop :=
  ∀ (p : List Byte) (q : List Byte) (w : Word) (v : DWord),
    le32 (p ++ bytesOf32 w ++ q) p.length = w ∧ le64 (p ++ bytesOf64 v ++ q) p.length = v

/-! Hazards -/

/-- 70_reset_and_hazards.md R240, 20_memory.md R62 and R63 with 93_implementation_defined.md U3: an engine read of an address
written while the command is BUSY, before or after the read, gives a fresh free byte, another for each read, and so does
every read of a command that reads a location with side effects; a steady byte is read as it is, BusError is what the
address answered at the read, and no read that has taken place takes place again. -/
def Obligations.UnsteadyInputReadsAreFreshBytes : Prop :=
  FreshReads ∧ PastReadsStand ∧ ReadsToComeChooseTheirInstant ∧ ScansFollowTheirReads ∧ ThePastIsRemembered ∧
    WrittenReadsAreRedrawn ∧ SideEffectsFreeTheCommand ∧ SideEffectsFreeTheEngine ∧ FreeRunsDrawEveryByte

/-- 30_encoding.md R89 (MEMB), 20_memory.md R60: after a host memory write the written addresses answer the bytes and every
other address as before, and no register changes. -/
def Obligations.HostMemoryWriteIsSeen : Prop :=
  ∀ (s : State) (a : Word) (b : List Byte) (rest : List HostOp), s.script = .memb a b :: rest →
    a.toNat + b.length ≤ 4294967296 →
    ∃ t, s.hostStep = .next t ∧ t.script = rest ∧
      (∀ x, t.mem.read x = if a.toNat ≤ x ∧ x < a.toNat + b.length then b[x - a.toNat]? else s.mem.read x) ∧
      ∀ o, t.readReg o = s.readReg o

/-- 30_encoding.md R90: HASHRUN's five writes, from an idle block, leave its command accepted with its own operands
latched, and POLL next; HASHRUN.D keeps the seed registers and sets DSEED. -/
def Obligations.HashrunLaunchesItsCommand : Prop :=
  ∀ (s : State) (i : Instr) (addr len : Word) (seed : DWord) (rest : List HostOp), s.busy = false →
    (s.script = hashrun i addr len seed ++ rest → ∃ t, hostRun 5 s = some t ∧ t.busy = true ∧
      t.script = .poll 0x14#8 1#32 0#32 :: rest ∧ t.lat = { word := encode i, src := addr, len := len, seed := seed } ∧
      decode t.lat.word = .ok i) ∧
      (s.script = hashrunD i addr len ++ rest → ∃ t, hostRun 3 s = some t ∧ t.busy = true ∧
        t.script = .poll 0x14#8 1#32 0#32 :: rest ∧ t.lat.src = addr ∧ t.lat.len = len ∧
        t.seedLo = s.seedLo ∧ t.seedHi = s.seedHi ∧ decode t.lat.word = .ok (instrOf i.alg i.shape true))

/-- 30_encoding.md R90: CLRST clears DONE, ERR with ERRCODE, and DROP; SRST is a soft reset with IE = 0. -/
def Obligations.ClrstAndSrstActOnStatus : Prop :=
  ∀ (s : State) (rest : List HostOp),
    (s.script = clrst :: rest → ∃ t, s.hostStep = .next t ∧ t.script = rest ∧ t.done = false ∧ t.err = false ∧
      t.errcode = .none ∧ t.drop = false ∧ t.phase = s.phase ∧ t.ie = s.ie ∧ t.tgen = s.tgen ∧ t.lat = s.lat) ∧
      (s.script = srst :: rest → ∃ t, s.hostStep = .next t ∧ t.script = rest ∧ t.busy = false ∧ t.done = false ∧
        t.err = false ∧ t.errcode = .none ∧ t.drop = false ∧ t.ie = false ∧ t.tgen = s.tgen ∧ t.resultLo = s.resultLo ∧
        t.resultHi = s.resultHi ∧ t.count = s.count)

/-- 20_memory.md R68: the register window is the 256 addresses from HC_BASE, which is 256-byte aligned; no other address is
in it. -/
def Obligations.RegisterWindowStandsAtItsBase : Prop :=
  ∀ (s : State) (o : BitVec 8) (a : Word),
    (s.registerAddress o).toNat = s.platform.hcBase.toNat * 256 + o.toNat ∧ (s.registerAddress 0#8).toNat % 256 = 0 ∧
      (s.windowOffset a = some o ↔ a = s.registerAddress o)

/-- 60_exceptions.md R215: the block is idle when the phase is IDLE and the generator is READY or ABSENT, and then neither
the engine nor the generator changes anything. -/
def Obligations.IdleBlockTakesNoStep : Prop :=
  ∀ s : State, (s.quiescent = true ↔ s.phase = .idle ∧ (s.tgen = .ready ∨ s.tgen = .absent)) ∧
    (s.quiescent = true → s.engineStep = s ∧ s.tableStep = s ∧ s.commandStep = .next s)

/-! Reset -/

/-- 10_state.md R46, 70_reset_and_hazards.md R230: every value the spec states for hardware reset, from any state of any
build; it states none for T, lat, i, acc and L. -/
def Obligations.HardwareResetValues : Prop :=
  ∀ s : State,
    let t := s.hardReset
    t.ie = false ∧ t.cmd = 0x00000000#32 ∧ t.readReg 0x14#8 = 0x00000000#32 ∧ t.busy = false ∧ t.done = false ∧
      t.err = false ∧ t.tableReady = false ∧ t.drop = false ∧ t.errcode = .none ∧
      t.srcAddr = 0#32 ∧ t.length = 0#32 ∧ t.seedLo = 0#32 ∧ t.seedHi = 0#32 ∧
      t.resultLo = 0#32 ∧ t.resultHi = 0#32 ∧ t.count = 0#32 ∧ t.errAddr = 0#32 ∧ t.readReg 0x38#8 = 0x00000000#32 ∧
      t.phase = .idle ∧ (t.build.crcTableEn = true → t.tgen = .fill 0) ∧
      (t.build.crcTableEn = false → t.tgen = .absent) ∧ t.irq = false ∧
      t.readReg 0x00#8 = 0x48430100#32 ∧ t.readReg 0x04#8 = capsWord s.build ∧ t.readReg 0x08#8 = s.build.crcPoly ∧
      t.build = s.build

/-- 60_exceptions.md R206, 70_reset_and_hazards.md R230: the hardware reset takes precedence over every other event, whoever's
turn it is, and no command survives it. -/
def Obligations.HardwareResetTakesPrecedence : Prop :=
  ∀ s : State, s.resetLine = true → step s = .next s.hardReset ∧ s.hardReset.phase = .idle ∧
    s.hardReset.resetLine = false ∧ s.hardReset.engineStep = s.hardReset

/-! Invariants and whole-machine rules -/

/-- The invariant holds right after reset, and after a hardware reset of any state whose memory is canonical. Its clauses on
the working registers and on T before generation rest on the model's choice (log 8, log 9). -/
def Obligations.ResetSatisfiesTheInvariant : Prop :=
  Inv State.reset ∧ ∀ s : State, s.mem.wf → Inv s.hardReset

/-- Every step keeps the invariant: the memory's canonical form, the table of 41_crc32.md R130, ERR with its code, clean
flags while BUSY, the cursor inside its pass and below 2^32 (10_state.md R21), the tail's length. Its clauses on the
working registers outside a pass rest on the model's choice (log 8). -/
def Obligations.EveryStepKeepsTheInvariant : Prop :=
  ∀ s t : State, Inv s → step s = .next t → Inv t

/-- 00_scope.md R5: "No register can change a parameter at run time": no step changes a parameter of the build or of the
platform. -/
def Obligations.NoStepChangesAParameter : Prop :=
  ∀ s t : State, step s = .next t → t.build = s.build ∧ t.platform = s.platform

/-- 40_command.md R100, R109: while BUSY = 1 no event but a hardware reset changes the latched operands or CMD. The steps
that end the command are among them, and that the latched operands stay in phase IDLE, where
93_implementation_defined.md U6 leaves them open, is the model's choice (log 8). -/
def Obligations.LatchedOperandsAreFixedWhileBusy : Prop :=
  ∀ s t : State, s.busy = true → s.resetLine = false → step s = .next t → t.lat = s.lat ∧ t.cmd = s.cmd

/-- 10_state.md R33 to R36, 70_reset_and_hazards.md R241: without a hardware reset, RESULT_LO, RESULT_HI and COUNT change only
with a success completion of a running command, and ERR_ADDR only with an error completion. -/
def Obligations.ResultsChangeOnlyAtACompletion : Prop :=
  ∀ s t : State, s.resetLine = false → step s = .next t →
    ((t.resultLo ≠ s.resultLo ∨ t.resultHi ≠ s.resultHi ∨ t.count ≠ s.count) →
      s.busy = true ∧ t.busy = false ∧ t.done = true ∧ t.err = false ∧ t.errAddr = s.errAddr) ∧
      (t.errAddr ≠ s.errAddr →
        s.busy = true ∧ t.busy = false ∧ t.done = true ∧ t.err = true ∧ t.resultLo = s.resultLo ∧
          t.resultHi = s.resultHi ∧ t.count = s.count)

/-- 60_exceptions.md R205, R206: a running command ends only in a completion, in a soft reset by the host, or in a hardware
reset. -/
def Obligations.BusyEndsByCompletionOrReset : Prop :=
  ∀ s t : State, s.busy = true → step s = .next t → t.busy = false →
    s.resetLine = true ∨ t.done = true ∨
      ∃ v rest, s.script = .write .w32 0x0C#8 v :: rest ∧ v.getLsbD 1 = true ∧ s.nextTurn.1 = .host

/-- 60_exceptions.md R201: the machine stops for nothing a command or a register access does. A step is never refused, and
faults only where a host memory event names an address that does not exist (log 5, the model's choice). -/
def Obligations.NoCommandStopsTheMachine : Prop :=
  ∀ s : State, (∀ r, step s ≠ .refused r) ∧
    ∀ f, step s = .fault f → f = .memoryAddress ∧ s.nextTurn.1 = .host ∧
      ∃ a b rest, s.script = .memb a b :: rest ∧ a.toNat + b.length > 4294967296

/-- 20_memory.md R61: "The engine never writes memory." Only a host turn with a memory event changes what an address
answers. That a hardware reset of the block leaves the platform's memory is the model's reading (log 17). -/
def Obligations.OnlyTheHostChangesMemory : Prop :=
  ∀ s t : State, step s = .next t →
    (s.resetLine = true ∨ s.nextTurn.1 ≠ .host ∨ (∀ a b rest, s.script ≠ .memb a b :: rest) ∧
      (∀ a rest, s.script ≠ .busFault a :: rest)) →
    ∀ x, t.mem.read x = s.mem.read x
end

