-- ==== Sys2Proof/Laws/Bits.lean ====
section
/-! SUPPORT. The bits of the words the model joins from parts: each law reads one bit of a joined word. -/

namespace Sys2Proof.Machine

/-- The bits of a platform address joined from its base and its offset (20_memory.md R68). -/
theorem registerAddress_bit (s : State) (o : BitVec 8) (i : Nat) :
    (s.registerAddress o).getLsbD i = if i < 8 then o.getLsbD i else s.platform.hcBase.getLsbD (i - 8) :=
  BitVec.getLsbD_append

/-- The number of a platform address (20_memory.md R68). -/
theorem registerAddress_toNat (s : State) (o : BitVec 8) :
    (s.registerAddress o).toNat = s.platform.hcBase.toNat * 256 + o.toNat := by
  have h : (s.registerAddress o).toNat = s.platform.hcBase.toNat <<< 8 ||| o.toNat := BitVec.toNat_append ..
  rw [h, Nat.shiftLeft_eq, Nat.mul_comm, ← Nat.two_pow_add_eq_or_of_lt o.isLt]

/-- The bits of a 64-bit seed (40_command.md R100). -/
theorem accept_seed_bit (s : State) (w : Word) (i : Nat) :
    (s.accept w).lat.seed.getLsbD i = if i < 32 then s.seedLo.getLsbD i else s.seedHi.getLsbD (i - 32) :=
  BitVec.getLsbD_append

/-- The bits of a word joined from four byte lanes (20_memory.md R71). -/
theorem wordOfLanes_bit (a b c d : Byte) (i : Nat) :
    (wordOfLanes a b c d).getLsbD i =
      if i < 8 then a.getLsbD i else if i < 16 then b.getLsbD (i - 8) else if i < 24 then c.getLsbD (i - 16)
      else d.getLsbD (i - 24) := by
  have h1 : (wordOfLanes a b c d).getLsbD i =
      if i < 8 then a.getLsbD i else (d ++ c ++ b : BitVec (8 + 8 + 8)).getLsbD (i - 8) := BitVec.getLsbD_append
  have h2 (j : Nat) : (d ++ c ++ b : BitVec (8 + 8 + 8)).getLsbD j =
      if j < 8 then b.getLsbD j else (d ++ c : BitVec (8 + 8)).getLsbD (j - 8) := BitVec.getLsbD_append
  have h3 (j : Nat) : (d ++ c : BitVec (8 + 8)).getLsbD j =
      if j < 8 then c.getLsbD j else d.getLsbD (j - 8) := BitVec.getLsbD_append
  rw [h1, h2, h3]
  by_cases c1 : i < 8
  · rw [if_pos c1, if_pos c1]
  · rw [if_neg c1, if_neg c1]
    by_cases c2 : i < 16
    · rw [if_pos (by omega), if_pos c2]
    · rw [if_neg (by omega), if_neg c2]
      by_cases c3 : i < 24
      · rw [if_pos (by omega), if_pos c3, show i - 8 - 8 = i - 16 by omega]
      · rw [if_neg (by omega), if_neg c3, show i - 8 - 8 - 8 = i - 24 by omega]

/-- A word's four lanes join to the word again. -/
theorem wordOfLanes_lanes (w : Word) :
    wordOfLanes (w.extractLsb' 0 8) (w.extractLsb' 8 8) (w.extractLsb' 16 8) (w.extractLsb' 24 8) = w := by
  apply BitVec.eq_of_getLsbD_eq
  intro i hi
  rw [wordOfLanes_bit]
  simp only [BitVec.getLsbD_extractLsb']
  split
  · simp_all
  · split
    · rw [decide_eq_true (by omega), show 8 + (i - 8) = i by omega, Bool.true_and]
    · split
      · rw [decide_eq_true (by omega), show 16 + (i - 16) = i by omega, Bool.true_and]
      · rw [decide_eq_true (by omega), show 24 + (i - 24) = i by omega, Bool.true_and]

/-- Decoding a word's four byte lanes is decoding the word. -/
theorem decodeBytes_lanes (w : Word) : decodeBytes (lanesOfWord w) = decode w :=
  congrArg decode (wordOfLanes_lanes w)

/-- The bits of an encoded command (30_encoding.md R80). -/
theorem encode_bit (i : Instr) (k : Nat) :
    (encode i).getLsbD k =
      if k < 4 then i.alg.code.getLsbD k else if k = 4 then i.shape.bit else if k = 5 then i.dseed else false := by
  have h1 : (encode i).getLsbD k = if k < 4 then i.alg.code.getLsbD k else
      (0#26 ++ BitVec.ofBool i.dseed ++ BitVec.ofBool i.shape.bit : BitVec (26 + 1 + 1)).getLsbD (k - 4) :=
    BitVec.getLsbD_append
  have h2 (j : Nat) : (0#26 ++ BitVec.ofBool i.dseed ++ BitVec.ofBool i.shape.bit : BitVec (26 + 1 + 1)).getLsbD j =
      if j < 1 then (BitVec.ofBool i.shape.bit).getLsbD j else
      (0#26 ++ BitVec.ofBool i.dseed : BitVec (26 + 1)).getLsbD (j - 1) := BitVec.getLsbD_append
  have h3 (j : Nat) : (0#26 ++ BitVec.ofBool i.dseed : BitVec (26 + 1)).getLsbD j =
      if j < 1 then (BitVec.ofBool i.dseed).getLsbD j else (0#26).getLsbD (j - 1) := BitVec.getLsbD_append
  rw [h1, h2, h3]
  split
  · rfl
  · by_cases h4 : k = 4
    · subst h4; simp
    · by_cases h5 : k = 5
      · subst h5; simp
      · have a : ¬k - 4 < 1 := by omega
        have b : ¬k - 4 - 1 < 1 := by omega
        simp [h4, h5, a, b]

end Sys2Proof.Machine
end

