-- ==== Sys2Proof/Laws/State.lean ====
section
/-! SUPPORT. For each update of the state, one lemma per field: what the update leaves in it. -/

namespace Sys2Proof.Machine.State

@[simp] theorem withReads_build (s : State) (l : List Moment) (d : Nat) : (s.withReads l d).build = s.build := rfl
@[simp] theorem withReads_platform (s : State) (l : List Moment) (d : Nat) : (s.withReads l d).platform = s.platform := rfl
@[simp] theorem withReads_ie (s : State) (l : List Moment) (d : Nat) : (s.withReads l d).ie = s.ie := rfl
@[simp] theorem withReads_cmd (s : State) (l : List Moment) (d : Nat) : (s.withReads l d).cmd = s.cmd := rfl
@[simp] theorem withReads_done (s : State) (l : List Moment) (d : Nat) : (s.withReads l d).done = s.done := rfl
@[simp] theorem withReads_err (s : State) (l : List Moment) (d : Nat) : (s.withReads l d).err = s.err := rfl
@[simp] theorem withReads_drop (s : State) (l : List Moment) (d : Nat) : (s.withReads l d).drop = s.drop := rfl
@[simp] theorem withReads_errcode (s : State) (l : List Moment) (d : Nat) : (s.withReads l d).errcode = s.errcode := rfl
@[simp] theorem withReads_srcAddr (s : State) (l : List Moment) (d : Nat) : (s.withReads l d).srcAddr = s.srcAddr := rfl
@[simp] theorem withReads_length (s : State) (l : List Moment) (d : Nat) : (s.withReads l d).length = s.length := rfl
@[simp] theorem withReads_seedLo (s : State) (l : List Moment) (d : Nat) : (s.withReads l d).seedLo = s.seedLo := rfl
@[simp] theorem withReads_seedHi (s : State) (l : List Moment) (d : Nat) : (s.withReads l d).seedHi = s.seedHi := rfl
@[simp] theorem withReads_resultLo (s : State) (l : List Moment) (d : Nat) : (s.withReads l d).resultLo = s.resultLo := rfl
@[simp] theorem withReads_resultHi (s : State) (l : List Moment) (d : Nat) : (s.withReads l d).resultHi = s.resultHi := rfl
@[simp] theorem withReads_count (s : State) (l : List Moment) (d : Nat) : (s.withReads l d).count = s.count := rfl
@[simp] theorem withReads_errAddr (s : State) (l : List Moment) (d : Nat) : (s.withReads l d).errAddr = s.errAddr := rfl
@[simp] theorem withReads_tabIndex (s : State) (l : List Moment) (d : Nat) : (s.withReads l d).tabIndex = s.tabIndex := rfl
@[simp] theorem withReads_phase (s : State) (l : List Moment) (d : Nat) : (s.withReads l d).phase = s.phase := rfl
@[simp] theorem withReads_lat (s : State) (l : List Moment) (d : Nat) : (s.withReads l d).lat = s.lat := rfl
@[simp] theorem withReads_cursor (s : State) (l : List Moment) (d : Nat) : (s.withReads l d).cursor = s.cursor := rfl
@[simp] theorem withReads_acc (s : State) (l : List Moment) (d : Nat) : (s.withReads l d).acc = s.acc := rfl
@[simp] theorem withReads_tail (s : State) (l : List Moment) (d : Nat) : (s.withReads l d).tail = s.tail := rfl
@[simp] theorem withReads_len (s : State) (l : List Moment) (d : Nat) : (s.withReads l d).len = s.len := rfl
@[simp] theorem withReads_tgen (s : State) (l : List Moment) (d : Nat) : (s.withReads l d).tgen = s.tgen := rfl
@[simp] theorem withReads_table (s : State) (l : List Moment) (d : Nat) : (s.withReads l d).table = s.table := rfl
@[simp] theorem withReads_mem (s : State) (l : List Moment) (d : Nat) : (s.withReads l d).mem = s.mem := rfl
@[simp] theorem withReads_resetLine (s : State) (l : List Moment) (d : Nat) : (s.withReads l d).resetLine = s.resetLine := rfl
@[simp] theorem withReads_script (s : State) (l : List Moment) (d : Nat) : (s.withReads l d).script = s.script := rfl
@[simp] theorem withReads_response (s : State) (l : List Moment) (d : Nat) : (s.withReads l d).response = s.response := rfl
@[simp] theorem withReads_sched (s : State) (l : List Moment) (d : Nat) : (s.withReads l d).sched = s.sched := rfl
@[simp] theorem withReads_dirty (s : State) (l : List Moment) (d : Nat) : (s.withReads l d).dirty = s.dirty := rfl
@[simp] theorem withReads_past (s : State) (l : List Moment) (d : Nat) : (s.withReads l d).past = l := rfl
@[simp] theorem withReads_draws (s : State) (l : List Moment) (d : Nat) : (s.withReads l d).draws = d := rfl
@[simp] theorem withReads_turns (s : State) (l : List Moment) (d : Nat) : (s.withReads l d).turns = s.turns := rfl

@[simp] theorem noted_build (s : State) (v : Byte) : (s.noted v).build = s.build := rfl
@[simp] theorem noted_platform (s : State) (v : Byte) : (s.noted v).platform = s.platform := rfl
@[simp] theorem noted_ie (s : State) (v : Byte) : (s.noted v).ie = s.ie := rfl
@[simp] theorem noted_cmd (s : State) (v : Byte) : (s.noted v).cmd = s.cmd := rfl
@[simp] theorem noted_done (s : State) (v : Byte) : (s.noted v).done = s.done := rfl
@[simp] theorem noted_err (s : State) (v : Byte) : (s.noted v).err = s.err := rfl
@[simp] theorem noted_drop (s : State) (v : Byte) : (s.noted v).drop = s.drop := rfl
@[simp] theorem noted_errcode (s : State) (v : Byte) : (s.noted v).errcode = s.errcode := rfl
@[simp] theorem noted_srcAddr (s : State) (v : Byte) : (s.noted v).srcAddr = s.srcAddr := rfl
@[simp] theorem noted_length (s : State) (v : Byte) : (s.noted v).length = s.length := rfl
@[simp] theorem noted_seedLo (s : State) (v : Byte) : (s.noted v).seedLo = s.seedLo := rfl
@[simp] theorem noted_seedHi (s : State) (v : Byte) : (s.noted v).seedHi = s.seedHi := rfl
@[simp] theorem noted_resultLo (s : State) (v : Byte) : (s.noted v).resultLo = s.resultLo := rfl
@[simp] theorem noted_resultHi (s : State) (v : Byte) : (s.noted v).resultHi = s.resultHi := rfl
@[simp] theorem noted_count (s : State) (v : Byte) : (s.noted v).count = s.count := rfl
@[simp] theorem noted_errAddr (s : State) (v : Byte) : (s.noted v).errAddr = s.errAddr := rfl
@[simp] theorem noted_tabIndex (s : State) (v : Byte) : (s.noted v).tabIndex = s.tabIndex := rfl
@[simp] theorem noted_phase (s : State) (v : Byte) : (s.noted v).phase = s.phase := rfl
@[simp] theorem noted_lat (s : State) (v : Byte) : (s.noted v).lat = s.lat := rfl
@[simp] theorem noted_cursor (s : State) (v : Byte) : (s.noted v).cursor = s.cursor := rfl
@[simp] theorem noted_acc (s : State) (v : Byte) : (s.noted v).acc = s.acc := rfl
@[simp] theorem noted_tail (s : State) (v : Byte) : (s.noted v).tail = s.tail := rfl
@[simp] theorem noted_len (s : State) (v : Byte) : (s.noted v).len = s.len := rfl
@[simp] theorem noted_tgen (s : State) (v : Byte) : (s.noted v).tgen = s.tgen := rfl
@[simp] theorem noted_table (s : State) (v : Byte) : (s.noted v).table = s.table := rfl
@[simp] theorem noted_mem (s : State) (v : Byte) : (s.noted v).mem = s.mem := rfl
@[simp] theorem noted_resetLine (s : State) (v : Byte) : (s.noted v).resetLine = s.resetLine := rfl
@[simp] theorem noted_script (s : State) (v : Byte) : (s.noted v).script = s.script := rfl
@[simp] theorem noted_response (s : State) (v : Byte) : (s.noted v).response = s.response := rfl
@[simp] theorem noted_sched (s : State) (v : Byte) : (s.noted v).sched = s.sched := rfl
@[simp] theorem noted_dirty (s : State) (v : Byte) : (s.noted v).dirty = s.dirty := rfl
@[simp] theorem noted_past (s : State) (v : Byte) : (s.noted v).past = s.past ++ [.read v] := rfl
@[simp] theorem noted_draws (s : State) (v : Byte) : (s.noted v).draws = s.draws := rfl
@[simp] theorem noted_turns (s : State) (v : Byte) : (s.noted v).turns = s.turns := rfl

@[simp] theorem fresh_build (s : State) : s.fresh.build = s.build := rfl
@[simp] theorem fresh_platform (s : State) : s.fresh.platform = s.platform := rfl
@[simp] theorem fresh_ie (s : State) : s.fresh.ie = s.ie := rfl
@[simp] theorem fresh_cmd (s : State) : s.fresh.cmd = s.cmd := rfl
@[simp] theorem fresh_done (s : State) : s.fresh.done = s.done := rfl
@[simp] theorem fresh_err (s : State) : s.fresh.err = s.err := rfl
@[simp] theorem fresh_drop (s : State) : s.fresh.drop = s.drop := rfl
@[simp] theorem fresh_errcode (s : State) : s.fresh.errcode = s.errcode := rfl
@[simp] theorem fresh_srcAddr (s : State) : s.fresh.srcAddr = s.srcAddr := rfl
@[simp] theorem fresh_length (s : State) : s.fresh.length = s.length := rfl
@[simp] theorem fresh_seedLo (s : State) : s.fresh.seedLo = s.seedLo := rfl
@[simp] theorem fresh_seedHi (s : State) : s.fresh.seedHi = s.seedHi := rfl
@[simp] theorem fresh_resultLo (s : State) : s.fresh.resultLo = s.resultLo := rfl
@[simp] theorem fresh_resultHi (s : State) : s.fresh.resultHi = s.resultHi := rfl
@[simp] theorem fresh_count (s : State) : s.fresh.count = s.count := rfl
@[simp] theorem fresh_errAddr (s : State) : s.fresh.errAddr = s.errAddr := rfl
@[simp] theorem fresh_tabIndex (s : State) : s.fresh.tabIndex = s.tabIndex := rfl
@[simp] theorem fresh_phase (s : State) : s.fresh.phase = s.phase := rfl
@[simp] theorem fresh_lat (s : State) : s.fresh.lat = s.lat := rfl
@[simp] theorem fresh_cursor (s : State) : s.fresh.cursor = s.cursor := rfl
@[simp] theorem fresh_acc (s : State) : s.fresh.acc = s.acc := rfl
@[simp] theorem fresh_tail (s : State) : s.fresh.tail = s.tail := rfl
@[simp] theorem fresh_len (s : State) : s.fresh.len = s.len := rfl
@[simp] theorem fresh_tgen (s : State) : s.fresh.tgen = s.tgen := rfl
@[simp] theorem fresh_table (s : State) : s.fresh.table = s.table := rfl
@[simp] theorem fresh_mem (s : State) : s.fresh.mem = s.mem := rfl
@[simp] theorem fresh_resetLine (s : State) : s.fresh.resetLine = s.resetLine := rfl
@[simp] theorem fresh_script (s : State) : s.fresh.script = s.script := rfl
@[simp] theorem fresh_response (s : State) : s.fresh.response = s.response := rfl
@[simp] theorem fresh_sched (s : State) : s.fresh.sched = s.sched := rfl
@[simp] theorem fresh_dirty (s : State) : s.fresh.dirty = s.dirty := rfl
@[simp] theorem fresh_past (s : State) : s.fresh.past = [] := rfl
@[simp] theorem fresh_draws (s : State) : s.fresh.draws = s.draws := rfl
@[simp] theorem fresh_turns (s : State) : s.fresh.turns = s.turns := rfl

@[simp] theorem withDraws_build (s : State) (d : Nat) : (s.withDraws d).build = s.build := rfl
@[simp] theorem withDraws_platform (s : State) (d : Nat) : (s.withDraws d).platform = s.platform := rfl
@[simp] theorem withDraws_ie (s : State) (d : Nat) : (s.withDraws d).ie = s.ie := rfl
@[simp] theorem withDraws_cmd (s : State) (d : Nat) : (s.withDraws d).cmd = s.cmd := rfl
@[simp] theorem withDraws_done (s : State) (d : Nat) : (s.withDraws d).done = s.done := rfl
@[simp] theorem withDraws_err (s : State) (d : Nat) : (s.withDraws d).err = s.err := rfl
@[simp] theorem withDraws_drop (s : State) (d : Nat) : (s.withDraws d).drop = s.drop := rfl
@[simp] theorem withDraws_errcode (s : State) (d : Nat) : (s.withDraws d).errcode = s.errcode := rfl
@[simp] theorem withDraws_srcAddr (s : State) (d : Nat) : (s.withDraws d).srcAddr = s.srcAddr := rfl
@[simp] theorem withDraws_length (s : State) (d : Nat) : (s.withDraws d).length = s.length := rfl
@[simp] theorem withDraws_seedLo (s : State) (d : Nat) : (s.withDraws d).seedLo = s.seedLo := rfl
@[simp] theorem withDraws_seedHi (s : State) (d : Nat) : (s.withDraws d).seedHi = s.seedHi := rfl
@[simp] theorem withDraws_resultLo (s : State) (d : Nat) : (s.withDraws d).resultLo = s.resultLo := rfl
@[simp] theorem withDraws_resultHi (s : State) (d : Nat) : (s.withDraws d).resultHi = s.resultHi := rfl
@[simp] theorem withDraws_count (s : State) (d : Nat) : (s.withDraws d).count = s.count := rfl
@[simp] theorem withDraws_errAddr (s : State) (d : Nat) : (s.withDraws d).errAddr = s.errAddr := rfl
@[simp] theorem withDraws_tabIndex (s : State) (d : Nat) : (s.withDraws d).tabIndex = s.tabIndex := rfl
@[simp] theorem withDraws_phase (s : State) (d : Nat) : (s.withDraws d).phase = s.phase := rfl
@[simp] theorem withDraws_lat (s : State) (d : Nat) : (s.withDraws d).lat = s.lat := rfl
@[simp] theorem withDraws_cursor (s : State) (d : Nat) : (s.withDraws d).cursor = s.cursor := rfl
@[simp] theorem withDraws_acc (s : State) (d : Nat) : (s.withDraws d).acc = s.acc := rfl
@[simp] theorem withDraws_tail (s : State) (d : Nat) : (s.withDraws d).tail = s.tail := rfl
@[simp] theorem withDraws_len (s : State) (d : Nat) : (s.withDraws d).len = s.len := rfl
@[simp] theorem withDraws_tgen (s : State) (d : Nat) : (s.withDraws d).tgen = s.tgen := rfl
@[simp] theorem withDraws_table (s : State) (d : Nat) : (s.withDraws d).table = s.table := rfl
@[simp] theorem withDraws_mem (s : State) (d : Nat) : (s.withDraws d).mem = s.mem := rfl
@[simp] theorem withDraws_resetLine (s : State) (d : Nat) : (s.withDraws d).resetLine = s.resetLine := rfl
@[simp] theorem withDraws_script (s : State) (d : Nat) : (s.withDraws d).script = s.script := rfl
@[simp] theorem withDraws_response (s : State) (d : Nat) : (s.withDraws d).response = s.response := rfl
@[simp] theorem withDraws_sched (s : State) (d : Nat) : (s.withDraws d).sched = s.sched := rfl
@[simp] theorem withDraws_dirty (s : State) (d : Nat) : (s.withDraws d).dirty = s.dirty := rfl
@[simp] theorem withDraws_past (s : State) (d : Nat) : (s.withDraws d).past = s.past := rfl
@[simp] theorem withDraws_draws (s : State) (d : Nat) : (s.withDraws d).draws = d := rfl
@[simp] theorem withDraws_turns (s : State) (d : Nat) : (s.withDraws d).turns = s.turns := rfl

@[simp] theorem withSchedule_build (s : State) (l : List Config.Turn) (n : Nat) : (s.withSchedule l n).build = s.build := rfl
@[simp] theorem withSchedule_platform (s : State) (l : List Config.Turn) (n : Nat) : (s.withSchedule l n).platform = s.platform := rfl
@[simp] theorem withSchedule_ie (s : State) (l : List Config.Turn) (n : Nat) : (s.withSchedule l n).ie = s.ie := rfl
@[simp] theorem withSchedule_cmd (s : State) (l : List Config.Turn) (n : Nat) : (s.withSchedule l n).cmd = s.cmd := rfl
@[simp] theorem withSchedule_done (s : State) (l : List Config.Turn) (n : Nat) : (s.withSchedule l n).done = s.done := rfl
@[simp] theorem withSchedule_err (s : State) (l : List Config.Turn) (n : Nat) : (s.withSchedule l n).err = s.err := rfl
@[simp] theorem withSchedule_drop (s : State) (l : List Config.Turn) (n : Nat) : (s.withSchedule l n).drop = s.drop := rfl
@[simp] theorem withSchedule_errcode (s : State) (l : List Config.Turn) (n : Nat) : (s.withSchedule l n).errcode = s.errcode := rfl
@[simp] theorem withSchedule_srcAddr (s : State) (l : List Config.Turn) (n : Nat) : (s.withSchedule l n).srcAddr = s.srcAddr := rfl
@[simp] theorem withSchedule_length (s : State) (l : List Config.Turn) (n : Nat) : (s.withSchedule l n).length = s.length := rfl
@[simp] theorem withSchedule_seedLo (s : State) (l : List Config.Turn) (n : Nat) : (s.withSchedule l n).seedLo = s.seedLo := rfl
@[simp] theorem withSchedule_seedHi (s : State) (l : List Config.Turn) (n : Nat) : (s.withSchedule l n).seedHi = s.seedHi := rfl
@[simp] theorem withSchedule_resultLo (s : State) (l : List Config.Turn) (n : Nat) : (s.withSchedule l n).resultLo = s.resultLo := rfl
@[simp] theorem withSchedule_resultHi (s : State) (l : List Config.Turn) (n : Nat) : (s.withSchedule l n).resultHi = s.resultHi := rfl
@[simp] theorem withSchedule_count (s : State) (l : List Config.Turn) (n : Nat) : (s.withSchedule l n).count = s.count := rfl
@[simp] theorem withSchedule_errAddr (s : State) (l : List Config.Turn) (n : Nat) : (s.withSchedule l n).errAddr = s.errAddr := rfl
@[simp] theorem withSchedule_tabIndex (s : State) (l : List Config.Turn) (n : Nat) : (s.withSchedule l n).tabIndex = s.tabIndex := rfl
@[simp] theorem withSchedule_phase (s : State) (l : List Config.Turn) (n : Nat) : (s.withSchedule l n).phase = s.phase := rfl
@[simp] theorem withSchedule_lat (s : State) (l : List Config.Turn) (n : Nat) : (s.withSchedule l n).lat = s.lat := rfl
@[simp] theorem withSchedule_cursor (s : State) (l : List Config.Turn) (n : Nat) : (s.withSchedule l n).cursor = s.cursor := rfl
@[simp] theorem withSchedule_acc (s : State) (l : List Config.Turn) (n : Nat) : (s.withSchedule l n).acc = s.acc := rfl
@[simp] theorem withSchedule_tail (s : State) (l : List Config.Turn) (n : Nat) : (s.withSchedule l n).tail = s.tail := rfl
@[simp] theorem withSchedule_len (s : State) (l : List Config.Turn) (n : Nat) : (s.withSchedule l n).len = s.len := rfl
@[simp] theorem withSchedule_tgen (s : State) (l : List Config.Turn) (n : Nat) : (s.withSchedule l n).tgen = s.tgen := rfl
@[simp] theorem withSchedule_table (s : State) (l : List Config.Turn) (n : Nat) : (s.withSchedule l n).table = s.table := rfl
@[simp] theorem withSchedule_mem (s : State) (l : List Config.Turn) (n : Nat) : (s.withSchedule l n).mem = s.mem := rfl
@[simp] theorem withSchedule_resetLine (s : State) (l : List Config.Turn) (n : Nat) : (s.withSchedule l n).resetLine = s.resetLine := rfl
@[simp] theorem withSchedule_script (s : State) (l : List Config.Turn) (n : Nat) : (s.withSchedule l n).script = s.script := rfl
@[simp] theorem withSchedule_response (s : State) (l : List Config.Turn) (n : Nat) : (s.withSchedule l n).response = s.response := rfl
@[simp] theorem withSchedule_sched (s : State) (l : List Config.Turn) (n : Nat) : (s.withSchedule l n).sched = l := rfl
@[simp] theorem withSchedule_dirty (s : State) (l : List Config.Turn) (n : Nat) : (s.withSchedule l n).dirty = s.dirty := rfl
@[simp] theorem withSchedule_past (s : State) (l : List Config.Turn) (n : Nat) : (s.withSchedule l n).past = s.past := rfl
@[simp] theorem withSchedule_draws (s : State) (l : List Config.Turn) (n : Nat) : (s.withSchedule l n).draws = s.draws := rfl
@[simp] theorem withSchedule_turns (s : State) (l : List Config.Turn) (n : Nat) : (s.withSchedule l n).turns = n := rfl

@[simp] theorem endCommand_build (s : State) : s.endCommand.build = s.build := rfl
@[simp] theorem endCommand_platform (s : State) : s.endCommand.platform = s.platform := rfl
@[simp] theorem endCommand_ie (s : State) : s.endCommand.ie = s.ie := rfl
@[simp] theorem endCommand_cmd (s : State) : s.endCommand.cmd = s.cmd := rfl
@[simp] theorem endCommand_done (s : State) : s.endCommand.done = s.done := rfl
@[simp] theorem endCommand_err (s : State) : s.endCommand.err = s.err := rfl
@[simp] theorem endCommand_drop (s : State) : s.endCommand.drop = s.drop := rfl
@[simp] theorem endCommand_errcode (s : State) : s.endCommand.errcode = s.errcode := rfl
@[simp] theorem endCommand_srcAddr (s : State) : s.endCommand.srcAddr = s.srcAddr := rfl
@[simp] theorem endCommand_length (s : State) : s.endCommand.length = s.length := rfl
@[simp] theorem endCommand_seedLo (s : State) : s.endCommand.seedLo = s.seedLo := rfl
@[simp] theorem endCommand_seedHi (s : State) : s.endCommand.seedHi = s.seedHi := rfl
@[simp] theorem endCommand_resultLo (s : State) : s.endCommand.resultLo = s.resultLo := rfl
@[simp] theorem endCommand_resultHi (s : State) : s.endCommand.resultHi = s.resultHi := rfl
@[simp] theorem endCommand_count (s : State) : s.endCommand.count = s.count := rfl
@[simp] theorem endCommand_errAddr (s : State) : s.endCommand.errAddr = s.errAddr := rfl
@[simp] theorem endCommand_tabIndex (s : State) : s.endCommand.tabIndex = s.tabIndex := rfl
@[simp] theorem endCommand_phase (s : State) : s.endCommand.phase = .idle := rfl
@[simp] theorem endCommand_lat (s : State) : s.endCommand.lat = s.lat := rfl
@[simp] theorem endCommand_cursor (s : State) : s.endCommand.cursor = 0 := rfl
@[simp] theorem endCommand_acc (s : State) : s.endCommand.acc = 0#64 := rfl
@[simp] theorem endCommand_tail (s : State) : s.endCommand.tail = [] := rfl
@[simp] theorem endCommand_len (s : State) : s.endCommand.len = 0 := rfl
@[simp] theorem endCommand_tgen (s : State) : s.endCommand.tgen = s.tgen := rfl
@[simp] theorem endCommand_table (s : State) : s.endCommand.table = s.table := rfl
@[simp] theorem endCommand_mem (s : State) : s.endCommand.mem = s.mem := rfl
@[simp] theorem endCommand_resetLine (s : State) : s.endCommand.resetLine = s.resetLine := rfl
@[simp] theorem endCommand_script (s : State) : s.endCommand.script = s.script := rfl
@[simp] theorem endCommand_response (s : State) : s.endCommand.response = s.response := rfl
@[simp] theorem endCommand_sched (s : State) : s.endCommand.sched = s.sched := rfl
@[simp] theorem endCommand_dirty (s : State) : s.endCommand.dirty = [] := rfl
@[simp] theorem endCommand_past (s : State) : s.endCommand.past = [] := rfl
@[simp] theorem endCommand_draws (s : State) : s.endCommand.draws = s.draws := rfl
@[simp] theorem endCommand_turns (s : State) : s.endCommand.turns = s.turns := rfl

@[simp] theorem accept_build (s : State) (w : Word) : (s.accept w).build = s.build := rfl
@[simp] theorem accept_platform (s : State) (w : Word) : (s.accept w).platform = s.platform := rfl
@[simp] theorem accept_ie (s : State) (w : Word) : (s.accept w).ie = s.ie := rfl
@[simp] theorem accept_cmd (s : State) (w : Word) : (s.accept w).cmd = w := rfl
@[simp] theorem accept_done (s : State) (w : Word) : (s.accept w).done = false := rfl
@[simp] theorem accept_err (s : State) (w : Word) : (s.accept w).err = false := rfl
@[simp] theorem accept_drop (s : State) (w : Word) : (s.accept w).drop = s.drop := rfl
@[simp] theorem accept_errcode (s : State) (w : Word) : (s.accept w).errcode = .none := rfl
@[simp] theorem accept_srcAddr (s : State) (w : Word) : (s.accept w).srcAddr = s.srcAddr := rfl
@[simp] theorem accept_length (s : State) (w : Word) : (s.accept w).length = s.length := rfl
@[simp] theorem accept_seedLo (s : State) (w : Word) : (s.accept w).seedLo = s.seedLo := rfl
@[simp] theorem accept_seedHi (s : State) (w : Word) : (s.accept w).seedHi = s.seedHi := rfl
@[simp] theorem accept_resultLo (s : State) (w : Word) : (s.accept w).resultLo = s.resultLo := rfl
@[simp] theorem accept_resultHi (s : State) (w : Word) : (s.accept w).resultHi = s.resultHi := rfl
@[simp] theorem accept_count (s : State) (w : Word) : (s.accept w).count = s.count := rfl
@[simp] theorem accept_errAddr (s : State) (w : Word) : (s.accept w).errAddr = s.errAddr := rfl
@[simp] theorem accept_tabIndex (s : State) (w : Word) : (s.accept w).tabIndex = s.tabIndex := rfl
@[simp] theorem accept_phase (s : State) (w : Word) : (s.accept w).phase = .held := rfl
@[simp] theorem accept_lat (s : State) (w : Word) : (s.accept w).lat = { word := w, src := s.srcAddr, len := s.length, seed := s.seedHi ++ s.seedLo } := rfl
@[simp] theorem accept_cursor (s : State) (w : Word) : (s.accept w).cursor = s.cursor := rfl
@[simp] theorem accept_acc (s : State) (w : Word) : (s.accept w).acc = s.acc := rfl
@[simp] theorem accept_tail (s : State) (w : Word) : (s.accept w).tail = s.tail := rfl
@[simp] theorem accept_len (s : State) (w : Word) : (s.accept w).len = s.len := rfl
@[simp] theorem accept_tgen (s : State) (w : Word) : (s.accept w).tgen = s.tgen := rfl
@[simp] theorem accept_table (s : State) (w : Word) : (s.accept w).table = s.table := rfl
@[simp] theorem accept_mem (s : State) (w : Word) : (s.accept w).mem = s.mem := rfl
@[simp] theorem accept_resetLine (s : State) (w : Word) : (s.accept w).resetLine = s.resetLine := rfl
@[simp] theorem accept_script (s : State) (w : Word) : (s.accept w).script = s.script := rfl
@[simp] theorem accept_response (s : State) (w : Word) : (s.accept w).response = s.response := rfl
@[simp] theorem accept_sched (s : State) (w : Word) : (s.accept w).sched = s.sched := rfl
@[simp] theorem accept_dirty (s : State) (w : Word) : (s.accept w).dirty = [] := rfl
@[simp] theorem accept_past (s : State) (w : Word) : (s.accept w).past = [] := rfl
@[simp] theorem accept_draws (s : State) (w : Word) : (s.accept w).draws = s.draws := rfl
@[simp] theorem accept_turns (s : State) (w : Word) : (s.accept w).turns = s.turns := rfl

@[simp] theorem dropCommand_build (s : State) : s.dropCommand.build = s.build := rfl
@[simp] theorem dropCommand_platform (s : State) : s.dropCommand.platform = s.platform := rfl
@[simp] theorem dropCommand_ie (s : State) : s.dropCommand.ie = s.ie := rfl
@[simp] theorem dropCommand_cmd (s : State) : s.dropCommand.cmd = s.cmd := rfl
@[simp] theorem dropCommand_done (s : State) : s.dropCommand.done = s.done := rfl
@[simp] theorem dropCommand_err (s : State) : s.dropCommand.err = s.err := rfl
@[simp] theorem dropCommand_drop (s : State) : s.dropCommand.drop = true := rfl
@[simp] theorem dropCommand_errcode (s : State) : s.dropCommand.errcode = s.errcode := rfl
@[simp] theorem dropCommand_srcAddr (s : State) : s.dropCommand.srcAddr = s.srcAddr := rfl
@[simp] theorem dropCommand_length (s : State) : s.dropCommand.length = s.length := rfl
@[simp] theorem dropCommand_seedLo (s : State) : s.dropCommand.seedLo = s.seedLo := rfl
@[simp] theorem dropCommand_seedHi (s : State) : s.dropCommand.seedHi = s.seedHi := rfl
@[simp] theorem dropCommand_resultLo (s : State) : s.dropCommand.resultLo = s.resultLo := rfl
@[simp] theorem dropCommand_resultHi (s : State) : s.dropCommand.resultHi = s.resultHi := rfl
@[simp] theorem dropCommand_count (s : State) : s.dropCommand.count = s.count := rfl
@[simp] theorem dropCommand_errAddr (s : State) : s.dropCommand.errAddr = s.errAddr := rfl
@[simp] theorem dropCommand_tabIndex (s : State) : s.dropCommand.tabIndex = s.tabIndex := rfl
@[simp] theorem dropCommand_phase (s : State) : s.dropCommand.phase = s.phase := rfl
@[simp] theorem dropCommand_lat (s : State) : s.dropCommand.lat = s.lat := rfl
@[simp] theorem dropCommand_cursor (s : State) : s.dropCommand.cursor = s.cursor := rfl
@[simp] theorem dropCommand_acc (s : State) : s.dropCommand.acc = s.acc := rfl
@[simp] theorem dropCommand_tail (s : State) : s.dropCommand.tail = s.tail := rfl
@[simp] theorem dropCommand_len (s : State) : s.dropCommand.len = s.len := rfl
@[simp] theorem dropCommand_tgen (s : State) : s.dropCommand.tgen = s.tgen := rfl
@[simp] theorem dropCommand_table (s : State) : s.dropCommand.table = s.table := rfl
@[simp] theorem dropCommand_mem (s : State) : s.dropCommand.mem = s.mem := rfl
@[simp] theorem dropCommand_resetLine (s : State) : s.dropCommand.resetLine = s.resetLine := rfl
@[simp] theorem dropCommand_script (s : State) : s.dropCommand.script = s.script := rfl
@[simp] theorem dropCommand_response (s : State) : s.dropCommand.response = s.response := rfl
@[simp] theorem dropCommand_sched (s : State) : s.dropCommand.sched = s.sched := rfl
@[simp] theorem dropCommand_dirty (s : State) : s.dropCommand.dirty = s.dirty := rfl
@[simp] theorem dropCommand_past (s : State) : s.dropCommand.past = s.past := rfl
@[simp] theorem dropCommand_draws (s : State) : s.dropCommand.draws = s.draws := rfl
@[simp] theorem dropCommand_turns (s : State) : s.dropCommand.turns = s.turns := rfl

@[simp] theorem cmdError_build (s : State) (c : ErrCode) (a : Word) : (s.cmdError c a).build = s.build := rfl
@[simp] theorem cmdError_platform (s : State) (c : ErrCode) (a : Word) : (s.cmdError c a).platform = s.platform := rfl
@[simp] theorem cmdError_ie (s : State) (c : ErrCode) (a : Word) : (s.cmdError c a).ie = s.ie := rfl
@[simp] theorem cmdError_cmd (s : State) (c : ErrCode) (a : Word) : (s.cmdError c a).cmd = s.cmd := rfl
@[simp] theorem cmdError_done (s : State) (c : ErrCode) (a : Word) : (s.cmdError c a).done = true := rfl
@[simp] theorem cmdError_err (s : State) (c : ErrCode) (a : Word) : (s.cmdError c a).err = true := rfl
@[simp] theorem cmdError_drop (s : State) (c : ErrCode) (a : Word) : (s.cmdError c a).drop = s.drop := rfl
@[simp] theorem cmdError_errcode (s : State) (c : ErrCode) (a : Word) : (s.cmdError c a).errcode = c := rfl
@[simp] theorem cmdError_srcAddr (s : State) (c : ErrCode) (a : Word) : (s.cmdError c a).srcAddr = s.srcAddr := rfl
@[simp] theorem cmdError_length (s : State) (c : ErrCode) (a : Word) : (s.cmdError c a).length = s.length := rfl
@[simp] theorem cmdError_seedLo (s : State) (c : ErrCode) (a : Word) : (s.cmdError c a).seedLo = s.seedLo := rfl
@[simp] theorem cmdError_seedHi (s : State) (c : ErrCode) (a : Word) : (s.cmdError c a).seedHi = s.seedHi := rfl
@[simp] theorem cmdError_resultLo (s : State) (c : ErrCode) (a : Word) : (s.cmdError c a).resultLo = s.resultLo := rfl
@[simp] theorem cmdError_resultHi (s : State) (c : ErrCode) (a : Word) : (s.cmdError c a).resultHi = s.resultHi := rfl
@[simp] theorem cmdError_count (s : State) (c : ErrCode) (a : Word) : (s.cmdError c a).count = s.count := rfl
@[simp] theorem cmdError_errAddr (s : State) (c : ErrCode) (a : Word) : (s.cmdError c a).errAddr = a := rfl
@[simp] theorem cmdError_tabIndex (s : State) (c : ErrCode) (a : Word) : (s.cmdError c a).tabIndex = s.tabIndex := rfl
@[simp] theorem cmdError_phase (s : State) (c : ErrCode) (a : Word) : (s.cmdError c a).phase = .idle := rfl
@[simp] theorem cmdError_lat (s : State) (c : ErrCode) (a : Word) : (s.cmdError c a).lat = s.lat := rfl
@[simp] theorem cmdError_cursor (s : State) (c : ErrCode) (a : Word) : (s.cmdError c a).cursor = 0 := rfl
@[simp] theorem cmdError_acc (s : State) (c : ErrCode) (a : Word) : (s.cmdError c a).acc = 0#64 := rfl
@[simp] theorem cmdError_tail (s : State) (c : ErrCode) (a : Word) : (s.cmdError c a).tail = [] := rfl
@[simp] theorem cmdError_len (s : State) (c : ErrCode) (a : Word) : (s.cmdError c a).len = 0 := rfl
@[simp] theorem cmdError_tgen (s : State) (c : ErrCode) (a : Word) : (s.cmdError c a).tgen = s.tgen := rfl
@[simp] theorem cmdError_table (s : State) (c : ErrCode) (a : Word) : (s.cmdError c a).table = s.table := rfl
@[simp] theorem cmdError_mem (s : State) (c : ErrCode) (a : Word) : (s.cmdError c a).mem = s.mem := rfl
@[simp] theorem cmdError_resetLine (s : State) (c : ErrCode) (a : Word) : (s.cmdError c a).resetLine = s.resetLine := rfl
@[simp] theorem cmdError_script (s : State) (c : ErrCode) (a : Word) : (s.cmdError c a).script = s.script := rfl
@[simp] theorem cmdError_response (s : State) (c : ErrCode) (a : Word) : (s.cmdError c a).response = s.response := rfl
@[simp] theorem cmdError_sched (s : State) (c : ErrCode) (a : Word) : (s.cmdError c a).sched = s.sched := rfl
@[simp] theorem cmdError_dirty (s : State) (c : ErrCode) (a : Word) : (s.cmdError c a).dirty = [] := rfl
@[simp] theorem cmdError_past (s : State) (c : ErrCode) (a : Word) : (s.cmdError c a).past = [] := rfl
@[simp] theorem cmdError_draws (s : State) (c : ErrCode) (a : Word) : (s.cmdError c a).draws = s.draws := rfl
@[simp] theorem cmdError_turns (s : State) (c : ErrCode) (a : Word) : (s.cmdError c a).turns = s.turns := rfl

@[simp] theorem complete_build (s : State) (h : Digest) (n : Nat) : (s.complete h n).build = s.build := rfl
@[simp] theorem complete_platform (s : State) (h : Digest) (n : Nat) : (s.complete h n).platform = s.platform := rfl
@[simp] theorem complete_ie (s : State) (h : Digest) (n : Nat) : (s.complete h n).ie = s.ie := rfl
@[simp] theorem complete_cmd (s : State) (h : Digest) (n : Nat) : (s.complete h n).cmd = s.cmd := rfl
@[simp] theorem complete_done (s : State) (h : Digest) (n : Nat) : (s.complete h n).done = true := rfl
@[simp] theorem complete_err (s : State) (h : Digest) (n : Nat) : (s.complete h n).err = false := rfl
@[simp] theorem complete_drop (s : State) (h : Digest) (n : Nat) : (s.complete h n).drop = s.drop := rfl
@[simp] theorem complete_errcode (s : State) (h : Digest) (n : Nat) : (s.complete h n).errcode = .none := rfl
@[simp] theorem complete_srcAddr (s : State) (h : Digest) (n : Nat) : (s.complete h n).srcAddr = s.srcAddr := rfl
@[simp] theorem complete_length (s : State) (h : Digest) (n : Nat) : (s.complete h n).length = s.length := rfl
@[simp] theorem complete_seedLo (s : State) (h : Digest) (n : Nat) : (s.complete h n).seedLo = s.seedLo := rfl
@[simp] theorem complete_seedHi (s : State) (h : Digest) (n : Nat) : (s.complete h n).seedHi = s.seedHi := rfl
@[simp] theorem complete_resultLo (s : State) (h : Digest) (n : Nat) : (s.complete h n).resultLo = h.lo := rfl
@[simp] theorem complete_resultHi (s : State) (h : Digest) (n : Nat) : (s.complete h n).resultHi = h.hi := rfl
@[simp] theorem complete_count (s : State) (h : Digest) (n : Nat) : (s.complete h n).count = BitVec.ofNat 32 n := rfl
@[simp] theorem complete_errAddr (s : State) (h : Digest) (n : Nat) : (s.complete h n).errAddr = s.errAddr := rfl
@[simp] theorem complete_tabIndex (s : State) (h : Digest) (n : Nat) : (s.complete h n).tabIndex = s.tabIndex := rfl
@[simp] theorem complete_phase (s : State) (h : Digest) (n : Nat) : (s.complete h n).phase = .idle := rfl
@[simp] theorem complete_lat (s : State) (h : Digest) (n : Nat) : (s.complete h n).lat = s.lat := rfl
@[simp] theorem complete_cursor (s : State) (h : Digest) (n : Nat) : (s.complete h n).cursor = 0 := rfl
@[simp] theorem complete_acc (s : State) (h : Digest) (n : Nat) : (s.complete h n).acc = 0#64 := rfl
@[simp] theorem complete_tail (s : State) (h : Digest) (n : Nat) : (s.complete h n).tail = [] := rfl
@[simp] theorem complete_len (s : State) (h : Digest) (n : Nat) : (s.complete h n).len = 0 := rfl
@[simp] theorem complete_tgen (s : State) (h : Digest) (n : Nat) : (s.complete h n).tgen = s.tgen := rfl
@[simp] theorem complete_table (s : State) (h : Digest) (n : Nat) : (s.complete h n).table = s.table := rfl
@[simp] theorem complete_mem (s : State) (h : Digest) (n : Nat) : (s.complete h n).mem = s.mem := rfl
@[simp] theorem complete_resetLine (s : State) (h : Digest) (n : Nat) : (s.complete h n).resetLine = s.resetLine := rfl
@[simp] theorem complete_script (s : State) (h : Digest) (n : Nat) : (s.complete h n).script = s.script := rfl
@[simp] theorem complete_response (s : State) (h : Digest) (n : Nat) : (s.complete h n).response = s.response := rfl
@[simp] theorem complete_sched (s : State) (h : Digest) (n : Nat) : (s.complete h n).sched = s.sched := rfl
@[simp] theorem complete_dirty (s : State) (h : Digest) (n : Nat) : (s.complete h n).dirty = [] := rfl
@[simp] theorem complete_past (s : State) (h : Digest) (n : Nat) : (s.complete h n).past = [] := rfl
@[simp] theorem complete_draws (s : State) (h : Digest) (n : Nat) : (s.complete h n).draws = s.draws := rfl
@[simp] theorem complete_turns (s : State) (h : Digest) (n : Nat) : (s.complete h n).turns = s.turns := rfl

@[simp] theorem softReset_build (s : State) : s.softReset.build = s.build := rfl
@[simp] theorem softReset_platform (s : State) : s.softReset.platform = s.platform := rfl
@[simp] theorem softReset_ie (s : State) : s.softReset.ie = s.ie := rfl
@[simp] theorem softReset_cmd (s : State) : s.softReset.cmd = s.cmd := rfl
@[simp] theorem softReset_done (s : State) : s.softReset.done = false := rfl
@[simp] theorem softReset_err (s : State) : s.softReset.err = false := rfl
@[simp] theorem softReset_drop (s : State) : s.softReset.drop = false := rfl
@[simp] theorem softReset_errcode (s : State) : s.softReset.errcode = .none := rfl
@[simp] theorem softReset_srcAddr (s : State) : s.softReset.srcAddr = s.srcAddr := rfl
@[simp] theorem softReset_length (s : State) : s.softReset.length = s.length := rfl
@[simp] theorem softReset_seedLo (s : State) : s.softReset.seedLo = s.seedLo := rfl
@[simp] theorem softReset_seedHi (s : State) : s.softReset.seedHi = s.seedHi := rfl
@[simp] theorem softReset_resultLo (s : State) : s.softReset.resultLo = s.resultLo := rfl
@[simp] theorem softReset_resultHi (s : State) : s.softReset.resultHi = s.resultHi := rfl
@[simp] theorem softReset_count (s : State) : s.softReset.count = s.count := rfl
@[simp] theorem softReset_errAddr (s : State) : s.softReset.errAddr = s.errAddr := rfl
@[simp] theorem softReset_tabIndex (s : State) : s.softReset.tabIndex = s.tabIndex := rfl
@[simp] theorem softReset_phase (s : State) : s.softReset.phase = .idle := rfl
@[simp] theorem softReset_lat (s : State) : s.softReset.lat = s.lat := rfl
@[simp] theorem softReset_cursor (s : State) : s.softReset.cursor = 0 := rfl
@[simp] theorem softReset_acc (s : State) : s.softReset.acc = 0#64 := rfl
@[simp] theorem softReset_tail (s : State) : s.softReset.tail = [] := rfl
@[simp] theorem softReset_len (s : State) : s.softReset.len = 0 := rfl
@[simp] theorem softReset_tgen (s : State) : s.softReset.tgen = s.tgen := rfl
@[simp] theorem softReset_table (s : State) : s.softReset.table = s.table := rfl
@[simp] theorem softReset_mem (s : State) : s.softReset.mem = s.mem := rfl
@[simp] theorem softReset_resetLine (s : State) : s.softReset.resetLine = s.resetLine := rfl
@[simp] theorem softReset_script (s : State) : s.softReset.script = s.script := rfl
@[simp] theorem softReset_response (s : State) : s.softReset.response = s.response := rfl
@[simp] theorem softReset_sched (s : State) : s.softReset.sched = s.sched := rfl
@[simp] theorem softReset_dirty (s : State) : s.softReset.dirty = [] := rfl
@[simp] theorem softReset_past (s : State) : s.softReset.past = [] := rfl
@[simp] theorem softReset_draws (s : State) : s.softReset.draws = s.draws := rfl
@[simp] theorem softReset_turns (s : State) : s.softReset.turns = s.turns := rfl

@[simp] theorem writeStatus_build (s : State) (v : Word) : (s.writeStatus v).build = s.build := rfl
@[simp] theorem writeStatus_platform (s : State) (v : Word) : (s.writeStatus v).platform = s.platform := rfl
@[simp] theorem writeStatus_ie (s : State) (v : Word) : (s.writeStatus v).ie = s.ie := rfl
@[simp] theorem writeStatus_cmd (s : State) (v : Word) : (s.writeStatus v).cmd = s.cmd := rfl
@[simp] theorem writeStatus_done (s : State) (v : Word) : (s.writeStatus v).done = (s.done && !v.getLsbD 1) := rfl
@[simp] theorem writeStatus_err (s : State) (v : Word) : (s.writeStatus v).err = (s.err && !v.getLsbD 2) := rfl
@[simp] theorem writeStatus_drop (s : State) (v : Word) : (s.writeStatus v).drop = (s.drop && !v.getLsbD 4) := rfl
@[simp] theorem writeStatus_errcode (s : State) (v : Word) : (s.writeStatus v).errcode = if v.getLsbD 2 then .none else s.errcode := rfl
@[simp] theorem writeStatus_srcAddr (s : State) (v : Word) : (s.writeStatus v).srcAddr = s.srcAddr := rfl
@[simp] theorem writeStatus_length (s : State) (v : Word) : (s.writeStatus v).length = s.length := rfl
@[simp] theorem writeStatus_seedLo (s : State) (v : Word) : (s.writeStatus v).seedLo = s.seedLo := rfl
@[simp] theorem writeStatus_seedHi (s : State) (v : Word) : (s.writeStatus v).seedHi = s.seedHi := rfl
@[simp] theorem writeStatus_resultLo (s : State) (v : Word) : (s.writeStatus v).resultLo = s.resultLo := rfl
@[simp] theorem writeStatus_resultHi (s : State) (v : Word) : (s.writeStatus v).resultHi = s.resultHi := rfl
@[simp] theorem writeStatus_count (s : State) (v : Word) : (s.writeStatus v).count = s.count := rfl
@[simp] theorem writeStatus_errAddr (s : State) (v : Word) : (s.writeStatus v).errAddr = s.errAddr := rfl
@[simp] theorem writeStatus_tabIndex (s : State) (v : Word) : (s.writeStatus v).tabIndex = s.tabIndex := rfl
@[simp] theorem writeStatus_phase (s : State) (v : Word) : (s.writeStatus v).phase = s.phase := rfl
@[simp] theorem writeStatus_lat (s : State) (v : Word) : (s.writeStatus v).lat = s.lat := rfl
@[simp] theorem writeStatus_cursor (s : State) (v : Word) : (s.writeStatus v).cursor = s.cursor := rfl
@[simp] theorem writeStatus_acc (s : State) (v : Word) : (s.writeStatus v).acc = s.acc := rfl
@[simp] theorem writeStatus_tail (s : State) (v : Word) : (s.writeStatus v).tail = s.tail := rfl
@[simp] theorem writeStatus_len (s : State) (v : Word) : (s.writeStatus v).len = s.len := rfl
@[simp] theorem writeStatus_tgen (s : State) (v : Word) : (s.writeStatus v).tgen = s.tgen := rfl
@[simp] theorem writeStatus_table (s : State) (v : Word) : (s.writeStatus v).table = s.table := rfl
@[simp] theorem writeStatus_mem (s : State) (v : Word) : (s.writeStatus v).mem = s.mem := rfl
@[simp] theorem writeStatus_resetLine (s : State) (v : Word) : (s.writeStatus v).resetLine = s.resetLine := rfl
@[simp] theorem writeStatus_script (s : State) (v : Word) : (s.writeStatus v).script = s.script := rfl
@[simp] theorem writeStatus_response (s : State) (v : Word) : (s.writeStatus v).response = s.response := rfl
@[simp] theorem writeStatus_sched (s : State) (v : Word) : (s.writeStatus v).sched = s.sched := rfl
@[simp] theorem writeStatus_dirty (s : State) (v : Word) : (s.writeStatus v).dirty = s.dirty := rfl
@[simp] theorem writeStatus_past (s : State) (v : Word) : (s.writeStatus v).past = s.past := rfl
@[simp] theorem writeStatus_draws (s : State) (v : Word) : (s.writeStatus v).draws = s.draws := rfl
@[simp] theorem writeStatus_turns (s : State) (v : Word) : (s.writeStatus v).turns = s.turns := rfl

@[simp] theorem beginHash_build (s : State) (i : Instr) (n : Nat) : (s.beginHash i n).build = s.build := rfl
@[simp] theorem beginHash_platform (s : State) (i : Instr) (n : Nat) : (s.beginHash i n).platform = s.platform := rfl
@[simp] theorem beginHash_ie (s : State) (i : Instr) (n : Nat) : (s.beginHash i n).ie = s.ie := rfl
@[simp] theorem beginHash_cmd (s : State) (i : Instr) (n : Nat) : (s.beginHash i n).cmd = s.cmd := rfl
@[simp] theorem beginHash_done (s : State) (i : Instr) (n : Nat) : (s.beginHash i n).done = s.done := rfl
@[simp] theorem beginHash_err (s : State) (i : Instr) (n : Nat) : (s.beginHash i n).err = s.err := rfl
@[simp] theorem beginHash_drop (s : State) (i : Instr) (n : Nat) : (s.beginHash i n).drop = s.drop := rfl
@[simp] theorem beginHash_errcode (s : State) (i : Instr) (n : Nat) : (s.beginHash i n).errcode = s.errcode := rfl
@[simp] theorem beginHash_srcAddr (s : State) (i : Instr) (n : Nat) : (s.beginHash i n).srcAddr = s.srcAddr := rfl
@[simp] theorem beginHash_length (s : State) (i : Instr) (n : Nat) : (s.beginHash i n).length = s.length := rfl
@[simp] theorem beginHash_seedLo (s : State) (i : Instr) (n : Nat) : (s.beginHash i n).seedLo = s.seedLo := rfl
@[simp] theorem beginHash_seedHi (s : State) (i : Instr) (n : Nat) : (s.beginHash i n).seedHi = s.seedHi := rfl
@[simp] theorem beginHash_resultLo (s : State) (i : Instr) (n : Nat) : (s.beginHash i n).resultLo = s.resultLo := rfl
@[simp] theorem beginHash_resultHi (s : State) (i : Instr) (n : Nat) : (s.beginHash i n).resultHi = s.resultHi := rfl
@[simp] theorem beginHash_count (s : State) (i : Instr) (n : Nat) : (s.beginHash i n).count = s.count := rfl
@[simp] theorem beginHash_errAddr (s : State) (i : Instr) (n : Nat) : (s.beginHash i n).errAddr = s.errAddr := rfl
@[simp] theorem beginHash_tabIndex (s : State) (i : Instr) (n : Nat) : (s.beginHash i n).tabIndex = s.tabIndex := rfl
@[simp] theorem beginHash_phase (s : State) (i : Instr) (n : Nat) : (s.beginHash i n).phase = .hash i := rfl
@[simp] theorem beginHash_lat (s : State) (i : Instr) (n : Nat) : (s.beginHash i n).lat = s.lat := rfl
@[simp] theorem beginHash_cursor (s : State) (i : Instr) (n : Nat) : (s.beginHash i n).cursor = 0 := rfl
@[simp] theorem beginHash_acc (s : State) (i : Instr) (n : Nat) : (s.beginHash i n).acc = startAcc s i n := rfl
@[simp] theorem beginHash_tail (s : State) (i : Instr) (n : Nat) : (s.beginHash i n).tail = [] := rfl
@[simp] theorem beginHash_len (s : State) (i : Instr) (n : Nat) : (s.beginHash i n).len = n := rfl
@[simp] theorem beginHash_tgen (s : State) (i : Instr) (n : Nat) : (s.beginHash i n).tgen = s.tgen := rfl
@[simp] theorem beginHash_table (s : State) (i : Instr) (n : Nat) : (s.beginHash i n).table = s.table := rfl
@[simp] theorem beginHash_mem (s : State) (i : Instr) (n : Nat) : (s.beginHash i n).mem = s.mem := rfl
@[simp] theorem beginHash_resetLine (s : State) (i : Instr) (n : Nat) : (s.beginHash i n).resetLine = s.resetLine := rfl
@[simp] theorem beginHash_script (s : State) (i : Instr) (n : Nat) : (s.beginHash i n).script = s.script := rfl
@[simp] theorem beginHash_response (s : State) (i : Instr) (n : Nat) : (s.beginHash i n).response = s.response := rfl
@[simp] theorem beginHash_sched (s : State) (i : Instr) (n : Nat) : (s.beginHash i n).sched = s.sched := rfl
@[simp] theorem beginHash_dirty (s : State) (i : Instr) (n : Nat) : (s.beginHash i n).dirty = s.dirty := rfl
@[simp] theorem beginHash_past (s : State) (i : Instr) (n : Nat) : (s.beginHash i n).past = s.past := rfl
@[simp] theorem beginHash_draws (s : State) (i : Instr) (n : Nat) : (s.beginHash i n).draws = s.draws := rfl
@[simp] theorem beginHash_turns (s : State) (i : Instr) (n : Nat) : (s.beginHash i n).turns = s.turns := rfl

@[simp] theorem consume_build (s : State) (i : Instr) (v : Byte) : (s.consume i v).build = s.build := rfl
@[simp] theorem consume_platform (s : State) (i : Instr) (v : Byte) : (s.consume i v).platform = s.platform := rfl
@[simp] theorem consume_ie (s : State) (i : Instr) (v : Byte) : (s.consume i v).ie = s.ie := rfl
@[simp] theorem consume_cmd (s : State) (i : Instr) (v : Byte) : (s.consume i v).cmd = s.cmd := rfl
@[simp] theorem consume_done (s : State) (i : Instr) (v : Byte) : (s.consume i v).done = s.done := rfl
@[simp] theorem consume_err (s : State) (i : Instr) (v : Byte) : (s.consume i v).err = s.err := rfl
@[simp] theorem consume_drop (s : State) (i : Instr) (v : Byte) : (s.consume i v).drop = s.drop := rfl
@[simp] theorem consume_errcode (s : State) (i : Instr) (v : Byte) : (s.consume i v).errcode = s.errcode := rfl
@[simp] theorem consume_srcAddr (s : State) (i : Instr) (v : Byte) : (s.consume i v).srcAddr = s.srcAddr := rfl
@[simp] theorem consume_length (s : State) (i : Instr) (v : Byte) : (s.consume i v).length = s.length := rfl
@[simp] theorem consume_seedLo (s : State) (i : Instr) (v : Byte) : (s.consume i v).seedLo = s.seedLo := rfl
@[simp] theorem consume_seedHi (s : State) (i : Instr) (v : Byte) : (s.consume i v).seedHi = s.seedHi := rfl
@[simp] theorem consume_resultLo (s : State) (i : Instr) (v : Byte) : (s.consume i v).resultLo = s.resultLo := rfl
@[simp] theorem consume_resultHi (s : State) (i : Instr) (v : Byte) : (s.consume i v).resultHi = s.resultHi := rfl
@[simp] theorem consume_count (s : State) (i : Instr) (v : Byte) : (s.consume i v).count = s.count := rfl
@[simp] theorem consume_errAddr (s : State) (i : Instr) (v : Byte) : (s.consume i v).errAddr = s.errAddr := rfl
@[simp] theorem consume_tabIndex (s : State) (i : Instr) (v : Byte) : (s.consume i v).tabIndex = s.tabIndex := rfl
@[simp] theorem consume_phase (s : State) (i : Instr) (v : Byte) : (s.consume i v).phase = s.phase := rfl
@[simp] theorem consume_lat (s : State) (i : Instr) (v : Byte) : (s.consume i v).lat = s.lat := rfl
@[simp] theorem consume_cursor (s : State) (i : Instr) (v : Byte) : (s.consume i v).cursor = s.cursor + 1 := rfl
@[simp] theorem consume_acc (s : State) (i : Instr) (v : Byte) : (s.consume i v).acc = (absorb s i.alg s.acc s.tail v).1 := rfl
@[simp] theorem consume_tail (s : State) (i : Instr) (v : Byte) : (s.consume i v).tail = (absorb s i.alg s.acc s.tail v).2 := rfl
@[simp] theorem consume_len (s : State) (i : Instr) (v : Byte) : (s.consume i v).len = s.len := rfl
@[simp] theorem consume_tgen (s : State) (i : Instr) (v : Byte) : (s.consume i v).tgen = s.tgen := rfl
@[simp] theorem consume_table (s : State) (i : Instr) (v : Byte) : (s.consume i v).table = s.table := rfl
@[simp] theorem consume_mem (s : State) (i : Instr) (v : Byte) : (s.consume i v).mem = s.mem := rfl
@[simp] theorem consume_resetLine (s : State) (i : Instr) (v : Byte) : (s.consume i v).resetLine = s.resetLine := rfl
@[simp] theorem consume_script (s : State) (i : Instr) (v : Byte) : (s.consume i v).script = s.script := rfl
@[simp] theorem consume_response (s : State) (i : Instr) (v : Byte) : (s.consume i v).response = s.response := rfl
@[simp] theorem consume_sched (s : State) (i : Instr) (v : Byte) : (s.consume i v).sched = s.sched := rfl
@[simp] theorem consume_dirty (s : State) (i : Instr) (v : Byte) : (s.consume i v).dirty = s.dirty := rfl
@[simp] theorem consume_past (s : State) (i : Instr) (v : Byte) : (s.consume i v).past = s.past ++ [.read v] := rfl
@[simp] theorem consume_draws (s : State) (i : Instr) (v : Byte) : (s.consume i v).draws = s.draws := rfl
@[simp] theorem consume_turns (s : State) (i : Instr) (v : Byte) : (s.consume i v).turns = s.turns := rfl

@[simp] theorem writeMem_build (s : State) (a : Nat) (b : List Byte) : (s.writeMem a b).build = s.build := rfl
@[simp] theorem writeMem_platform (s : State) (a : Nat) (b : List Byte) : (s.writeMem a b).platform = s.platform := rfl
@[simp] theorem writeMem_ie (s : State) (a : Nat) (b : List Byte) : (s.writeMem a b).ie = s.ie := rfl
@[simp] theorem writeMem_cmd (s : State) (a : Nat) (b : List Byte) : (s.writeMem a b).cmd = s.cmd := rfl
@[simp] theorem writeMem_done (s : State) (a : Nat) (b : List Byte) : (s.writeMem a b).done = s.done := rfl
@[simp] theorem writeMem_err (s : State) (a : Nat) (b : List Byte) : (s.writeMem a b).err = s.err := rfl
@[simp] theorem writeMem_drop (s : State) (a : Nat) (b : List Byte) : (s.writeMem a b).drop = s.drop := rfl
@[simp] theorem writeMem_errcode (s : State) (a : Nat) (b : List Byte) : (s.writeMem a b).errcode = s.errcode := rfl
@[simp] theorem writeMem_srcAddr (s : State) (a : Nat) (b : List Byte) : (s.writeMem a b).srcAddr = s.srcAddr := rfl
@[simp] theorem writeMem_length (s : State) (a : Nat) (b : List Byte) : (s.writeMem a b).length = s.length := rfl
@[simp] theorem writeMem_seedLo (s : State) (a : Nat) (b : List Byte) : (s.writeMem a b).seedLo = s.seedLo := rfl
@[simp] theorem writeMem_seedHi (s : State) (a : Nat) (b : List Byte) : (s.writeMem a b).seedHi = s.seedHi := rfl
@[simp] theorem writeMem_resultLo (s : State) (a : Nat) (b : List Byte) : (s.writeMem a b).resultLo = s.resultLo := rfl
@[simp] theorem writeMem_resultHi (s : State) (a : Nat) (b : List Byte) : (s.writeMem a b).resultHi = s.resultHi := rfl
@[simp] theorem writeMem_count (s : State) (a : Nat) (b : List Byte) : (s.writeMem a b).count = s.count := rfl
@[simp] theorem writeMem_errAddr (s : State) (a : Nat) (b : List Byte) : (s.writeMem a b).errAddr = s.errAddr := rfl
@[simp] theorem writeMem_tabIndex (s : State) (a : Nat) (b : List Byte) : (s.writeMem a b).tabIndex = s.tabIndex := rfl
@[simp] theorem writeMem_phase (s : State) (a : Nat) (b : List Byte) : (s.writeMem a b).phase = s.phase := rfl
@[simp] theorem writeMem_lat (s : State) (a : Nat) (b : List Byte) : (s.writeMem a b).lat = s.lat := rfl
@[simp] theorem writeMem_cursor (s : State) (a : Nat) (b : List Byte) : (s.writeMem a b).cursor = s.cursor := rfl
@[simp] theorem writeMem_acc (s : State) (a : Nat) (b : List Byte) : (s.writeMem a b).acc = s.acc := rfl
@[simp] theorem writeMem_tail (s : State) (a : Nat) (b : List Byte) : (s.writeMem a b).tail = s.tail := rfl
@[simp] theorem writeMem_len (s : State) (a : Nat) (b : List Byte) : (s.writeMem a b).len = s.len := rfl
@[simp] theorem writeMem_tgen (s : State) (a : Nat) (b : List Byte) : (s.writeMem a b).tgen = s.tgen := rfl
@[simp] theorem writeMem_table (s : State) (a : Nat) (b : List Byte) : (s.writeMem a b).table = s.table := rfl
@[simp] theorem writeMem_mem (s : State) (a : Nat) (b : List Byte) : (s.writeMem a b).mem = s.mem.writeAll a b := rfl
@[simp] theorem writeMem_resetLine (s : State) (a : Nat) (b : List Byte) : (s.writeMem a b).resetLine = s.resetLine := rfl
@[simp] theorem writeMem_script (s : State) (a : Nat) (b : List Byte) : (s.writeMem a b).script = s.script := rfl
@[simp] theorem writeMem_response (s : State) (a : Nat) (b : List Byte) : (s.writeMem a b).response = s.response := rfl
@[simp] theorem writeMem_sched (s : State) (a : Nat) (b : List Byte) : (s.writeMem a b).sched = s.sched := rfl
@[simp] theorem writeMem_dirty (s : State) (a : Nat) (b : List Byte) : (s.writeMem a b).dirty = if s.busy then s.dirty ++ (List.range b.length).map (a + ·) else s.dirty := rfl
@[simp] theorem writeMem_past (s : State) (a : Nat) (b : List Byte) : (s.writeMem a b).past = s.pastChange := rfl
@[simp] theorem writeMem_draws (s : State) (a : Nat) (b : List Byte) : (s.writeMem a b).draws = s.draws := rfl
@[simp] theorem writeMem_turns (s : State) (a : Nat) (b : List Byte) : (s.writeMem a b).turns = s.turns := rfl

@[simp] theorem faultMem_build (s : State) (a : Word) : (s.faultMem a).build = s.build := rfl
@[simp] theorem faultMem_platform (s : State) (a : Word) : (s.faultMem a).platform = s.platform := rfl
@[simp] theorem faultMem_ie (s : State) (a : Word) : (s.faultMem a).ie = s.ie := rfl
@[simp] theorem faultMem_cmd (s : State) (a : Word) : (s.faultMem a).cmd = s.cmd := rfl
@[simp] theorem faultMem_done (s : State) (a : Word) : (s.faultMem a).done = s.done := rfl
@[simp] theorem faultMem_err (s : State) (a : Word) : (s.faultMem a).err = s.err := rfl
@[simp] theorem faultMem_drop (s : State) (a : Word) : (s.faultMem a).drop = s.drop := rfl
@[simp] theorem faultMem_errcode (s : State) (a : Word) : (s.faultMem a).errcode = s.errcode := rfl
@[simp] theorem faultMem_srcAddr (s : State) (a : Word) : (s.faultMem a).srcAddr = s.srcAddr := rfl
@[simp] theorem faultMem_length (s : State) (a : Word) : (s.faultMem a).length = s.length := rfl
@[simp] theorem faultMem_seedLo (s : State) (a : Word) : (s.faultMem a).seedLo = s.seedLo := rfl
@[simp] theorem faultMem_seedHi (s : State) (a : Word) : (s.faultMem a).seedHi = s.seedHi := rfl
@[simp] theorem faultMem_resultLo (s : State) (a : Word) : (s.faultMem a).resultLo = s.resultLo := rfl
@[simp] theorem faultMem_resultHi (s : State) (a : Word) : (s.faultMem a).resultHi = s.resultHi := rfl
@[simp] theorem faultMem_count (s : State) (a : Word) : (s.faultMem a).count = s.count := rfl
@[simp] theorem faultMem_errAddr (s : State) (a : Word) : (s.faultMem a).errAddr = s.errAddr := rfl
@[simp] theorem faultMem_tabIndex (s : State) (a : Word) : (s.faultMem a).tabIndex = s.tabIndex := rfl
@[simp] theorem faultMem_phase (s : State) (a : Word) : (s.faultMem a).phase = s.phase := rfl
@[simp] theorem faultMem_lat (s : State) (a : Word) : (s.faultMem a).lat = s.lat := rfl
@[simp] theorem faultMem_cursor (s : State) (a : Word) : (s.faultMem a).cursor = s.cursor := rfl
@[simp] theorem faultMem_acc (s : State) (a : Word) : (s.faultMem a).acc = s.acc := rfl
@[simp] theorem faultMem_tail (s : State) (a : Word) : (s.faultMem a).tail = s.tail := rfl
@[simp] theorem faultMem_len (s : State) (a : Word) : (s.faultMem a).len = s.len := rfl
@[simp] theorem faultMem_tgen (s : State) (a : Word) : (s.faultMem a).tgen = s.tgen := rfl
@[simp] theorem faultMem_table (s : State) (a : Word) : (s.faultMem a).table = s.table := rfl
@[simp] theorem faultMem_mem (s : State) (a : Word) : (s.faultMem a).mem = s.mem.erase a.toNat := rfl
@[simp] theorem faultMem_resetLine (s : State) (a : Word) : (s.faultMem a).resetLine = s.resetLine := rfl
@[simp] theorem faultMem_script (s : State) (a : Word) : (s.faultMem a).script = s.script := rfl
@[simp] theorem faultMem_response (s : State) (a : Word) : (s.faultMem a).response = s.response := rfl
@[simp] theorem faultMem_sched (s : State) (a : Word) : (s.faultMem a).sched = s.sched := rfl
@[simp] theorem faultMem_dirty (s : State) (a : Word) : (s.faultMem a).dirty = s.dirty := rfl
@[simp] theorem faultMem_past (s : State) (a : Word) : (s.faultMem a).past = s.pastChange := rfl
@[simp] theorem faultMem_draws (s : State) (a : Word) : (s.faultMem a).draws = s.draws := rfl
@[simp] theorem faultMem_turns (s : State) (a : Word) : (s.faultMem a).turns = s.turns := rfl

@[simp] theorem hardReset_build (s : State) : s.hardReset.build = s.build := rfl
@[simp] theorem hardReset_platform (s : State) : s.hardReset.platform = s.platform := rfl
@[simp] theorem hardReset_ie (s : State) : s.hardReset.ie = false := rfl
@[simp] theorem hardReset_cmd (s : State) : s.hardReset.cmd = 0#32 := rfl
@[simp] theorem hardReset_done (s : State) : s.hardReset.done = false := rfl
@[simp] theorem hardReset_err (s : State) : s.hardReset.err = false := rfl
@[simp] theorem hardReset_drop (s : State) : s.hardReset.drop = false := rfl
@[simp] theorem hardReset_errcode (s : State) : s.hardReset.errcode = .none := rfl
@[simp] theorem hardReset_srcAddr (s : State) : s.hardReset.srcAddr = 0#32 := rfl
@[simp] theorem hardReset_length (s : State) : s.hardReset.length = 0#32 := rfl
@[simp] theorem hardReset_seedLo (s : State) : s.hardReset.seedLo = 0#32 := rfl
@[simp] theorem hardReset_seedHi (s : State) : s.hardReset.seedHi = 0#32 := rfl
@[simp] theorem hardReset_resultLo (s : State) : s.hardReset.resultLo = 0#32 := rfl
@[simp] theorem hardReset_resultHi (s : State) : s.hardReset.resultHi = 0#32 := rfl
@[simp] theorem hardReset_count (s : State) : s.hardReset.count = 0#32 := rfl
@[simp] theorem hardReset_errAddr (s : State) : s.hardReset.errAddr = 0#32 := rfl
@[simp] theorem hardReset_tabIndex (s : State) : s.hardReset.tabIndex = 0#8 := rfl
@[simp] theorem hardReset_phase (s : State) : s.hardReset.phase = .idle := rfl
@[simp] theorem hardReset_lat (s : State) : s.hardReset.lat = Lat.unused := rfl
@[simp] theorem hardReset_cursor (s : State) : s.hardReset.cursor = 0 := rfl
@[simp] theorem hardReset_acc (s : State) : s.hardReset.acc = 0#64 := rfl
@[simp] theorem hardReset_tail (s : State) : s.hardReset.tail = [] := rfl
@[simp] theorem hardReset_len (s : State) : s.hardReset.len = 0 := rfl
@[simp] theorem hardReset_tgen (s : State) : s.hardReset.tgen = if s.build.crcTableEn then .fill 0 else .absent := rfl
@[simp] theorem hardReset_table (s : State) : s.hardReset.table = List.replicate 256 0#32 := by rw [hardReset]; rfl
@[simp] theorem hardReset_mem (s : State) : s.hardReset.mem = s.mem := rfl
@[simp] theorem hardReset_resetLine (s : State) : s.hardReset.resetLine = false := rfl
@[simp] theorem hardReset_script (s : State) : s.hardReset.script = s.script := rfl
@[simp] theorem hardReset_response (s : State) : s.hardReset.response = s.response := rfl
@[simp] theorem hardReset_sched (s : State) : s.hardReset.sched = s.sched := rfl
@[simp] theorem hardReset_dirty (s : State) : s.hardReset.dirty = [] := rfl
@[simp] theorem hardReset_past (s : State) : s.hardReset.past = [] := rfl
@[simp] theorem hardReset_draws (s : State) : s.hardReset.draws = s.draws := rfl
@[simp] theorem hardReset_turns (s : State) : s.hardReset.turns = s.turns := rfl

@[simp] theorem tableStep_build (s : State) : s.tableStep.build = s.build := by
  unfold tableStep; split <;> rfl
@[simp] theorem tableStep_platform (s : State) : s.tableStep.platform = s.platform := by
  unfold tableStep; split <;> rfl
@[simp] theorem tableStep_ie (s : State) : s.tableStep.ie = s.ie := by
  unfold tableStep; split <;> rfl
@[simp] theorem tableStep_cmd (s : State) : s.tableStep.cmd = s.cmd := by
  unfold tableStep; split <;> rfl
@[simp] theorem tableStep_done (s : State) : s.tableStep.done = s.done := by
  unfold tableStep; split <;> rfl
@[simp] theorem tableStep_err (s : State) : s.tableStep.err = s.err := by
  unfold tableStep; split <;> rfl
@[simp] theorem tableStep_drop (s : State) : s.tableStep.drop = s.drop := by
  unfold tableStep; split <;> rfl
@[simp] theorem tableStep_errcode (s : State) : s.tableStep.errcode = s.errcode := by
  unfold tableStep; split <;> rfl
@[simp] theorem tableStep_srcAddr (s : State) : s.tableStep.srcAddr = s.srcAddr := by
  unfold tableStep; split <;> rfl
@[simp] theorem tableStep_length (s : State) : s.tableStep.length = s.length := by
  unfold tableStep; split <;> rfl
@[simp] theorem tableStep_seedLo (s : State) : s.tableStep.seedLo = s.seedLo := by
  unfold tableStep; split <;> rfl
@[simp] theorem tableStep_seedHi (s : State) : s.tableStep.seedHi = s.seedHi := by
  unfold tableStep; split <;> rfl
@[simp] theorem tableStep_resultLo (s : State) : s.tableStep.resultLo = s.resultLo := by
  unfold tableStep; split <;> rfl
@[simp] theorem tableStep_resultHi (s : State) : s.tableStep.resultHi = s.resultHi := by
  unfold tableStep; split <;> rfl
@[simp] theorem tableStep_count (s : State) : s.tableStep.count = s.count := by
  unfold tableStep; split <;> rfl
@[simp] theorem tableStep_errAddr (s : State) : s.tableStep.errAddr = s.errAddr := by
  unfold tableStep; split <;> rfl
@[simp] theorem tableStep_tabIndex (s : State) : s.tableStep.tabIndex = s.tabIndex := by
  unfold tableStep; split <;> rfl
@[simp] theorem tableStep_phase (s : State) : s.tableStep.phase = s.phase := by
  unfold tableStep; split <;> rfl
@[simp] theorem tableStep_lat (s : State) : s.tableStep.lat = s.lat := by
  unfold tableStep; split <;> rfl
@[simp] theorem tableStep_cursor (s : State) : s.tableStep.cursor = s.cursor := by
  unfold tableStep; split <;> rfl
@[simp] theorem tableStep_acc (s : State) : s.tableStep.acc = s.acc := by
  unfold tableStep; split <;> rfl
@[simp] theorem tableStep_tail (s : State) : s.tableStep.tail = s.tail := by
  unfold tableStep; split <;> rfl
@[simp] theorem tableStep_len (s : State) : s.tableStep.len = s.len := by
  unfold tableStep; split <;> rfl
@[simp] theorem tableStep_mem (s : State) : s.tableStep.mem = s.mem := by
  unfold tableStep; split <;> rfl
@[simp] theorem tableStep_resetLine (s : State) : s.tableStep.resetLine = s.resetLine := by
  unfold tableStep; split <;> rfl
@[simp] theorem tableStep_script (s : State) : s.tableStep.script = s.script := by
  unfold tableStep; split <;> rfl
@[simp] theorem tableStep_response (s : State) : s.tableStep.response = s.response := by
  unfold tableStep; split <;> rfl
@[simp] theorem tableStep_sched (s : State) : s.tableStep.sched = s.sched := by
  unfold tableStep; split <;> rfl
@[simp] theorem tableStep_dirty (s : State) : s.tableStep.dirty = s.dirty := by
  unfold tableStep; split <;> rfl
@[simp] theorem tableStep_past (s : State) : s.tableStep.past = s.past := by
  unfold tableStep; split <;> rfl
@[simp] theorem tableStep_draws (s : State) : s.tableStep.draws = s.draws := by
  unfold tableStep; split <;> rfl
@[simp] theorem tableStep_turns (s : State) : s.tableStep.turns = s.turns := by
  unfold tableStep; split <;> rfl

@[simp] theorem finishTable_build (s : State) : s.finishTable.build = s.build := by
  unfold finishTable; split <;> rfl
@[simp] theorem finishTable_platform (s : State) : s.finishTable.platform = s.platform := by
  unfold finishTable; split <;> rfl
@[simp] theorem finishTable_ie (s : State) : s.finishTable.ie = s.ie := by
  unfold finishTable; split <;> rfl
@[simp] theorem finishTable_cmd (s : State) : s.finishTable.cmd = s.cmd := by
  unfold finishTable; split <;> rfl
@[simp] theorem finishTable_done (s : State) : s.finishTable.done = s.done := by
  unfold finishTable; split <;> rfl
@[simp] theorem finishTable_err (s : State) : s.finishTable.err = s.err := by
  unfold finishTable; split <;> rfl
@[simp] theorem finishTable_drop (s : State) : s.finishTable.drop = s.drop := by
  unfold finishTable; split <;> rfl
@[simp] theorem finishTable_errcode (s : State) : s.finishTable.errcode = s.errcode := by
  unfold finishTable; split <;> rfl
@[simp] theorem finishTable_srcAddr (s : State) : s.finishTable.srcAddr = s.srcAddr := by
  unfold finishTable; split <;> rfl
@[simp] theorem finishTable_length (s : State) : s.finishTable.length = s.length := by
  unfold finishTable; split <;> rfl
@[simp] theorem finishTable_seedLo (s : State) : s.finishTable.seedLo = s.seedLo := by
  unfold finishTable; split <;> rfl
@[simp] theorem finishTable_seedHi (s : State) : s.finishTable.seedHi = s.seedHi := by
  unfold finishTable; split <;> rfl
@[simp] theorem finishTable_resultLo (s : State) : s.finishTable.resultLo = s.resultLo := by
  unfold finishTable; split <;> rfl
@[simp] theorem finishTable_resultHi (s : State) : s.finishTable.resultHi = s.resultHi := by
  unfold finishTable; split <;> rfl
@[simp] theorem finishTable_count (s : State) : s.finishTable.count = s.count := by
  unfold finishTable; split <;> rfl
@[simp] theorem finishTable_errAddr (s : State) : s.finishTable.errAddr = s.errAddr := by
  unfold finishTable; split <;> rfl
@[simp] theorem finishTable_tabIndex (s : State) : s.finishTable.tabIndex = s.tabIndex := by
  unfold finishTable; split <;> rfl
@[simp] theorem finishTable_phase (s : State) : s.finishTable.phase = s.phase := by
  unfold finishTable; split <;> rfl
@[simp] theorem finishTable_lat (s : State) : s.finishTable.lat = s.lat := by
  unfold finishTable; split <;> rfl
@[simp] theorem finishTable_cursor (s : State) : s.finishTable.cursor = s.cursor := by
  unfold finishTable; split <;> rfl
@[simp] theorem finishTable_acc (s : State) : s.finishTable.acc = s.acc := by
  unfold finishTable; split <;> rfl
@[simp] theorem finishTable_tail (s : State) : s.finishTable.tail = s.tail := by
  unfold finishTable; split <;> rfl
@[simp] theorem finishTable_len (s : State) : s.finishTable.len = s.len := by
  unfold finishTable; split <;> rfl
@[simp] theorem finishTable_mem (s : State) : s.finishTable.mem = s.mem := by
  unfold finishTable; split <;> rfl
@[simp] theorem finishTable_resetLine (s : State) : s.finishTable.resetLine = s.resetLine := by
  unfold finishTable; split <;> rfl
@[simp] theorem finishTable_script (s : State) : s.finishTable.script = s.script := by
  unfold finishTable; split <;> rfl
@[simp] theorem finishTable_response (s : State) : s.finishTable.response = s.response := by
  unfold finishTable; split <;> rfl
@[simp] theorem finishTable_sched (s : State) : s.finishTable.sched = s.sched := by
  unfold finishTable; split <;> rfl
@[simp] theorem finishTable_dirty (s : State) : s.finishTable.dirty = s.dirty := by
  unfold finishTable; split <;> rfl
@[simp] theorem finishTable_past (s : State) : s.finishTable.past = s.past := by
  unfold finishTable; split <;> rfl
@[simp] theorem finishTable_draws (s : State) : s.finishTable.draws = s.draws := by
  unfold finishTable; split <;> rfl
@[simp] theorem finishTable_turns (s : State) : s.finishTable.turns = s.turns := by
  unfold finishTable; split <;> rfl

@[simp] theorem awaitTable_build (s : State) : s.awaitTable.build = s.build := by
  unfold awaitTable; split <;> simp
@[simp] theorem awaitTable_platform (s : State) : s.awaitTable.platform = s.platform := by
  unfold awaitTable; split <;> simp
@[simp] theorem awaitTable_ie (s : State) : s.awaitTable.ie = s.ie := by
  unfold awaitTable; split <;> simp
@[simp] theorem awaitTable_cmd (s : State) : s.awaitTable.cmd = s.cmd := by
  unfold awaitTable; split <;> simp
@[simp] theorem awaitTable_done (s : State) : s.awaitTable.done = s.done := by
  unfold awaitTable; split <;> simp
@[simp] theorem awaitTable_err (s : State) : s.awaitTable.err = s.err := by
  unfold awaitTable; split <;> simp
@[simp] theorem awaitTable_drop (s : State) : s.awaitTable.drop = s.drop := by
  unfold awaitTable; split <;> simp
@[simp] theorem awaitTable_errcode (s : State) : s.awaitTable.errcode = s.errcode := by
  unfold awaitTable; split <;> simp
@[simp] theorem awaitTable_srcAddr (s : State) : s.awaitTable.srcAddr = s.srcAddr := by
  unfold awaitTable; split <;> simp
@[simp] theorem awaitTable_length (s : State) : s.awaitTable.length = s.length := by
  unfold awaitTable; split <;> simp
@[simp] theorem awaitTable_seedLo (s : State) : s.awaitTable.seedLo = s.seedLo := by
  unfold awaitTable; split <;> simp
@[simp] theorem awaitTable_seedHi (s : State) : s.awaitTable.seedHi = s.seedHi := by
  unfold awaitTable; split <;> simp
@[simp] theorem awaitTable_resultLo (s : State) : s.awaitTable.resultLo = s.resultLo := by
  unfold awaitTable; split <;> simp
@[simp] theorem awaitTable_resultHi (s : State) : s.awaitTable.resultHi = s.resultHi := by
  unfold awaitTable; split <;> simp
@[simp] theorem awaitTable_count (s : State) : s.awaitTable.count = s.count := by
  unfold awaitTable; split <;> simp
@[simp] theorem awaitTable_errAddr (s : State) : s.awaitTable.errAddr = s.errAddr := by
  unfold awaitTable; split <;> simp
@[simp] theorem awaitTable_tabIndex (s : State) : s.awaitTable.tabIndex = s.tabIndex := by
  unfold awaitTable; split <;> simp
@[simp] theorem awaitTable_phase (s : State) : s.awaitTable.phase = s.phase := by
  unfold awaitTable; split <;> simp
@[simp] theorem awaitTable_lat (s : State) : s.awaitTable.lat = s.lat := by
  unfold awaitTable; split <;> simp
@[simp] theorem awaitTable_cursor (s : State) : s.awaitTable.cursor = s.cursor := by
  unfold awaitTable; split <;> simp
@[simp] theorem awaitTable_acc (s : State) : s.awaitTable.acc = s.acc := by
  unfold awaitTable; split <;> simp
@[simp] theorem awaitTable_tail (s : State) : s.awaitTable.tail = s.tail := by
  unfold awaitTable; split <;> simp
@[simp] theorem awaitTable_len (s : State) : s.awaitTable.len = s.len := by
  unfold awaitTable; split <;> simp
@[simp] theorem awaitTable_mem (s : State) : s.awaitTable.mem = s.mem := by
  unfold awaitTable; split <;> simp
@[simp] theorem awaitTable_resetLine (s : State) : s.awaitTable.resetLine = s.resetLine := by
  unfold awaitTable; split <;> simp
@[simp] theorem awaitTable_script (s : State) : s.awaitTable.script = s.script := by
  unfold awaitTable; split <;> simp
@[simp] theorem awaitTable_response (s : State) : s.awaitTable.response = s.response := by
  unfold awaitTable; split <;> simp
@[simp] theorem awaitTable_sched (s : State) : s.awaitTable.sched = s.sched := by
  unfold awaitTable; split <;> simp
@[simp] theorem awaitTable_dirty (s : State) : s.awaitTable.dirty = s.dirty := by
  unfold awaitTable; split <;> simp
@[simp] theorem awaitTable_past (s : State) : s.awaitTable.past = s.past := by
  unfold awaitTable; split <;> simp
@[simp] theorem awaitTable_draws (s : State) : s.awaitTable.draws = s.draws := by
  unfold awaitTable; split <;> simp
@[simp] theorem awaitTable_turns (s : State) : s.awaitTable.turns = s.turns := by
  unfold awaitTable; split <;> simp

@[simp] theorem started_build (s : State) (a : Alg) : (s.started a).build = s.build := by
  cases a <;> simp [started]
@[simp] theorem started_platform (s : State) (a : Alg) : (s.started a).platform = s.platform := by
  cases a <;> simp [started]
@[simp] theorem started_ie (s : State) (a : Alg) : (s.started a).ie = s.ie := by
  cases a <;> simp [started]
@[simp] theorem started_cmd (s : State) (a : Alg) : (s.started a).cmd = s.cmd := by
  cases a <;> simp [started]
@[simp] theorem started_done (s : State) (a : Alg) : (s.started a).done = s.done := by
  cases a <;> simp [started]
@[simp] theorem started_err (s : State) (a : Alg) : (s.started a).err = s.err := by
  cases a <;> simp [started]
@[simp] theorem started_drop (s : State) (a : Alg) : (s.started a).drop = s.drop := by
  cases a <;> simp [started]
@[simp] theorem started_errcode (s : State) (a : Alg) : (s.started a).errcode = s.errcode := by
  cases a <;> simp [started]
@[simp] theorem started_srcAddr (s : State) (a : Alg) : (s.started a).srcAddr = s.srcAddr := by
  cases a <;> simp [started]
@[simp] theorem started_length (s : State) (a : Alg) : (s.started a).length = s.length := by
  cases a <;> simp [started]
@[simp] theorem started_seedLo (s : State) (a : Alg) : (s.started a).seedLo = s.seedLo := by
  cases a <;> simp [started]
@[simp] theorem started_seedHi (s : State) (a : Alg) : (s.started a).seedHi = s.seedHi := by
  cases a <;> simp [started]
@[simp] theorem started_resultLo (s : State) (a : Alg) : (s.started a).resultLo = s.resultLo := by
  cases a <;> simp [started]
@[simp] theorem started_resultHi (s : State) (a : Alg) : (s.started a).resultHi = s.resultHi := by
  cases a <;> simp [started]
@[simp] theorem started_count (s : State) (a : Alg) : (s.started a).count = s.count := by
  cases a <;> simp [started]
@[simp] theorem started_errAddr (s : State) (a : Alg) : (s.started a).errAddr = s.errAddr := by
  cases a <;> simp [started]
@[simp] theorem started_tabIndex (s : State) (a : Alg) : (s.started a).tabIndex = s.tabIndex := by
  cases a <;> simp [started]
@[simp] theorem started_phase (s : State) (a : Alg) : (s.started a).phase = s.phase := by
  cases a <;> simp [started]
@[simp] theorem started_lat (s : State) (a : Alg) : (s.started a).lat = s.lat := by
  cases a <;> simp [started]
@[simp] theorem started_cursor (s : State) (a : Alg) : (s.started a).cursor = s.cursor := by
  cases a <;> simp [started]
@[simp] theorem started_acc (s : State) (a : Alg) : (s.started a).acc = s.acc := by
  cases a <;> simp [started]
@[simp] theorem started_tail (s : State) (a : Alg) : (s.started a).tail = s.tail := by
  cases a <;> simp [started]
@[simp] theorem started_len (s : State) (a : Alg) : (s.started a).len = s.len := by
  cases a <;> simp [started]
@[simp] theorem started_mem (s : State) (a : Alg) : (s.started a).mem = s.mem := by
  cases a <;> simp [started]
@[simp] theorem started_resetLine (s : State) (a : Alg) : (s.started a).resetLine = s.resetLine := by
  cases a <;> simp [started]
@[simp] theorem started_script (s : State) (a : Alg) : (s.started a).script = s.script := by
  cases a <;> simp [started]
@[simp] theorem started_response (s : State) (a : Alg) : (s.started a).response = s.response := by
  cases a <;> simp [started]
@[simp] theorem started_sched (s : State) (a : Alg) : (s.started a).sched = s.sched := by
  cases a <;> simp [started]
@[simp] theorem started_dirty (s : State) (a : Alg) : (s.started a).dirty = s.dirty := by
  cases a <;> simp [started]
@[simp] theorem started_past (s : State) (a : Alg) : (s.started a).past = s.past := by
  cases a <;> simp [started]
@[simp] theorem started_draws (s : State) (a : Alg) : (s.started a).draws = s.draws := by
  cases a <;> simp [started]
@[simp] theorem started_turns (s : State) (a : Alg) : (s.started a).turns = s.turns := by
  cases a <;> simp [started]

/-- A command of any algorithm but CRC32 starts from the state as it is. -/
theorem started_of_ne (s : State) (a : Alg) (h : a ≠ .crc32) : s.started a = s := by
  cases a <;> first | rfl | exact absurd rfl h

/-- With the table ready, or without one, a CRC32 command waits for nothing (40_command.md R102). -/
theorem awaitTable_of_ready (s : State) (h : s.build.crcTableEn = true → s.tgen = .ready) : s.awaitTable = s := by
  unfold awaitTable finishTable
  split
  · rename_i hen; rw [h hen]
  · rfl

end Sys2Proof.Machine.State
end

