-- ==== Sys2Proof/Laws/Memory.lean ====
section
/-! SUPPORT. The laws of the platform memory: a read after a write, the bytes a write leaves alone, and the canonical form
every operation keeps. -/

namespace Sys2Proof.Machine.Memory

/-- A read after a write of one byte. -/
theorem read_write (m : Memory) (a : Nat) (v : Byte) (b : Nat) :
    (m.write a v).read b = if b = a then some v else m.read b := by
  induction m with
  | nil => by_cases h : a = b <;> simp [write, read, h, eq_comm]
  | cons c m ih =>
    unfold write
    split
    · by_cases h : b = a
      · simp [read, h]
      · simp [read, h, Ne.symm h]
    · split
      · rename_i h1 h2
        by_cases h : b = a
        · simp [read, h]
        · simp [read, h, Ne.symm h, ← h2]
      · rename_i h1 h2
        by_cases h : c.1 = b
        · subst h; simp [read, Ne.symm h2]
        · simp [read, h, ih]

/-- A write of one byte leaves every address it does not write. -/
theorem mem_write (m : Memory) (a : Nat) (v : Byte) (c : Host.Cell) (h : c ∈ m.write a v) : c = (a, v) ∨ c ∈ m := by
  induction m with
  | nil => simpa [write] using h
  | cons d m ih =>
    unfold write at h
    split at h
    · simpa using h
    · split at h
      · rcases List.mem_cons.1 h with h | h
        · exact .inl h
        · exact .inr (List.mem_cons_of_mem _ h)
      · rcases List.mem_cons.1 h with h | h
        · exact .inr (h ▸ List.mem_cons_self)
        · rcases ih h with h | h
          · exact .inl h
          · exact .inr (List.mem_cons_of_mem _ h)

/-- A write inside the address space keeps the canonical form. -/
theorem wf_write (m : Memory) (a : Nat) (v : Byte) (hm : m.wf) (ha : a < addressSpace) : (m.write a v).wf := by
  refine ⟨?_, fun c hc => ?_⟩
  · have hs := hm.1
    clear hm
    induction m with
    | nil => simp [write]
    | cons c m ih =>
      rw [List.pairwise_cons] at hs
      unfold write
      split
      · rename_i hlt
        refine List.pairwise_cons.2 ⟨fun d hd => ?_, List.pairwise_cons.2 hs⟩
        rcases List.mem_cons.1 hd with hd | hd
        · subst hd; exact hlt
        · exact Nat.lt_trans hlt (hs.1 d hd)
      · split
        · rename_i _ heq
          exact List.pairwise_cons.2 ⟨fun d hd => heq ▸ hs.1 d hd, hs.2⟩
        · rename_i hnlt hne
          refine List.pairwise_cons.2 ⟨fun d hd => ?_, ih hs.2⟩
          rcases mem_write m a v d hd with hd | hd
          · subst hd; exact Nat.lt_of_le_of_ne (Nat.le_of_not_lt hnlt) (Ne.symm hne)
          · exact hs.1 d hd
  · rcases mem_write m a v c hc with h | h
    · subst h; exact ha
    · exact hm.2 c h

/-- A read after an erasure: nothing where it erased, the rest as before. -/
theorem read_erase (m : Memory) (hm : m.wf) (a b : Nat) :
    (m.erase a).read b = if b = a then none else m.read b := by
  have hs := hm.1
  clear hm
  induction m with
  | nil => simp [erase, read]
  | cons c m ih =>
    rw [List.pairwise_cons] at hs
    have hno : ∀ n, (∀ d ∈ m, n < d.1) → Memory.read m n = none := by
      intro n hn
      clear ih hs
      induction m with
      | nil => rfl
      | cons d m ih2 =>
        have hd : n < d.1 := hn d List.mem_cons_self
        simp [read, Nat.ne_of_gt hd, ih2 fun e he => hn e (List.mem_cons_of_mem _ he)]
    unfold erase
    split
    · rename_i heq
      by_cases hb : b = a
      · subst hb; simpa using hno b (heq ▸ hs.1)
      · simp [read, hb, heq ▸ Ne.symm hb]
    · rename_i hne
      by_cases hb : c.1 = b
      · subst hb; simp [read, hne]
      · simp [read, hb, ih hs.2]

/-- An erasure keeps the canonical form. -/
theorem wf_erase (m : Memory) (a : Nat) (hm : m.wf) : (m.erase a).wf := by
  have hsub : ∀ m : Memory, (m.erase a).Sublist m := by
    intro m
    induction m with
    | nil => exact List.Sublist.refl _
    | cons c m ih =>
      unfold erase
      split
      · exact List.sublist_cons_self _ _
      · exact ih.cons_cons _
  exact ⟨hm.1.sublist (hsub m), fun c hc => hm.2 c ((hsub m).subset hc)⟩

/-- A write of bytes inside the address space keeps the canonical form. -/
theorem wf_writeAll (b : List Byte) (m : Memory) (a : Nat) (hm : m.wf) (ha : a + b.length ≤ addressSpace) :
    (m.writeAll a b).wf := by
  induction b generalizing m a with
  | nil => exact hm
  | cons v b ih =>
    simp only [List.length_cons] at ha
    exact ih _ _ (wf_write m a v hm (by omega)) (by omega)

/-- A read after a write of bytes: a written address answers its byte, another as before. -/
theorem read_writeAll (b : List Byte) (m : Memory) (a x : Nat) :
    (m.writeAll a b).read x = if a ≤ x ∧ x < a + b.length then b[x - a]? else m.read x := by
  induction b generalizing m a with
  | nil =>
    have h : ¬(a ≤ x ∧ x < a) := by omega
    simp [writeAll, h]
  | cons v b ih =>
    rw [writeAll, ih, read_write]
    by_cases h1 : a + 1 ≤ x ∧ x < a + 1 + b.length
    · have h2 : a ≤ x ∧ x < a + (v :: b).length := by simp only [List.length_cons]; omega
      have h3 : x - a = (x - (a + 1)) + 1 := by omega
      rw [if_pos h1, if_pos h2, h3, List.getElem?_cons_succ]
    · rw [if_neg h1]
      by_cases h4 : x = a
      · subst h4; simp
      · have h5 : ¬(a ≤ x ∧ x < a + (v :: b).length) := by simp only [List.length_cons]; omega
        rw [if_neg h4, if_neg h5]

/-- Only addresses of the space answer a byte. -/
theorem lt_of_read (m : Memory) (hm : m.wf) (a : Nat) (v : Byte) (h : m.read a = some v) : a < addressSpace := by
  have hall := hm.2
  clear hm
  induction m with
  | nil => cases h
  | cons c m ih =>
    unfold read at h
    split at h
    · rename_i heq; exact heq ▸ hall c List.mem_cons_self
    · exact ih h fun d hd => hall d (List.mem_cons_of_mem _ hd)

end Sys2Proof.Machine.Memory
end

