-- ==== Sys2Proof/Laws/Ops.lean ====
section
/-! SUPPORT. For each shared operation, what it can do, said once: the engine's read, the gathering of the input, the
frame of a command, and the steps of the agents. -/

namespace Sys2Proof.Machine

/-- The instant of a read still to come is now when nothing has happened since the last one. -/
theorem instant_of_nil (s : State) (h : s.past = []) : s.instant = (s.mem, s) := by
  unfold State.instant
  rw [h]

/-- The choice of an instant changes nothing but the moments left and the count of free values. -/
theorem instant_frame (s : State) : ∃ l d, s.instant.2 = s.withReads l d := by
  unfold State.instant
  split
  · exact ⟨s.past, s.draws, rfl⟩
  · exact ⟨_, _, rfl⟩

/-- A read that has taken place is answered what it was answered then, whatever the memory answers now. -/
theorem answer_of_read (s : State) (a : Nat) (v : Byte) (l : List Moment) (h : Moment.nextRead s.past = some (v, l)) :
    s.answer a = (some v, s.withReads l s.draws) := by
  unfold State.answer
  rw [h]

/-- With no past, a read is answered by the memory. -/
theorem answer_of_nil (s : State) (a : Nat) (h : s.past = []) : s.answer a = (s.mem.read a, s) := by
  unfold State.answer
  rw [instant_of_nil s h, h]
  rfl

/-- The answer to a read changes nothing but the moments left and the count of free values. -/
theorem answer_frame (s : State) (a : Nat) : ∃ l d, (s.answer a).2 = s.withReads l d := by
  unfold State.answer
  split
  · exact ⟨_, _, rfl⟩
  · exact instant_frame s

/-- Everything an engine read can do (20_memory.md R60, 70_reset_and_hazards.md R240, 20_memory.md R63). -/
theorem memRead_cases (s : State) (a : Nat) (u : Bool) :
    ((s.answer a).1 = none ∧ s.memRead a u = (.busError, (s.answer a).2)) ∨
    (∃ v, (s.answer a).1 = some v ∧ u = false ∧ a ∉ s.dirty ∧ s.memRead a u = (.byte v, (s.answer a).2)) ∨
    (∃ v, (s.answer a).1 = some v ∧ (u = true ∨ a ∈ s.dirty) ∧
      s.memRead a u = (.byte (Config.freeByte (s.answer a).2.draws),
        (s.answer a).2.withDraws ((s.answer a).2.draws + 1))) := by
  obtain ⟨l, d, hf⟩ := answer_frame s a
  unfold State.memRead
  generalize s.answer a = r at hf ⊢
  obtain ⟨o, s1⟩ := r
  simp only at hf
  subst hf
  cases o with
  | none => exact .inl ⟨rfl, rfl⟩
  | some v =>
    by_cases hu : u = true ∨ a ∈ s.dirty
    · refine .inr (.inr ⟨v, rfl, hu, ?_⟩)
      have hc : (u || (s.withReads l d).dirty.contains a) = true := by simpa using hu
      simp only [hc, if_true]
    · rw [not_or] at hu
      refine .inr (.inl ⟨v, rfl, by simpa using hu.1, hu.2, ?_⟩)
      have hc : (u || (s.withReads l d).dirty.contains a) = false := by simpa using hu
      simp only [hc, Bool.false_eq_true, if_false]

/-- An engine read changes nothing but the moments left and the count of free values. -/
theorem memRead_frame (s : State) (a : Nat) (u : Bool) : ∃ l d, (s.memRead a u).2 = s.withReads l d := by
  obtain ⟨l, d, hf⟩ := answer_frame s a
  obtain ⟨_, h⟩ | ⟨_, _, _, _, h⟩ | ⟨_, _, _, h⟩ := memRead_cases s a u <;> rw [h, hf]
  · exact ⟨l, d, rfl⟩
  · exact ⟨l, d, rfl⟩
  · exact ⟨l, d + 1, rfl⟩

/-- A steady byte in memory is read as it is. -/
theorem memRead_steady (s : State) (a : Nat) (v : Byte) (hp : s.past = []) (h : s.mem.read a = some v) (hd : a ∉ s.dirty) :
    s.memRead a false = (.byte v, s) := by
  have e := answer_of_nil s a hp
  rw [h] at e
  obtain ⟨h', _⟩ | ⟨w, h', _, _, e'⟩ | ⟨_, _, hu, _⟩ := memRead_cases s a false
  · rw [e] at h'; cases h'
  · rw [e] at h' e'; cases h'; exact e'
  · simp [hd] at hu

/-- An engine read of an address that answers BusError. -/
theorem memRead_busError (s : State) (a : Nat) (u : Bool) (hp : s.past = []) (h : s.mem.read a = none) :
    s.memRead a u = (.busError, s) := by
  have e := answer_of_nil s a hp
  rw [h] at e
  obtain ⟨_, e'⟩ | ⟨w, h', _⟩ | ⟨w, h', _⟩ := memRead_cases s a u
  · rw [e'] ; simp only [e]
  · rw [e] at h'; cases h'
  · rw [e] at h'; cases h'

/-- Following the reads of a scan changes nothing but the moments left. -/
theorem followed_frame (s : State) (w : Option Byte) (v : Byte) : ∃ l, s.followed w v = s.withReads l s.draws := by
  unfold State.followed
  split
  · exact ⟨s.past, rfl⟩
  · split
    · exact ⟨s.past, rfl⟩
    · exact ⟨_, rfl⟩

/-- A scan's read changes nothing but the moments left and the count of free values. -/
theorem scanRead_frame (s : State) (a : Nat) (u : Bool) : ∃ l d, (s.scanRead a u).2 = s.withReads l d := by
  obtain ⟨l, d, h⟩ := memRead_frame s a u
  unfold State.scanRead
  split <;> rename_i heq <;> rw [heq] at h <;> simp only at h <;> subst h
  · exact ⟨l, d, rfl⟩
  · obtain ⟨l', h'⟩ := followed_frame (s.withReads l d) ((Moment.nextRead s.past).map Prod.fst) ‹_›
    exact ⟨l', d, h'⟩

/-- With no past, a scan reads as any pass does. -/
theorem scanRead_of_nil (s : State) (a : Nat) (u : Bool) (hp : s.past = []) : s.scanRead a u = s.memRead a u := by
  unfold State.scanRead
  rw [hp]
  split <;> rename_i heq <;> rw [heq]
  rfl

/-- A range inside another meets only windows the other meets. -/
theorem sideEffectIn_mono (s : State) (lo lo' hi hi' : Nat) (h : s.sideEffectIn lo' hi' = false) (hl : lo' ≤ lo)
    (hh : hi ≤ hi') : s.sideEffectIn lo hi = false := by
  simp only [State.sideEffectIn, List.any_eq_false, decide_eq_true_eq, Nat.not_lt] at h ⊢
  exact fun w hw => by have := h w hw; omega

/-- No location of a range without windows has side effects. -/
theorem sideEffectAt_of_steady (s : State) (lo hi a : Nat) (h : s.sideEffectIn lo hi = false) (h1 : lo ≤ a) (h2 : a < hi) :
    s.sideEffectAt a = false :=
  sideEffectIn_mono s a lo (a + 1) hi h h1 h2

/-- A part of a steady range is steady. -/
theorem Steady.mono {s : State} {lo lo' hi hi' : Nat} (h : Steady s lo' hi') (hl : lo' ≤ lo) (hh : hi ≤ hi') :
    Steady s lo hi :=
  ⟨fun a h1 h2 => h.1 a (by omega) (by omega), sideEffectIn_mono s lo lo' hi hi' h.2 hl hh⟩

/-- A span pass changes nothing but the moments left and the count of free values. -/
theorem readSpan_frame (u : Bool) (n a : Nat) (s : State) : ∃ l d, (readSpan u n a s).2 = s.withReads l d := by
  induction n generalizing a s with
  | zero => exact ⟨s.past, s.draws, rfl⟩
  | succ n ih =>
    obtain ⟨l, d, hd⟩ := memRead_frame s a u
    unfold readSpan
    split <;> rename_i s1 heq <;> rw [heq] at hd <;> simp only at hd <;> subst hd
    · exact ⟨l, d, rfl⟩
    · obtain ⟨l', d', hd'⟩ := ih (a + 1) (s.withReads l d)
      exact ⟨l', d', hd'⟩

/-- The SPAN shape changes nothing but the moments left and the count of free values. -/
theorem gatherSpan_frame (u : Bool) (s : State) (n : Nat) : ∃ l d, (gatherSpan u s n).2 = s.withReads l d := by
  unfold gatherSpan
  split
  · exact ⟨s.past, s.draws, rfl⟩
  · exact readSpan_frame _ _ _ _

/-- A scan changes nothing but the moments left and the count of free values. -/
theorem scanText_frame (u : Bool) (src : Word) (k i : Nat) (s : State) :
    ∃ l d, (scanText u src k i s).2 = s.withReads l d := by
  induction k generalizing i s with
  | zero => exact ⟨s.past, s.draws, rfl⟩
  | succ k ih =>
    unfold scanText
    split
    · exact ⟨s.past, s.draws, rfl⟩
    · obtain ⟨l, d, hd⟩ := scanRead_frame s (src.toNat + i) u
      split <;> rename_i s1 heq <;> rw [heq] at hd <;> simp only at hd <;> subst hd
      · exact ⟨l, d, rfl⟩
      · split
        · exact ⟨l, d, rfl⟩
        · obtain ⟨l', d', hd'⟩ := ih (i + 1) (s.withReads l d)
          exact ⟨l', d', hd'⟩

/-- The TEXT scan changes nothing but the moments left and the count of free values. -/
theorem gatherText_frame (u : Bool) (s : State) : ∃ l d, (gatherText u s).2 = s.withReads l d := scanText_frame _ _ _ _ _

/-- A pass over locations without side effects meets none. -/
theorem spanSideEffect_none (n a : Nat) (s : State) (h : s.sideEffectIn a (a + n) = false) : spanSideEffect n a s = none := by
  induction n generalizing a s with
  | zero => rfl
  | succ n ih =>
    unfold spanSideEffect
    rw [sideEffectAt_of_steady s a _ a h (Nat.le_refl a) (by omega)]
    obtain ⟨l, d, hd⟩ := memRead_frame s a false
    simp only [Bool.false_eq_true, if_false]
    split <;> rename_i heq <;> rw [heq] at hd <;> simp only at hd <;> subst hd
    · exact ih (a + 1) _ (sideEffectIn_mono s _ a _ (a + (n + 1)) h (by omega) (by omega))

/-- A SPAN command over locations without side effects meets none. -/
theorem spanMeets_none (s : State) (h : s.sideEffectIn s.lat.src.toNat (s.lat.src.toNat + s.lat.len.toNat) = false) :
    s.spanMeets = none := by
  unfold State.spanMeets
  split
  · rfl
  · exact spanSideEffect_none _ _ _ h

/-- A scan over locations without side effects meets none. -/
theorem textSideEffect_none (src : Word) (k i : Nat) (s : State)
    (h : s.sideEffectIn (src.toNat + i) (src.toNat + i + k) = false) : textSideEffect src k i s = none := by
  induction k generalizing i s with
  | zero => rfl
  | succ k ih =>
    unfold textSideEffect
    rw [sideEffectAt_of_steady s _ _ _ h (Nat.le_refl _) (by omega)]
    obtain ⟨l, d, hd⟩ := scanRead_frame s (src.toNat + i) false
    simp only [Bool.false_eq_true, if_false]
    split
    · rfl
    · split
      · rfl
      · rename_i heq
        rw [heq] at hd
        subst hd
        rw [ih (i + 1) (s.withReads l d) (sideEffectIn_mono s _ _ _ _ h (by omega) (by omega)), ite_self]

/-- A TEXT command over locations without side effects meets none. -/
theorem textMeets_none (s : State) (h : s.sideEffectIn s.lat.src.toNat (s.lat.src.toNat + s.lat.len.toNat) = false) :
    s.textMeets = none :=
  textSideEffect_none _ _ _ _ h

/-- A span pass over steady bytes in memory gathers them and draws nothing. -/
theorem readSpan_holds (s : State) (b : List Byte) (a : Nat) (hp : s.past = []) (hm : HoldsAt s.mem a b)
    (hd : ∀ x, a ≤ x → x < a + b.length → x ∉ s.dirty) : readSpan false b.length a s = (.bytes b, s) := by
  induction b generalizing a with
  | nil => rfl
  | cons v b ih =>
    have h0 : s.mem.read a = some v := hm 0 (Nat.succ_pos _)
    have hr := memRead_steady s a v hp h0 (hd a (Nat.le_refl a) (by simp))
    have hrest := ih (a + 1)
      (fun k hk => by
        have := hm (k + 1) (by simpa using hk)
        rw [Nat.add_assoc, Nat.add_comm 1 k]
        simpa using this)
      (fun x h1 h2 => hd x (by omega) (by simp only [List.length_cons]; omega))
    simp only [List.length_cons, readSpan, hr, hrest, Gathered.cons]

/-- The SPAN shape gathers the span the operands name. -/
theorem gatherSpan_of_holds (s : State) (b : List Byte) (hp : s.past = []) (hle : s.lat.src.toNat + b.length ≤ addressSpace)
    (hm : HoldsAt s.mem s.lat.src.toNat b) (hs : Steady s s.lat.src.toNat (s.lat.src.toNat + b.length)) :
    gatherSpan false s b.length = (.bytes b, s) := by
  unfold gatherSpan
  rw [if_neg (by omega)]
  exact readSpan_holds s b _ hp hm hs.1

/-- Over steady nonzero bytes `b`, a scan and its look for a side effect come to the offset after them. -/
theorem scanText_over (s : State) (src : Word) (b : List Byte) (k i : Nat) (hp : s.past = []) (hnz : ∀ v ∈ b, v ≠ 0#8)
    (hle : src.toNat + i + b.length ≤ addressSpace) (hm : HoldsAt s.mem (src.toNat + i) b)
    (hs : Steady s (src.toNat + i) (src.toNat + i + b.length)) :
    scanText false src (b.length + k) i s =
      (b.foldr Gathered.cons (scanText false src k (i + b.length) s).1, (scanText false src k (i + b.length) s).2) ∧
    textSideEffect src (b.length + k) i s = textSideEffect src k (i + b.length) s := by
  induction b generalizing i with
  | nil => simp
  | cons v b ih =>
    simp only [List.length_cons] at hle hs ⊢
    have h0 : s.mem.read (src.toNat + i) = some v := hm 0 (Nat.succ_pos _)
    have hr := (scanRead_of_nil s _ false hp).trans (memRead_steady s _ _ hp h0 (hs.1 _ (Nat.le_refl _) (by omega)))
    have hv : v ≠ 0#8 := hnz v List.mem_cons_self
    have hw := sideEffectAt_of_steady s _ _ (src.toNat + i) hs.2 (Nat.le_refl _) (by omega)
    have hlt : ¬ addressSpace ≤ src.toNat + i := by omega
    obtain ⟨h1, h2⟩ := ih (i + 1) (fun w hw => hnz w (List.mem_cons_of_mem _ hw)) (by omega)
      (fun j hj => by
        have := hm (j + 1) (by simpa using hj)
        rw [show src.toNat + (i + 1) + j = src.toNat + i + (j + 1) by omega]
        simpa using this)
      (hs.mono (by omega) (by omega))
    rw [show b.length + 1 + k = b.length + k + 1 by omega, show i + (b.length + 1) = i + 1 + b.length by omega]
    constructor
    · simp only [scanText, ge_iff_le, hlt, if_false, hr, hv, h1, List.foldr_cons]
    · simp only [textSideEffect, ge_iff_le, hlt, if_false, hw, Bool.false_eq_true, hr, hv, h2]

/-- Bytes in front of gathered bytes. -/
theorem foldr_cons_bytes (b c : List Byte) : b.foldr Gathered.cons (.bytes c) = .bytes (b ++ c) := by
  induction b with
  | nil => rfl
  | cons v b ih => rw [List.foldr_cons, ih]; rfl

/-- Bytes in front of an error. -/
theorem foldr_cons_error (b : List Byte) (c : ErrCode) (a : Word) :
    b.foldr Gathered.cons (.error c a) = .error c a := by
  induction b with
  | nil => rfl
  | cons v b ih => rw [List.foldr_cons, ih]; rfl

/-- The TEXT shape gathers the text the operands name, and meets no side effect. -/
theorem gatherText_of_input (s : State) (b : List Byte) (hp : s.past = []) (h : TextInput s b) :
    gatherText false s = (.bytes b, s) ∧ s.textMeets = none := by
  obtain ⟨hnz, hk, hlt, hm, hs⟩ := h
  have hb : HoldsAt s.mem (s.lat.src.toNat + 0) b := fun j hj => by
    have := hm j (by simp; omega)
    rwa [List.getElem_append_left hj] at this
  have h0 : s.mem.read (s.lat.src.toNat + b.length) = some 0#8 := by
    have := hm b.length (by simp)
    simpa using this
  have hr := (scanRead_of_nil s _ false hp).trans (memRead_steady s _ _ hp h0 (hs.1 _ (by omega) (by omega)))
  have hw := sideEffectAt_of_steady s _ _ (s.lat.src.toNat + b.length) hs.2 (by omega) (by omega)
  obtain ⟨k, hk'⟩ : ∃ k, s.lat.len.toNat = b.length + (k + 1) := ⟨s.lat.len.toNat - b.length - 1, by omega⟩
  obtain ⟨h1, h2⟩ := scanText_over s s.lat.src b (k + 1) 0 hp hnz (by omega) hb (hs.mono (by omega) (by omega))
  have hge : ¬ addressSpace ≤ s.lat.src.toNat + b.length := by omega
  have e1 : scanText false s.lat.src (k + 1) b.length s = (.bytes [], s) := by
    simp only [scanText, ge_iff_le, hge, if_false, hr, if_true]
  have e2 : textSideEffect s.lat.src (k + 1) b.length s = none := by
    simp only [textSideEffect, ge_iff_le, hge, if_false, hw, Bool.false_eq_true, hr, if_true]
  constructor
  · rw [gatherText, hk', h1, Nat.zero_add, e1, foldr_cons_bytes, List.append_nil]
  · rw [State.textMeets, hk', h2, Nat.zero_add, e2]

/-- The span of a measured text is gathered again as it was (40_command.md R106). -/
theorem gatherSpan_of_textInput (s : State) (b : List Byte) (hp : s.past = []) (h : TextInput s b) :
    gatherSpan false s b.length = (.bytes b, s) := by
  obtain ⟨_, _, hlt, hm, hs⟩ := h
  refine gatherSpan_of_holds s b hp (by omega) (fun k hk => ?_) (hs.mono (Nat.le_refl _) (by omega))
  have := hm k (by simp; omega)
  rwa [List.getElem_append_left hk] at this

/-- A completion keeps nothing of the past. -/
@[simp] theorem fresh_complete (s : State) (h : Digest) (n : Nat) : s.fresh.complete h n = s.complete h n := rfl

/-- An error completion keeps nothing of the past. -/
@[simp] theorem fresh_cmdError (s : State) (c : ErrCode) (a : Word) : s.fresh.cmdError c a = s.cmdError c a := rfl

/-- The past has no part in where the span stands. -/
theorem spanInput_fresh (s : State) (b : List Byte) : SpanInput s.fresh b ↔ SpanInput s b := Iff.rfl

/-- The past has no part in where the text stands. -/
theorem textInput_fresh (s : State) (b : List Byte) : TextInput s.fresh b ↔ TextInput s b := Iff.rfl

/-- A SPAN command whose input is in memory and steady completes with the result of its algorithm. -/
theorem spanCommand_of_input (s : State) (f : List Byte → Digest) (b : List Byte) (h : SpanInput s b) :
    s.spanCommand f = s.complete (f b) b.length := by
  obtain ⟨hl, hle, hm, hs⟩ := (spanInput_fresh s b).2 h
  simp only [State.spanCommand, State.spanReplay, spanMeets_none s.fresh (by rw [hl]; exact hs.2), State.spanRun, hl,
    gatherSpan_of_holds s.fresh b rfl hle hm hs, finishCommand]
  rfl

/-- A single-pass TEXT command whose text is in memory and steady completes with the result of its algorithm. -/
theorem textCommand_of_input (s : State) (f : List Byte → Digest) (b : List Byte) (h : TextInput s b) :
    s.textCommand f = s.complete (f b) b.length := by
  obtain ⟨h1, h2⟩ := gatherText_of_input s.fresh b rfl ((textInput_fresh s b).2 h)
  simp only [State.textCommand, State.textReplay, h2, State.textRun, h1, finishCommand]
  rfl

/-- A two-pass TEXT command whose text is in memory and steady completes with the result of its algorithm. -/
theorem measuredTextCommand_of_input (s : State) (f : List Byte → Digest) (b : List Byte) (h : TextInput s b) :
    s.measuredTextCommand f = s.complete (f b) b.length := by
  have h' := (textInput_fresh s b).2 h
  obtain ⟨h1, h2⟩ := gatherText_of_input s.fresh b rfl h'
  simp only [State.measuredTextCommand, State.measuredTextReplay, h2, State.measuredTextRun, h1,
    gatherSpan_of_textInput s.fresh b rfl h', finishCommand]
  rfl

/-- Waiting for the table leaves the input where it is. -/
theorem spanInput_started (s : State) (a : Alg) (b : List Byte) : SpanInput (s.started a) b ↔ SpanInput s b := by
  simp [SpanInput, Steady, State.sideEffectIn]

/-- Waiting for the table leaves the text where it is. -/
theorem textInput_started (s : State) (a : Alg) (b : List Byte) : TextInput (s.started a) b ↔ TextInput s b := by
  simp [TextInput, Steady, State.sideEffectIn]

/-- What `exec` answers with: the run of the command once it is started. -/
def runCommand (i : Instr) (s : State) : State := (s.started i.alg).run i

/-- Every command answers a next state, the run of its algorithm in its shape. -/
theorem exec_eq (i : Instr) (s : State) : exec i s = .next (runCommand i s) := by
  cases i <;> rfl

/-- Everything the end of a command can be: a success completion, or an error completion. -/
theorem finishCommand_cases (f : List Byte → Digest) (r : Gathered × State) :
    (∃ b, r.1 = .bytes b ∧ finishCommand f r = r.2.complete (f b) b.length) ∨
    (∃ c a, r.1 = .error c a ∧ finishCommand f r = r.2.cmdError c a) := by
  obtain ⟨g, s⟩ := r
  cases g with
  | bytes b => exact .inl ⟨b, rfl, rfl⟩
  | error c a => exact .inr ⟨c, a, rfl, rfl⟩

/-- A span pass raises no error but BUS, a scan none but NOTERM, RANGE and BUS. -/
theorem readSpan_error (u : Bool) (n a : Nat) (s : State) (c : ErrCode) (x : Word)
    (h : (readSpan u n a s).1 = .error c x) : c = .bus := by
  induction n generalizing a s with
  | zero => cases h
  | succ n ih =>
    unfold readSpan at h
    split at h
    · cases h; rfl
    · rename_i v s1 _
      cases hr : (readSpan u n (a + 1) s1).1 with
      | bytes b => simp [hr, Gathered.cons] at h
      | error c' x' =>
        simp only [hr, Gathered.cons, Gathered.error.injEq] at h
        exact ih (a + 1) s1 (by rw [hr, h.1, h.2])

/-- The SPAN shape never raises the code NONE. -/
theorem gatherSpan_error_ne_none (u : Bool) (s : State) (n : Nat) (c : ErrCode) (x : Word)
    (h : (gatherSpan u s n).1 = .error c x) : c ≠ .none := by
  unfold gatherSpan at h
  split at h
  · cases h; decide
  · rw [readSpan_error _ _ _ _ _ _ h]; decide

/-- A scan never raises the code NONE. -/
theorem scanText_error_ne_none (u : Bool) (src : Word) (k i : Nat) (s : State) (c : ErrCode) (x : Word)
    (h : (scanText u src k i s).1 = .error c x) : c ≠ .none := by
  induction k generalizing i s with
  | zero => cases h; decide
  | succ k ih =>
    unfold scanText at h
    split at h
    · cases h; decide
    · split at h
      · cases h; decide
      · rename_i v s1 _
        split at h
        · cases h
        · cases hr : (scanText u src k (i + 1) s1).1 with
          | bytes b => simp [hr, Gathered.cons] at h
          | error c' x' =>
            simp only [hr, Gathered.cons, Gathered.error.injEq] at h
            exact ih (i + 1) s1 (by rw [hr, h.1, h.2])

/-- One completion of `s` that computes `f`, with some count of free bytes. -/
def EndsOnce (s : State) (f : List Byte → Digest) (t : State) : Prop :=
  (∃ d b, t = (s.withDraws d).complete (f b) b.length) ∨ (∃ d c a, c ≠ .none ∧ t = (s.withDraws d).cmdError c a)

/-- Reads before a completion are no more than its own reads. -/
theorem EndsOnce.of_withReads {s t : State} {f : List Byte → Digest} {l : List Moment} {d : Nat}
    (h : EndsOnce (s.withReads l d) f t) :
    EndsOnce s f t := by
  obtain ⟨d', b, h⟩ | ⟨d', c, a, hc, h⟩ := h
  · exact .inl ⟨d', b, h⟩
  · exact .inr ⟨d', c, a, hc, h⟩

/-- The end of a span pass is one completion. -/
theorem finishSpan_endsOnce (u : Bool) (s : State) (n : Nat) (f : List Byte → Digest) :
    EndsOnce s f (finishCommand f (gatherSpan u s n)) := by
  obtain ⟨l, d, hd⟩ := gatherSpan_frame u s n
  obtain ⟨b, _, h⟩ | ⟨c, a, hc, h⟩ := finishCommand_cases f (gatherSpan u s n)
  · exact .inl ⟨d, b, h.trans (by rw [hd]; rfl)⟩
  · exact .inr ⟨d, c, a, gatherSpan_error_ne_none u s n c a hc, h.trans (by rw [hd]; rfl)⟩

/-- A single-pass TEXT run is one completion. -/
theorem textRun_endsOnce (u : Bool) (s : State) (f : List Byte → Digest) : EndsOnce s f (s.textRun u f) := by
  obtain ⟨l, d, hd⟩ := gatherText_frame u s
  obtain ⟨b, _, h⟩ | ⟨c, a, hc, h⟩ := finishCommand_cases f (gatherText u s)
  · exact .inl ⟨d, b, h.trans (by rw [hd]; rfl)⟩
  · exact .inr ⟨d, c, a, scanText_error_ne_none u _ _ _ _ c a hc, h.trans (by rw [hd]; rfl)⟩

/-- A two-pass TEXT run is one completion. -/
theorem measuredTextRun_endsOnce (u : Bool) (s : State) (f : List Byte → Digest) : EndsOnce s f (s.measuredTextRun u f) := by
  obtain ⟨l, d, hd⟩ := gatherText_frame u s
  have hne := scanText_error_ne_none u s.lat.src s.lat.len.toNat 0 s
  unfold State.measuredTextRun
  split <;> rename_i s1 heq <;> rw [heq] at hd <;> simp only at hd <;> subst hd
  · exact (finishSpan_endsOnce u (s.withReads l d) _ f).of_withReads
  · rename_i c a
    exact .inr ⟨d, c, a, hne c a (by rw [show scanText u _ _ 0 s = gatherText u s from rfl, heq]), rfl⟩

/-- The past has no part in what an algorithm computes. -/
@[simp] theorem digest_fresh (s : State) (a : Alg) (d : Bool) : s.fresh.digest a d = s.digest a d := by
  cases a <;> rfl

/-- Every legal command on free bytes ends in one completion. -/
theorem replayFree_endsOnce (s : State) (i : Instr) : EndsOnce s (s.digest i.alg i.dseed) (s.replayFree i) := by
  unfold State.replayFree
  split
  · exact finishSpan_endsOnce ..
  · split
    · exact measuredTextRun_endsOnce ..
    · exact textRun_endsOnce ..

/-- Every legal command's reads end in one completion. -/
theorem replay_endsOnce (s : State) (i : Instr) : EndsOnce s (s.digest i.alg i.dseed) (s.replay i) := by
  unfold State.replay
  split
  · unfold State.spanReplay
    split
    · exact finishSpan_endsOnce ..
    · exact (finishSpan_endsOnce _ (s.withReads s.past _) _ _).of_withReads
  · split
    · unfold State.measuredTextReplay
      split
      · exact measuredTextRun_endsOnce ..
      · exact (measuredTextRun_endsOnce _ (s.withReads s.past _) _).of_withReads
    · unfold State.textReplay
      split
      · exact textRun_endsOnce ..
      · exact (textRun_endsOnce _ (s.withReads s.past _) _).of_withReads

/-- Every legal command that is not held ends in one completion. -/
theorem run_endsOnce (s : State) (i : Instr) : EndsOnce s (s.digest i.alg i.dseed) (s.run i) := by
  have h := replay_endsOnce s.fresh i
  rw [digest_fresh] at h
  exact h.of_withReads

/-- Everything a command's run can end in: one completion of the started state, with some count of free bytes. -/
theorem runCommand_cases (i : Instr) (s : State) :
    (∃ d b, runCommand i s = ((s.started i.alg).withDraws d).complete
      ((s.started i.alg).digest i.alg i.dseed b) b.length) ∨
    (∃ d c a, c ≠ .none ∧ runCommand i s = ((s.started i.alg).withDraws d).cmdError c a) :=
  run_endsOnce (s.started i.alg) i

/-- Everything one step can do: a hardware reset, or the event of the agent whose turn it is. -/
theorem step_cases (s t : State) (h : step s = .next t) :
    (s.resetLine = true ∧ t = s.hardReset) ∨
    (s.resetLine = false ∧ State.agentStep s.nextTurn.1 s.nextTurn.2 = .next t) := by
  unfold step at h
  split at h
  · exact .inl ⟨‹_›, by cases h; rfl⟩
  · exact .inr ⟨Bool.eq_false_iff.2 ‹_›, h⟩

/-- Taking a turn off changes only the schedule. -/
theorem nextTurn_frame (s : State) : ∃ l n, s.nextTurn.2 = s.withSchedule l n := by
  unfold State.nextTurn
  split
  · exact ⟨_, s.turns, rfl⟩
  · exact ⟨[], s.turns + 1, rfl⟩

/-- Everything a turn `command` can do: the run of the latched command, ILLEGAL, or one engine step. -/
theorem commandStep_cases (s : State) :
    (∃ i, s.phase = .held ∧ decode s.lat.word = .ok i ∧ s.commandStep = .next (runCommand i s)) ∨
    (∃ r, s.phase = .held ∧ decode s.lat.word = .reject r ∧ s.commandStep = .next (s.cmdError .illegal 0#32)) ∨
    (s.phase ≠ .held ∧ s.commandStep = .next s.engineStep) := by
  unfold State.commandStep
  cases hp : s.phase with
  | idle => exact .inr (.inr ⟨by simp, rfl⟩)
  | held =>
    cases hd : decode s.lat.word with
    | ok i => exact .inl ⟨i, rfl, rfl, exec_eq i s⟩
    | reject r => exact .inr (.inl ⟨r, rfl, rfl, rfl⟩)
  | scan i => exact .inr (.inr ⟨by simp, rfl⟩)
  | hash i => exact .inr (.inr ⟨by simp, rfl⟩)

end Sys2Proof.Machine
end

