-- ==== Sys2Proof/Laws/PerInstr.lean ====
section
/-! SUPPORT. Laws stated instruction by instruction. -/

namespace Sys2Proof.Laws.EncodedFields

/-- The encoder puts each field where 30_encoding.md R80 has it, with RSVD 0, so the fields are well formed (R84). -/
def Statement (i : Instr) : Prop :=
  splitWord (encode i) = { alg := i.alg.code, shape := i.shape.bit, dseed := i.dseed, rsvd := 0#26 } ∧
    (splitWord (encode i)).wellFormed = true ∧ i.wellFormed = true

theorem crc32Span (dseed : Bool) : Statement (.crc32Span dseed) := by
  cases dseed <;> exact ⟨by decide, by decide, by decide⟩

theorem crc32Text (dseed : Bool) : Statement (.crc32Text dseed) := by
  cases dseed <;> exact ⟨by decide, by decide, by decide⟩

theorem djb2Span (dseed : Bool) : Statement (.djb2Span dseed) := by
  cases dseed <;> exact ⟨by decide, by decide, by decide⟩

theorem djb2Text (dseed : Bool) : Statement (.djb2Text dseed) := by
  cases dseed <;> exact ⟨by decide, by decide, by decide⟩

theorem djb2aSpan (dseed : Bool) : Statement (.djb2aSpan dseed) := by
  cases dseed <;> exact ⟨by decide, by decide, by decide⟩

theorem djb2aText (dseed : Bool) : Statement (.djb2aText dseed) := by
  cases dseed <;> exact ⟨by decide, by decide, by decide⟩

theorem fnv1aSpan (dseed : Bool) : Statement (.fnv1aSpan dseed) := by
  cases dseed <;> exact ⟨by decide, by decide, by decide⟩

theorem fnv1aText (dseed : Bool) : Statement (.fnv1aText dseed) := by
  cases dseed <;> exact ⟨by decide, by decide, by decide⟩

theorem fnv1a64Span (dseed : Bool) : Statement (.fnv1a64Span dseed) := by
  cases dseed <;> exact ⟨by decide, by decide, by decide⟩

theorem fnv1a64Text (dseed : Bool) : Statement (.fnv1a64Text dseed) := by
  cases dseed <;> exact ⟨by decide, by decide, by decide⟩

theorem murmur2Span (dseed : Bool) : Statement (.murmur2Span dseed) := by
  cases dseed <;> exact ⟨by decide, by decide, by decide⟩

theorem murmur2Text (dseed : Bool) : Statement (.murmur2Text dseed) := by
  cases dseed <;> exact ⟨by decide, by decide, by decide⟩

theorem murmur2aSpan (dseed : Bool) : Statement (.murmur2aSpan dseed) := by
  cases dseed <;> exact ⟨by decide, by decide, by decide⟩

theorem murmur2aText (dseed : Bool) : Statement (.murmur2aText dseed) := by
  cases dseed <;> exact ⟨by decide, by decide, by decide⟩

theorem murmur2_64Span (dseed : Bool) : Statement (.murmur2_64Span dseed) := by
  cases dseed <;> exact ⟨by decide, by decide, by decide⟩

theorem murmur2_64Text (dseed : Bool) : Statement (.murmur2_64Text dseed) := by
  cases dseed <;> exact ⟨by decide, by decide, by decide⟩

theorem murmur3Span (dseed : Bool) : Statement (.murmur3Span dseed) := by
  cases dseed <;> exact ⟨by decide, by decide, by decide⟩

theorem murmur3Text (dseed : Bool) : Statement (.murmur3Text dseed) := by
  cases dseed <;> exact ⟨by decide, by decide, by decide⟩

end Sys2Proof.Laws.EncodedFields
end

