-- ==== Sys2Proof/Laws/Step.lean ====
section
/-! SUPPORT. What one event can do, said once for each agent: a register write, a host event, an engine step. Later proofs
take these cases and unfold nothing. -/

namespace Sys2Proof.Machine

/-- An offset whose number is known. -/
theorem offset_eq (o : BitVec 8) (n : Nat) (h : o.toNat = n) (hn : n < 256) : o = BitVec.ofNat 8 n := by
  apply BitVec.eq_of_toNat_eq
  rw [h, BitVec.toNat_ofNat]
  exact (Nat.mod_eq_of_lt hn).symm

/-- Everything a register write can do. -/
theorem writeReg_cases (s : State) (o : BitVec 8) (v : Word) :
    s.writeReg o v = s ∨
    (o = 0x0C#8 ∧ s.writeReg o v = s.writeCtrl v) ∨
    (o = 0x10#8 ∧ s.writeReg o v = s.writeCmd v) ∨
    (o = 0x14#8 ∧ s.writeReg o v = s.writeStatus v) ∨
    (o = 0x18#8 ∧ s.writeReg o v = { s with srcAddr := v }) ∨
    (o = 0x1C#8 ∧ s.writeReg o v = { s with length := v }) ∨
    (o = 0x20#8 ∧ s.writeReg o v = { s with seedLo := v }) ∨
    (o = 0x24#8 ∧ s.writeReg o v = { s with seedHi := v }) ∨
    (o = 0x38#8 ∧ s.writeReg o v = { s with tabIndex := v.extractLsb' 0 8 }) := by
  unfold State.writeReg
  split <;> rename_i h
  · exact .inr (.inl ⟨offset_eq o _ h (by decide), rfl⟩)
  · exact .inr (.inr (.inl ⟨offset_eq o _ h (by decide), rfl⟩))
  · exact .inr (.inr (.inr (.inl ⟨offset_eq o _ h (by decide), rfl⟩)))
  · exact .inr (.inr (.inr (.inr (.inl ⟨offset_eq o _ h (by decide), rfl⟩))))
  · exact .inr (.inr (.inr (.inr (.inr (.inl ⟨offset_eq o _ h (by decide), rfl⟩)))))
  · exact .inr (.inr (.inr (.inr (.inr (.inr (.inl ⟨offset_eq o _ h (by decide), rfl⟩))))))
  · exact .inr (.inr (.inr (.inr (.inr (.inr (.inr (.inl ⟨offset_eq o _ h (by decide), rfl⟩)))))))
  · exact .inr (.inr (.inr (.inr (.inr (.inr (.inr (.inr ⟨offset_eq o _ h (by decide), rfl⟩)))))))
  · exact .inl rfl

/-- Everything a POLL read can do: its read, and perhaps the end of the poll. -/
theorem hostPoll_cases (s : State) (o : BitVec 8) (m v : Word) (rest : List HostOp) :
    ∃ r l, s.hostPoll o m v rest = { s with response := r, script := l } ∧ (l = s.script ∨ l = rest) := by
  unfold State.hostPoll State.hostRead
  split
  · simp only
    split
    · exact ⟨_, rest, rfl, .inr rfl⟩
    · exact ⟨_, s.script, rfl, .inl rfl⟩
  · exact ⟨_, s.script, rfl, .inl rfl⟩

/-- Everything a host event that goes on can do: nothing, a taken register write, a change of the port's answer and the
script, a memory write, an address made to fail, or the assertion of the reset input. -/
theorem hostStep_cases (s t : State) (h : s.hostStep = .next t) :
    t = s ∨
    (∃ o v rest, s.script = .write .w32 o v :: rest ∧
      t = { s.writeReg o v with response := .ack, script := rest }) ∨
    (∃ r l, t = { s with response := r, script := l }) ∨
    (∃ a b rest, s.script = .memb a b :: rest ∧ a.toNat + b.length ≤ addressSpace ∧
      t = { s.writeMem a.toNat b with script := rest }) ∨
    (∃ a rest, s.script = .busFault a :: rest ∧ t = { s.faultMem a with script := rest }) ∨
    (∃ rest, s.script = .assertReset :: rest ∧ t = { s with resetLine := true, script := rest }) := by
  unfold State.hostStep at h
  split at h
  · cases h; exact .inl rfl
  · rename_i w o v rest hs
    cases h
    unfold State.hostWrite
    split
    · rename_i ha
      have hw : w = .w32 := by cases w <;> simp_all [accessAccepted, AccessWidth.accepted]
      subst hw
      exact .inr (.inl ⟨o, v, rest, hs, rfl⟩)
    · exact .inr (.inr (.inl ⟨_, rest, rfl⟩))
  · cases h
    unfold State.hostRead
    split <;> exact .inr (.inr (.inl ⟨_, _, rfl⟩))
  · rename_i o m v rest hs
    cases h
    obtain ⟨r, l, e, _⟩ := hostPoll_cases s o m v rest
    exact .inr (.inr (.inl ⟨r, l, e⟩))
  · rename_i a b rest hs
    split at h
    · cases h
      exact .inr (.inr (.inr (.inl ⟨a, b, rest, hs, ‹_›, rfl⟩)))
    · cases h
  · rename_i a rest hs
    cases h
    exact .inr (.inr (.inr (.inr (.inl ⟨a, rest, hs, rfl⟩))))
  · rename_i rest hs
    cases h
    exact .inr (.inr (.inr (.inr (.inr ⟨rest, hs, rfl⟩))))

/-- Only a memory event that leaves the address space stops the host, and only with its own fault. -/
theorem hostStep_fault (s : State) :
    (∀ r, s.hostStep ≠ .refused r) ∧
    ∀ f, s.hostStep = .fault f → f = .memoryAddress ∧
      ∃ a b rest, s.script = .memb a b :: rest ∧ addressSpace < a.toNat + b.length := by
  unfold State.hostStep
  split
  · exact ⟨fun _ h => (nomatch h), fun _ h => (nomatch h)⟩
  · exact ⟨fun _ h => (nomatch h), fun _ h => (nomatch h)⟩
  · exact ⟨fun _ h => (nomatch h), fun _ h => (nomatch h)⟩
  · exact ⟨fun _ h => (nomatch h), fun _ h => (nomatch h)⟩
  · rename_i a b rest hs
    split
    · exact ⟨fun _ h => (nomatch h), fun _ h => (nomatch h)⟩
    · exact ⟨fun _ h => (nomatch h), fun f h => by cases h; exact ⟨rfl, a, b, rest, hs, Nat.lt_of_not_le ‹_›⟩⟩
  · exact ⟨fun _ h => (nomatch h), fun _ h => (nomatch h)⟩
  · exact ⟨fun _ h => (nomatch h), fun _ h => (nomatch h)⟩

/-- Everything an engine step can do: nothing, the start of a pass, one byte of a pass, the terminator of a one-pass TEXT, or
one completion. -/
theorem engineStep_cases (s : State) :
    s.engineStep = s ∨
    (s.busy = true ∧
      ((∃ l i n, s.engineStep = (s.withReads l s.draws).beginHash i n) ∨
      (∃ i, s.phase = .held ∧ s.engineStep = { s.fresh with phase := .scan i, cursor := 0 }) ∨
      (∃ i v, s.phase = .scan i ∧ s.mem.read (s.lat.src.toNat + s.cursor) = some v ∧
        s.engineStep = { s.noted v with cursor := s.cursor + 1 }) ∨
      (∃ i v, s.phase = .hash i ∧ s.mem.read (s.lat.src.toNat + s.cursor) = some v ∧ s.engineStep = s.consume i v) ∨
      (∃ i v, s.phase = .hash i ∧ onePassText i = true ∧ s.engineStep = { s.noted v with len := s.cursor }) ∨
      (∃ d h n, s.engineStep = (s.withDraws d).complete h n) ∨
      (∃ d c a, c ≠ .none ∧ s.engineStep = (s.withDraws d).cmdError c a))) := by
  have ends : ∀ (f : List Byte → Digest) (t : State), EndsOnce s f t →
      (∃ d h n, t = (s.withDraws d).complete h n) ∨ (∃ d c a, c ≠ .none ∧ t = (s.withDraws d).cmdError c a) := by
    rintro f t (⟨d, b, h⟩ | ⟨d, c, a, hc, h⟩)
    · exact .inl ⟨d, _, _, h⟩
    · exact .inr ⟨d, c, a, hc, h⟩
  unfold State.engineStep
  split
  · exact .inl rfl
  · rename_i hp
    have hb : s.busy = true := by simp [State.busy, hp]
    unfold State.startStep
    split
    · exact .inr ⟨hb, .inr (.inr (.inr (.inr (.inr (.inr ⟨s.draws, _, _, by decide, rfl⟩)))))⟩
    · split
      · exact .inl rfl
      · split
        · exact .inr ⟨hb, .inr (.inl ⟨_, hp, rfl⟩)⟩
        · exact .inr ⟨hb, .inl ⟨[], _, _, rfl⟩⟩
  · rename_i i hp
    refine .inr ⟨by simp [State.busy, hp], ?_⟩
    split
    · exact .inr (.inr (.inr (.inr (.inr (ends _ _ (replay_endsOnce s i))))))
    · unfold State.scanStep
      split
      · exact .inr (.inr (.inr (.inr (.inr (.inr ⟨s.draws, _, _, by decide, rfl⟩)))))
      · split
        · exact .inr (.inr (.inr (.inr (.inr (.inr ⟨s.draws, _, _, by decide, rfl⟩)))))
        · split
          · exact .inr (.inr (.inr (.inr (.inr (ends _ _ (replayFree_endsOnce s i))))))
          · split
            · exact .inr (.inr (.inr (.inr (.inr (.inr ⟨s.draws, _, _, by decide, rfl⟩)))))
            · rename_i v hv
              split
              · exact .inl ⟨s.past ++ [.read v], _, _, rfl⟩
              · exact .inr (.inr (.inl ⟨i, v, hp, hv, rfl⟩))
  · rename_i i hp
    refine .inr ⟨by simp [State.busy, hp], ?_⟩
    split
    · exact .inr (.inr (.inr (.inr (.inr (ends _ _ (replay_endsOnce s i))))))
    · split
      · rename_i hone
        unfold State.textHashStep
        split
        · exact .inr (.inr (.inr (.inr (.inr (.inr ⟨s.draws, _, _, by decide, rfl⟩)))))
        · split
          · exact .inr (.inr (.inr (.inr (.inr (.inl ⟨s.draws, _, _, rfl⟩)))))
          · split
            · exact .inr (.inr (.inr (.inr (.inr (.inr ⟨s.draws, _, _, by decide, rfl⟩)))))
            · split
              · exact .inr (.inr (.inr (.inr (.inr (ends _ _ (replayFree_endsOnce s i))))))
              · split
                · exact .inr (.inr (.inr (.inr (.inr (.inr ⟨s.draws, _, _, by decide, rfl⟩)))))
                · rename_i v hv
                  split
                  · exact .inr (.inr (.inr (.inr (.inl ⟨i, v, hp, hone, rfl⟩))))
                  · exact .inr (.inr (.inr (.inl ⟨i, v, hp, hv, rfl⟩)))
      · unfold State.spanHashStep
        split
        · exact .inr (.inr (.inr (.inr (.inr (.inr ⟨s.draws, _, _, by decide, rfl⟩)))))
        · split
          · exact .inr (.inr (.inr (.inr (.inr (.inl ⟨s.draws, _, _, rfl⟩)))))
          · split
            · exact .inr (.inr (.inr (.inr (.inr (ends _ _ (replayFree_endsOnce s i))))))
            · split
              · exact .inr (.inr (.inr (.inr (.inr (.inr ⟨s.draws, _, _, by decide, rfl⟩)))))
              · rename_i v hv
                exact .inr (.inr (.inr (.inl ⟨i, v, hp, hv, rfl⟩)))

/-- The tail keeps the bytes of a hash pass that do not fill a word (00_scope.md R14). -/
theorem absorb_length (s : State) (a : Alg) (acc : DWord) (t : List Byte) (v : Byte) (n : Nat)
    (h : t.length = n % Alg.wordSize a) : (absorb s a acc t v).2.length = (n + 1) % Alg.wordSize a := by
  have hw : 0 < Alg.wordSize a := by cases a <;> decide
  have hm := Nat.mod_lt n hw
  have hs : (n + 1) % Alg.wordSize a = (n % Alg.wordSize a + 1) % Alg.wordSize a := by simp
  simp only [absorb, List.length_append, List.length_singleton, h, hs]
  split
  · rename_i hl
    simp only [List.length_append, List.length_singleton, h]
    exact (Nat.mod_eq_of_lt hl).symm
  · rename_i hl
    rw [show n % Alg.wordSize a + 1 = Alg.wordSize a by omega, Nat.mod_self]
    rfl

end Sys2Proof.Machine
end

