-- ==== Sys2Proof/Laws/Table.lean ====
section
/-! SUPPORT. The laws of the CRC table: what the generator's run writes, and that a CRC32 command's wait leaves the table
sound and ready. -/

namespace Sys2Proof.Machine

/-- As many entries as asked for. -/
@[simp] theorem crcEntries_length (p : Word) (k n : Nat) : (crcEntries p k n).length = k := by
  induction k generalizing n with
  | zero => rfl
  | succ k ih => simp [crcEntries, ih]

/-- Each entry is the one of its index. -/
theorem crcEntries_getElem? (p : Word) (k n j : Nat) (h : j < k) :
    (crcEntries p k n)[j]? = some (crcEntry p (n + j)) := by
  induction k generalizing n j with
  | zero => omega
  | succ k ih =>
    cases j with
    | zero => simp [crcEntries]
    | succ j =>
      simp only [crcEntries, List.getElem?_cons_succ]
      rw [ih (n + 1) j (by omega), show n + 1 + j = n + (j + 1) by omega]

/-- The wait of a CRC32 command keeps the table sound, and leaves it ready in a build that has one. -/
theorem awaitTable_sound (s : State) (h : TableSound s) :
    TableSound s.awaitTable ∧ (s.build.crcTableEn = true → s.awaitTable.tgen = .ready) := by
  obtain ⟨h1, h2, h3⟩ := h
  unfold State.awaitTable
  split
  · rename_i en
    unfold State.finishTable
    split
    · rename_i n hn
      have hn' := n.isLt
      refine ⟨⟨?_, ?_, ?_⟩, fun _ => rfl⟩
      · simp only [List.length_append, List.length_take, h1, crcEntries_length]; omega
      · simp [en]
      · intro j hj
        simp only [TGen.filled] at hj
        simp only
        by_cases hjn : j < n.val
        · rw [List.getElem?_append_left (by simp only [List.length_take, h1]; omega), List.getElem?_take_of_lt hjn]
          exact h3 j (by rw [hn]; exact hjn)
        · have hl : (s.table.take n.val).length = n.val := by simp only [List.length_take, h1]; omega
          rw [List.getElem?_append_right (by omega), hl, crcEntries_getElem? _ _ _ _ (by omega),
            show n.val + (j - n.val) = j by omega]
    · rename_i hr
      exact ⟨⟨h1, h2, h3⟩, fun _ => hr⟩
    · rename_i hr
      exact absurd (h2.1 hr) (by simp [en])
  · rename_i en
    exact ⟨⟨h1, h2, h3⟩, fun h => absurd h en⟩

/-- The start of any command keeps the table sound. -/
theorem started_sound (s : State) (a : Alg) (h : TableSound s) : TableSound (s.started a) := by
  cases a
  · exact (awaitTable_sound s h).1
  all_goals exact h

end Sys2Proof.Machine
end

