-- ==== Sys2Proof/Tests/Slice0.lean ====
section
/-! SUPPORT. The model's own tests: expected values are those of spec/, named in each comment. Then a witness for the
hypotheses of every statement of Certificates/Slice0/Obligations.lean. -/

set_option Elab.async false

open Sys2Proof Sys2Proof.Machine Sys2Proof.Claims

namespace Sys2Proof.Tests

/-! Helpers -/

/-- The ASCII bytes of a string (95_test_vectors.md, Conventions). -/
def ascii (s : String) : List Byte := s.toList.map fun c => BitVec.ofNat 8 c.toNat

/-- After reset, with bytes `m` in memory from `src` on and the operand registers set. -/
def input (src : Word) (m : List Byte) (len : Word) (seed : DWord) : State :=
  { State.reset with
    mem := Memory.writeAll [] src.toNat m
    srcAddr := src, length := len
    seedLo := seed.extractLsb' 0 32, seedHi := seed.extractLsb' 32 32 }

/-- What a test looks at after one step: ERRCODE, ERR_ADDR, the result and COUNT. -/
def seen : Host.Outcome State Fault Refusal → Option (ErrCode × Word × Digest × Nat)
  | .next t => some (t.errcode, t.errAddr, .w64 (t.resultHi ++ t.resultLo), t.count.toNat)
  | .fault _ => none
  | .refused _ => none

/-- One step of the command word `w` from `s`. -/
def runs (s : State) (w : Nat) : Option (ErrCode × Word × Digest × Nat) := seen (step (s.withFetchWord 32 w))

/-- The SPAN `m` under the word `w`. -/
def runSpan (w : Nat) (m : List Byte) (seed : DWord) : Option (ErrCode × Word × Digest × Nat) :=
  runs (input 0x1000#32 m (BitVec.ofNat 32 m.length) seed) w

/-- The TEXT `m`, terminated, under the word `w`. -/
def runText (w : Nat) (m : List Byte) (seed : DWord) : Option (ErrCode × Word × Digest × Nat) :=
  runs (input 0x1000#32 (m ++ [0#8]) 0x100#32 seed) w

/-- A success with result `h` and COUNT `n`, from registers at reset. -/
def success (h : DWord) (n : Nat) : Option (ErrCode × Word × Digest × Nat) := some (.none, 0#32, .w64 h, n)

/-- An error, from registers at reset. -/
def failure (c : ErrCode) (a : Word) : Option (ErrCode × Word × Digest × Nat) := some (c, a, .w64 0#64, 0)

/-! The checks on syntax -/

/-- 30_encoding.md R84: ALG = 9 and ALG = 15. -/
theorem test_wellFormed_reserved_alg :
    ({ alg := 9#4, shape := false, dseed := false, rsvd := 0#26 } : CommandFields).wellFormed = false ∧
      ({ alg := 15#4, shape := true, dseed := true, rsvd := 0#26 } : CommandFields).wellFormed = false := by decide

/-- 30_encoding.md R84: RSVD bit 6 and bit 31. -/
theorem test_wellFormed_reserved_bits :
    ({ alg := 0#4, shape := false, dseed := false, rsvd := 1#26 } : CommandFields).wellFormed = false ∧
      ({ alg := 5#4, shape := false, dseed := false, rsvd := 0x2000000#26 } : CommandFields).wellFormed = false := by
  decide

/-- 30_encoding.md R84: ALG = 8 with both free bits. -/
theorem test_wellFormed_legal :
    ({ alg := 8#4, shape := true, dseed := true, rsvd := 0#26 } : CommandFields).wellFormed = true := by decide

/-- 20_memory.md R70: 8-bit, 16-bit and 64-bit accesses. -/
theorem test_access_width_refused :
    accessAccepted .w8 0x14#8 = false ∧ accessAccepted .w16 0x14#8 = false ∧ accessAccepted .w64 0x18#8 = false := by
  decide

/-- 20_memory.md R70: offsets with bits [1:0] not 0, and one that is taken. -/
theorem test_access_alignment :
    accessAccepted .w32 0x15#8 = false ∧ accessAccepted .w32 0x12#8 = false ∧ accessAccepted .w32 0xFC#8 = true := by
  decide

/-! Decoding: the columns `match` and `mask` of 30_encoding.md R86, the bits of R80 written out -/

/-- ALG = 0. -/
theorem test_decode_crc32 : decode 0b00000000#32 = .ok (.crc32Span false) ∧ decode 0b00010000#32 = .ok (.crc32Text false) ∧
    decode 0b00100000#32 = .ok (.crc32Span true) ∧ decode 0b00110000#32 = .ok (.crc32Text true) := by decide

/-- ALG = 1. -/
theorem test_decode_djb2 : decode 0b00000001#32 = .ok (.djb2Span false) ∧ decode 0b00110001#32 = .ok (.djb2Text true) := by
  decide

/-- ALG = 2. -/
theorem test_decode_djb2a : decode 0b00100010#32 = .ok (.djb2aSpan true) ∧ decode 0b00010010#32 = .ok (.djb2aText false) := by
  decide

/-- ALG = 3. -/
theorem test_decode_fnv1a : decode 0b00000011#32 = .ok (.fnv1aSpan false) ∧ decode 0b00110011#32 = .ok (.fnv1aText true) := by
  decide

/-- ALG = 4. -/
theorem test_decode_fnv1a64 :
    decode 0b00100100#32 = .ok (.fnv1a64Span true) ∧ decode 0b00010100#32 = .ok (.fnv1a64Text false) := by decide

/-- ALG = 5. -/
theorem test_decode_murmur2 :
    decode 0b00000101#32 = .ok (.murmur2Span false) ∧ decode 0b00110101#32 = .ok (.murmur2Text true) := by decide

/-- ALG = 6. -/
theorem test_decode_murmur2a :
    decode 0b00100110#32 = .ok (.murmur2aSpan true) ∧ decode 0b00010110#32 = .ok (.murmur2aText false) := by decide

/-- ALG = 7. -/
theorem test_decode_murmur2_64 :
    decode 0b00000111#32 = .ok (.murmur2_64Span false) ∧ decode 0b00110111#32 = .ok (.murmur2_64Text true) := by decide

/-- ALG = 8. -/
theorem test_decode_murmur3 :
    decode 0b00101000#32 = .ok (.murmur3Span true) ∧ decode 0b00011000#32 = .ok (.murmur3Text false) := by decide

/-- 95_test_vectors.md 3.7, the illegal words; and byte strings that are not one word (30_encoding.md R87). -/
theorem test_decode_illegal :
    decode 0x00000009#32 = .reject .reservedAlg ∧ decode 0x0000003F#32 = .reject .reservedAlg ∧
      decode 0x00000040#32 = .reject .reservedBits ∧ decode 0x80000005#32 = .reject .reservedBits ∧
      decodeBytes [] = .reject .notOneWord ∧ decodeBytes [0#8, 0#8] = .reject .notOneWord := by decide

/-- The byte order of a command word (20_memory.md R71) and the host's numbering of its bits. -/
theorem test_decodeTableWord :
    decodeTableWord 32 0x38 = some (.murmur3Text true) ∧ decodeTableWord 32 0x3800 = none ∧
      decodeBytes [0x38#8, 0#8, 0#8, 0#8] = .ok (.murmur3Text true) := by decide

/-- 30_encoding.md R88: assembler lines, in any case. -/
theorem test_assemble :
    assemble "HASH.MURMUR3.TEXT.D" = some 0x38#32 ∧ assemble "hash.fnv1a64.span" = some 0x04#32 ∧
      assemble "HASH.SHA1.SPAN" = none := by decide +kernel

/-! One command each, one step -/

/-- 95_test_vectors.md V2, with the table not yet ready after reset (40_command.md R102). -/
theorem test_crc32_span : runSpan 0x20 (ascii "123456789") 0#64 = success 0xCBF43926#64 9 := by decide +kernel

/-- 95_test_vectors.md 3.1, "hello" with seed 0x12345678. -/
theorem test_crc32_text : runText 0x10 (ascii "hello") 0x12345678#64 = success 0x4A426069#64 5 := by decide +kernel

/-- 95_test_vectors.md 3.1: the polynomial 0, without the table (41_crc32.md R132). -/
theorem test_crc32_bitwise :
    runs { input 0x1000#32 (ascii "1") 1#32 0#64 with
        build := { Config.Build.default with crcPoly := 0#32, crcTableEn := false }, tgen := .absent } 0x00 =
      success 0xFF000000#64 1 := by decide +kernel

/-- 95_test_vectors.md 3.2: the wrap of h * 33, with SEED_HI ignored (40_command.md R103). -/
theorem test_djb2_span : runSpan 0x01 (ascii "a") 0x77777777FFFFFFFF#64 = success 0x00000040#64 1 := by decide +kernel

/-- 95_test_vectors.md 3.2, "hello". -/
theorem test_djb2_text : runText 0x11 (ascii "hello") 0x12345678#64 = success 0x4DD851EC#64 5 := by decide +kernel

/-- 95_test_vectors.md 3.2: the byte FF is zero extended. -/
theorem test_djb2a_span : runSpan 0x22 [0xFF#8] 0#64 = success 0x0002B55A#64 1 := by decide +kernel

/-- 95_test_vectors.md 3.2, "hello". -/
theorem test_djb2a_text : runText 0x12 (ascii "hello") 0x12345678#64 = success 0x3F2444FA#64 5 := by decide +kernel

/-- 95_test_vectors.md 3.3: the byte 80. -/
theorem test_fnv1a_span : runSpan 0x23 [0x80#8] 0#64 = success 0x850B939F#64 1 := by decide +kernel

/-- 95_test_vectors.md 3.3, "hello". -/
theorem test_fnv1a_text : runText 0x13 (ascii "hello") 0x12345678#64 = success 0x66CE6340#64 5 := by decide +kernel

/-- 95_test_vectors.md 3.3: the byte FF, a 64-bit result. -/
theorem test_fnv1a64_span : runSpan 0x24 [0xFF#8] 0#64 = success 0xAF64724C8602EB6E#64 1 := by decide +kernel

/-- 95_test_vectors.md 3.3: an explicit 64-bit seed. -/
theorem test_fnv1a64_text :
    runText 0x14 (ascii "hello") 0x0123456789ABCDEF#64 = success 0x82AB7E48C8005CD5#64 5 := by decide +kernel

/-- 95_test_vectors.md 3.4: a tail of three FF. -/
theorem test_murmur2_span : runSpan 0x05 [0xFF#8, 0xFF#8, 0xFF#8] 0#64 = success 0xE7B72D6B#64 3 := by decide +kernel

/-- 95_test_vectors.md 3.4: a word, a tail and a seed. -/
theorem test_murmur2_text : runText 0x15 (ascii "12345") 0x9747B28C#64 = success 0xB92AFADC#64 5 := by decide +kernel

/-- 95_test_vectors.md 3.4: three words and three bytes, PER_BYTE. -/
theorem test_murmur2a_span : runSpan 0x06 (ascii "0123456789ABCDE") 0#64 = success 0xEFB89691#64 15 := by decide +kernel

/-- 95_test_vectors.md 3.4: the same in TEXT shape with MM2A_TAIL = COMBINED. -/
theorem test_murmur2a_text_combined :
    runs { input 0x1000#32 (ascii "0123456789ABCDE" ++ [0#8]) 0x100#32 0#64 with
        build := { Config.Build.default with mm2aTail := .combined } } 0x16 = success 0x72DA436F#64 15 := by
  decide +kernel

/-- 95_test_vectors.md 3.4: XOR_THEN_MUL, one word and seven bytes. -/
theorem test_murmur2_64_span :
    runSpan 0x07 (ascii "0123456789ABCDE") 0#64 = success 0x7599094176F77396#64 15 := by decide +kernel

/-- 95_test_vectors.md 3.4: MUL_THEN_XOR, one word and seven bytes. -/
theorem test_murmur2_64_span_mulThenXor :
    runs { input 0x1000#32 (ascii "0123456789ABCDE") 15#32 0#64 with
        build := { Config.Build.default with mm64Fold := .mulThenXor } } 0x07 = success 0x8959B58C332A48E0#64 15 := by
  decide +kernel

/-- 95_test_vectors.md 3.4: an explicit 64-bit seed. -/
theorem test_murmur2_64_text :
    runText 0x17 (ascii "hello") 0x0123456789ABCDEF#64 = success 0xCC87083C34C82DD0#64 5 := by decide +kernel

/-- 95_test_vectors.md V5. -/
theorem test_murmur3_span : runSpan 0x08 (ascii "test") 0#64 = success 0xBA6BD213#64 4 := by decide +kernel

/-- 95_test_vectors.md 3.5, "hello". -/
theorem test_murmur3_text : runText 0x18 (ascii "hello") 0x12345678#64 = success 0xC7E66D96#64 5 := by decide +kernel

/-! Errors and corners: rows of 95_test_vectors.md 3.8 -/

/-- FNV1A.SPAN.D at 0xFFFFFFFF, LENGTH 0, 1 and 2: no read, the last byte, RANGE. -/
theorem test_span_top :
    runs (input 0xFFFFFFFF#32 [] 0#32 0#64) 0x23 = success 0x811C9DC5#64 0 ∧
      runs (input 0xFFFFFFFF#32 [0x61#8] 1#32 0#64) 0x23 = success 0xE40C292C#64 1 ∧
      runs (input 0xFFFFFFFF#32 [0x61#8] 2#32 0#64) 0x23 = failure .range 0xFFFFFFFF#32 := by decide +kernel

/-- DJB2.SPAN.D, BUS at 0x6002; MURMUR3.TEXT, BUS in the scan. -/
theorem test_bus :
    runs (input 0x6000#32 [1#8, 2#8] 4#32 0#64) 0x21 = failure .bus 0x6002#32 ∧
      runs (input 0x7000#32 [] 8#32 0#64) 0x18 = failure .bus 0x7000#32 := by decide +kernel

/-- DJB2.TEXT.D over "abcd" with LENGTH 4 and 5: the limit before the terminator. -/
theorem test_noterm :
    runs (input 0x5000#32 (ascii "abcd" ++ [0#8]) 4#32 0#64) 0x31 = failure .noterm 0x5000#32 ∧
      runs (input 0x5000#32 (ascii "abcd" ++ [0#8]) 5#32 0#64) 0x31 = success 0x7C93EE4F#64 4 := by decide +kernel

/-- FNV1A.TEXT.D at the top: RANGE at offset 2, NOTERM before RANGE, the terminator in the last byte. -/
theorem test_text_top :
    runs (input 0xFFFFFFFE#32 [0x41#8, 0x42#8] 10#32 0#64) 0x33 = failure .range 0xFFFFFFFE#32 ∧
      runs (input 0xFFFFFFFE#32 [0x41#8, 0x42#8] 2#32 0#64) 0x33 = failure .noterm 0xFFFFFFFE#32 ∧
      runs (input 0xFFFFFFFF#32 [0#8] 5#32 0#64) 0x33 = success 0x811C9DC5#64 0 := by decide +kernel

/-- Illegal words 0x00000009 and 0x00000060. -/
theorem test_illegal :
    runs (input 0x1000#32 [] 4#32 0#64) 0x09 = failure .illegal 0#32 ∧
      runs (input 0x1000#32 [] 4#32 0#64) 0x60 = failure .illegal 0#32 := by decide +kernel

/-! Registers: rows of 95_test_vectors.md 3.9, and the table entries of 3.1 -/

/-- The constants, and a build without the table. -/
theorem test_constants :
    State.reset.readReg 0x00#8 = 0x48430100#32 ∧ State.reset.readReg 0x04#8 = 0x00092001#32 ∧
      capsWord { Config.Build.default with crcTableEn := false } = 0x00092000#32 ∧
      State.reset.readReg 0x08#8 = 0xEDB88320#32 ∧ State.reset.readReg 0xFC#8 = 0#32 := by decide +kernel

/-- W(0x0C, 3), W(0x38, 0x1FF). -/
theorem test_ctrl_and_index :
    (State.reset.writeReg 0x0C#8 3#32).readReg 0x0C#8 = 1#32 ∧
      (State.reset.writeReg 0x38#8 0x1FF#32).readReg 0x38#8 = 0xFF#32 := by decide +kernel

/-- W(0x14, 4) and W(0x14, 2) on DONE = ERR = 1 with ERRCODE 3. -/
theorem test_status_w1c :
    let s := { State.reset with done := true, err := true, errcode := .bus }
    (s.writeReg 0x14#8 4#32).readReg 0x14#8 = 0x002#32 ∧ (s.writeReg 0x14#8 2#32).readReg 0x14#8 = 0x304#32 := by
  decide +kernel

/-- TAB_DATA, ready and not. -/
theorem test_tabData :
    { State.reset.finishTable with tabIndex := 0xFF#8 }.readReg 0x3C#8 = 0x2D02EF8D#32 ∧
      { State.reset with tabIndex := 0x80#8 }.readReg 0x3C#8 = 0#32 := by decide +kernel

/-- The entries of 95_test_vectors.md 3.1. -/
theorem test_crcEntry :
    [0x01, 0x10, 0x55, 0x80, 0xAA, 0xFE].map (crcEntry 0xEDB88320#32) =
      [0x77073096#32, 0x1DB71064#32, 0x1B01A57B#32, 0xEDB88320#32, 0x36034AF6#32, 0x5A05DF1B#32] := by decide +kernel

/-- 95_test_vectors.md 3.5 and 3.6: rotations and word loads. -/
theorem test_rotl_and_loads :
    rotl32 0x80000000#32 15 = 0x00004000#32 ∧ rotl32 0x12345678#32 13 = 0x8ACF0246#32 ∧
      le32 [0x80#8, 0#8, 0#8, 0xFF#8] 0 = 0xFF000080#32 ∧ le64 (ascii "12345678") 0 = 0x3837363534333231#64 := by
  decide +kernel

/-! Witnesses: for every statement with hypotheses, a state and operands that meet all of them, at the ends of the ranges -/

/-- The state of `input` with the word `w` accepted: what the next step runs. -/
def latched (src : Word) (m : List Byte) (len : Word) (seed : DWord) (w : Nat) : State :=
  (input src m len seed).withFetchWord 32 w

/-- The memory of `latched` holds its bytes. -/
theorem holdsAt_latched (src : Word) (m : List Byte) (len : Word) (seed : DWord) (w : Nat) :
    HoldsAt (latched src m len seed w).mem src.toNat m := by
  intro k hk
  show (Memory.writeAll [] src.toNat m).read (src.toNat + k) = _
  rw [Memory.read_writeAll, if_pos (by omega), Nat.add_sub_cancel_left, List.getElem?_eq_getElem hk]

/-- It answers BusError right after its bytes. -/
theorem read_end_latched (src : Word) (m : List Byte) (len : Word) (seed : DWord) (w : Nat) :
    (latched src m len seed w).mem.read (src.toNat + m.length) = none := by
  show (Memory.writeAll [] src.toNat m).read (src.toNat + m.length) = _
  rw [Memory.read_writeAll, if_neg (by omega)]
  rfl

/-- Nothing was written since the acceptance, and no read has a side effect. -/
theorem steady_latched (src : Word) (m : List Byte) (len : Word) (seed : DWord) (w lo hi : Nat) :
    Steady (latched src m len seed w) lo hi :=
  ⟨fun _ _ _ h => (nomatch h), rfl⟩

/-- `SpanInput` is met by a span inside the address space. -/
theorem spanInput_latched (src : Word) (m : List Byte) (seed : DWord) (w : Nat) (hl : m.length < 2 ^ 32)
    (h : src.toNat + m.length ≤ addressSpace) :
    SpanInput (latched src m (BitVec.ofNat 32 m.length) seed w) m :=
  ⟨by show (BitVec.ofNat 32 m.length).toNat = m.length
      rw [BitVec.toNat_ofNat, Nat.mod_eq_of_lt hl], h, holdsAt_latched _ _ _ _ _, steady_latched ..⟩

/-- `TextInput` is met by a terminated text inside the address space and below its limit. -/
theorem textInput_latched (src : Word) (m : List Byte) (len : Word) (seed : DWord) (w : Nat) (hz : ∀ v ∈ m, v ≠ 0#8)
    (hl : m.length < len.toNat) (h : src.toNat + m.length < addressSpace) :
    TextInput (latched src (m ++ [0#8]) len seed w) m :=
  ⟨hz, hl, h, holdsAt_latched _ _ _ _ _, steady_latched ..⟩

/-- The table is sound right after reset, with nothing written. -/
theorem tableSound_latched (src : Word) (m : List Byte) (len : Word) (seed : DWord) (w : Nat) :
    TableSound (latched src m len seed w) := by
  refine ⟨?_, ⟨fun h => (nomatch h), fun h => (nomatch h)⟩, fun _ h => (nomatch h)⟩
  show (List.replicate 256 (0#32 : Word)).length = 256
  exact List.length_replicate

theorem witness_DecodeInvertsEncode : (Instr.crc32Span false).wellFormed = true ∧ (Instr.murmur3Text true).wellFormed = true := by
  decide

theorem witness_StepRunsTheLatchedCommand :
    let s := latched 0x1000#32 (ascii "abc") 3#32 0#64 0x38
    s.resetLine = false ∧ s.sched = .command :: [] ∧ s.phase = .held ∧ decode s.lat.word = .ok (.murmur3Text true) := by
  decide +kernel

theorem witness_FetchedWordRunsNext :
    decodeTableWord 32 0 = some (.crc32Span false) ∧ decodeTableWord 32 0x38 = some (.murmur3Text true) := by decide

theorem witness_IllegalWordEndsInIllegal :
    Illegal 9#32 ∧ Illegal 0xF#32 ∧ Illegal 0x40#32 ∧ Illegal 0x80000005#32 ∧ State.reset.busy = false := by
  unfold Illegal
  decide

/-- Both inputs of every family's completion statement: an ordinary one and the empty one, in each shape, at the bottom
and the top of the address space. The table is sound in each state. -/
theorem witness_inputs :
    SpanInput (latched 0x1000#32 (ascii "abc") 3#32 0#64 0x00) (ascii "abc") ∧
      SpanInput (latched 0xFFFFFFFD#32 (ascii "abc") 3#32 0#64 0x01) (ascii "abc") ∧
      SpanInput (latched 0xFFFFFFFF#32 [] 0#32 0#64 0x04) [] ∧
      TextInput (latched 0#32 (ascii "abc" ++ [0#8]) 4#32 0#64 0x13) (ascii "abc") ∧
      TextInput (latched 0xFFFFFFFC#32 (ascii "abc" ++ [0#8]) 0xFFFFFFFF#32 0#64 0x10) (ascii "abc") ∧
      TextInput (latched 0xFFFFFFFF#32 ([] ++ [0#8]) 1#32 0#64 0x14) [] ∧
      TableSound (latched 0x1000#32 (ascii "abc") 3#32 0#64 0x00) ∧
      TableSound (latched 0xFFFFFFFC#32 (ascii "abc" ++ [0#8]) 0xFFFFFFFF#32 0#64 0x10) :=
  ⟨spanInput_latched _ (ascii "abc") _ _ (by decide) (by decide), spanInput_latched _ (ascii "abc") _ _ (by decide) (by decide),
    spanInput_latched _ [] _ _ (by decide) (by decide),
    textInput_latched _ _ _ _ _ (by decide) (by decide) (by decide),
    textInput_latched _ _ _ _ _ (by decide) (by decide) (by decide),
    textInput_latched _ [] _ _ _ (by decide) (by decide) (by decide), tableSound_latched .., tableSound_latched ..⟩

/-- Words and a tail for the MURMUR2, MURMUR2A and MURMUR3 statements: the longest tail, and no tail. -/
theorem witness_murmur_words :
    let b := [0x74736574#32].flatMap bytesOf32 ++ ascii "abc"
    let c := [0x74736574#32].flatMap bytesOf32 ++ ([] : List Byte)
    (ascii "abc").length ≤ 3 ∧ SpanInput (latched 0x1000#32 b 7#32 0#64 0x05) b ∧
      TextInput (latched 0x1000#32 (b ++ [0#8]) 0x100#32 0#64 0x16) b ∧
      ([] : List Byte).length ≤ 3 ∧ SpanInput (latched 0x1000#32 c 4#32 0#64 0x08) c ∧
      TextInput (latched 0x1000#32 (c ++ [0#8]) 5#32 0#64 0x18) c :=
  ⟨by decide, spanInput_latched _ ([0x74736574#32].flatMap bytesOf32 ++ ascii "abc") _ _ (by decide) (by decide),
    textInput_latched _ _ _ _ _ (by decide) (by decide) (by decide), by decide,
    spanInput_latched _ ([0x74736574#32].flatMap bytesOf32 ++ []) _ _ (by decide) (by decide),
    textInput_latched _ _ _ _ _ (by decide) (by decide) (by decide)⟩

/-- The same for MURMUR2_64, with a tail of seven bytes. -/
theorem witness_Murmur64CommandsComplete :
    let b := [0x3837363534333231#64].flatMap bytesOf64 ++ ascii "9ABCDEF"
    (ascii "9ABCDEF").length ≤ 7 ∧ SpanInput (latched 0x1000#32 b 15#32 0#64 0x07) b ∧
      TextInput (latched 0x1000#32 (b ++ [0#8]) 16#32 0#64 0x17) b :=
  ⟨by decide, spanInput_latched _ ([0x3837363534333231#64].flatMap bytesOf64 ++ ascii "9ABCDEF") _ _ (by decide) (by decide),
    textInput_latched _ _ _ _ _ (by decide) (by decide) (by decide)⟩

theorem witness_SpanPastTheTopEndsInRange :
    let s := latched 0xFFFFFFFF#32 [] 2#32 0#64 0x23
    let u := latched 1#32 [] 0xFFFFFFFF#32 0#64 0x20
    (Instr.fnv1aSpan true).shape = .span ∧ 0 < s.lat.len.toNat ∧ s.lat.src.toNat + s.lat.len.toNat > 4294967296 ∧
      0 < u.lat.len.toNat ∧ ¬u.lat.src.toNat + u.lat.len.toNat > 4294967296 := by decide +kernel

theorem witness_SpanEndsInBusAtTheLowestFailingAddress :
    let s := latched 0x6000#32 (ascii "ab") 4#32 0#64 0x21
    (Instr.djb2Span true).shape = .span ∧ (ascii "ab").length < s.lat.len.toNat ∧
      s.lat.src.toNat + s.lat.len.toNat ≤ 4294967296 ∧ HoldsAt s.mem s.lat.src.toNat (ascii "ab") ∧
      Steady s s.lat.src.toNat (s.lat.src.toNat + s.lat.len.toNat) ∧
      s.mem.read (s.lat.src.toNat + (ascii "ab").length) = none :=
  ⟨rfl, by decide +kernel, by decide +kernel, holdsAt_latched _ _ _ _ _, steady_latched .., by decide +kernel⟩

/-- NOTERM: the bytes reach the limit, here at the top of the address space, where RANGE would be next. -/
theorem witness_TextScanEndsInItsFirstError_noterm :
    let s := latched 0xFFFFFFFE#32 (ascii "AB") 2#32 0#64 0x33
    (Instr.fnv1aText true).shape = .text ∧ (∀ v ∈ ascii "AB", v ≠ 0#8) ∧ HoldsAt s.mem s.lat.src.toNat (ascii "AB") ∧
      Steady s s.lat.src.toNat (s.lat.src.toNat + (ascii "AB").length + 1) ∧
      s.lat.src.toNat + (ascii "AB").length ≤ 4294967296 ∧ (ascii "AB").length = s.lat.len.toNat :=
  ⟨rfl, by decide, holdsAt_latched _ _ _ _ _, steady_latched .., by decide +kernel, by decide +kernel⟩

/-- RANGE: the bytes reach address 2^32 below the limit. -/
theorem witness_TextScanEndsInItsFirstError_range :
    let s := latched 0xFFFFFFFE#32 (ascii "AB") 3#32 0#64 0x38
    (Instr.murmur3Text true).shape = .text ∧ (∀ v ∈ ascii "AB", v ≠ 0#8) ∧ HoldsAt s.mem s.lat.src.toNat (ascii "AB") ∧
      Steady s s.lat.src.toNat (s.lat.src.toNat + (ascii "AB").length + 1) ∧
      s.lat.src.toNat + (ascii "AB").length ≤ 4294967296 ∧ (ascii "AB").length < s.lat.len.toNat ∧
      s.lat.src.toNat + (ascii "AB").length = 4294967296 :=
  ⟨rfl, by decide, holdsAt_latched _ _ _ _ _, steady_latched .., by decide +kernel, by decide +kernel, by decide +kernel⟩

/-- BUS: the next read fails, here at the last address. -/
theorem witness_TextScanEndsInItsFirstError_bus :
    let s := latched 0xFFFFFFFD#32 (ascii "AB") 3#32 0#64 0x30
    (Instr.crc32Text true).shape = .text ∧ (∀ v ∈ ascii "AB", v ≠ 0#8) ∧ HoldsAt s.mem s.lat.src.toNat (ascii "AB") ∧
      Steady s s.lat.src.toNat (s.lat.src.toNat + (ascii "AB").length + 1) ∧
      s.lat.src.toNat + (ascii "AB").length ≤ 4294967296 ∧ (ascii "AB").length < s.lat.len.toNat ∧
      s.lat.src.toNat + (ascii "AB").length < 4294967296 ∧
      s.mem.read (s.lat.src.toNat + (ascii "AB").length) = none :=
  ⟨rfl, by decide, holdsAt_latched _ _ _ _ _, steady_latched .., by decide +kernel, by decide +kernel, by decide +kernel,
    by decide +kernel⟩

theorem witness_ZeroLengthOutcomes :
    (latched 0xFFFFFFFF#32 [] 0#32 0#64 0x00).lat.len = 0#32 ∧ (Instr.crc32Span false).shape = .span ∧
      (Instr.murmur2Text false).shape = .text := by decide +kernel

theorem witness_TextAndSpanGiveTheSameResult :
    let s := latched 0x3000#32 (ascii "test" ++ [0#8]) 0x100#32 7#64 0x18
    let u := latched 0x3000#32 (ascii "test") 4#32 7#64 0x08
    TableSound s ∧ TableSound u ∧ u.build = s.build ∧ u.lat.src = s.lat.src ∧ u.lat.seed = s.lat.seed ∧
      TextInput s (ascii "test") ∧ SpanInput u (ascii "test") :=
  ⟨tableSound_latched .., tableSound_latched .., rfl, rfl, rfl,
    textInput_latched _ _ _ _ _ (by decide) (by decide) (by decide),
    spanInput_latched _ (ascii "test") _ _ (by decide) (by decide)⟩

/-- One command that ends in a success and one that ends in an error. -/
theorem witness_CommandFrame :
    (∃ t, exec (.djb2Span true) (latched 0x1000#32 (ascii "abc") 3#32 0#64 0x21) = .next t ∧ t.err = false) ∧
      ∃ t, exec (.djb2Span true) (latched 0x1000#32 (ascii "abc") 4#32 0#64 0x21) = .next t ∧ t.err = true :=
  ⟨⟨_, exec_eq _ _, by decide +kernel⟩, ⟨_, exec_eq _ _, by decide +kernel⟩⟩

/-- Two states that differ in memory outside the operands' range, in CMD and in SEED_LO. -/
theorem witness_CommandDependsOnlyOnItsOperands :
    let s := latched 0x1000#32 (ascii "abc") 3#32 0#64 0x00
    let u := { s with mem := s.mem.write 0x1003 7#8, cmd := 5#32, seedLo := 9#32 }
    u.build = s.build ∧ u.platform = s.platform ∧ u.lat = s.lat ∧ u.dirty = s.dirty ∧ u.draws = s.draws ∧
      ((Instr.crc32Span false).alg = .crc32 → u.table = s.table ∧ u.tgen = s.tgen) ∧
      ∀ a, s.lat.src.toNat ≤ a → a < s.lat.src.toNat + s.lat.len.toNat → u.mem.read a = s.mem.read a := by
  refine ⟨rfl, rfl, rfl, rfl, rfl, fun _ => ⟨rfl, rfl⟩, fun a _ h => ?_⟩
  have hs : (latched 0x1000#32 (ascii "abc") 3#32 0#64 0x00).lat.src.toNat +
      (latched 0x1000#32 (ascii "abc") 3#32 0#64 0x00).lat.len.toNat = 0x1003 := by decide +kernel
  exact (Memory.read_write _ _ _ _).trans (if_neg (by omega))

/-- A command that is never held, and a CRC32 command whose table is ready. -/
theorem witness_EngineStepsReachTheCommandsCompletion :
    let s := latched 0x1000#32 (ascii "abc" ++ [0#8]) 0x100#32 0#64 0x38
    let u := (latched 0x1000#32 (ascii "abc") 3#32 0#64 0x00).finishTable
    (s.phase = .held ∧ decode s.lat.word = .ok (.murmur3Text true) ∧ s.holds (.murmur3Text true) = false) ∧
      u.phase = .held ∧ decode u.lat.word = .ok (.crc32Span false) ∧ u.holds (.crc32Span false) = false := by
  decide +kernel

theorem witness_OnlyCrc32IsHeld :
    let s := latched 0x1000#32 (ascii "abc") 3#32 0#64 0x00
    let u := latched 0x1000#32 (ascii "abc") 3#32 0#64 0x15
    (s.phase = .held ∧ decode s.lat.word = .ok (.crc32Span false) ∧ s.build.crcTableEn = true ∧ s.tableReady = false) ∧
      u.phase = .held ∧ decode u.lat.word = .ok (.murmur2Text false) ∧ (Instr.murmur2Text false).alg ≠ .crc32 := by
  decide +kernel

/-- BUSY = 0 and BUSY = 1, for AcceptanceLatchesTheOperands, BusyCmdWriteIsDropped, HashrunLaunchesItsCommand and
InterruptFollowsCompletion. -/
theorem witness_busy : State.reset.busy = false ∧ (latched 0#32 [] 0#32 0#64 0).busy = true := by decide +kernel

/-- A value with bit 1 set, with and without IE, for SoftResetAbortsAndKeepsTheRest and InterruptFollowsCompletion. -/
theorem witness_SoftReset : (2#32).getLsbD 1 = true ∧ (3#32).getLsbD 1 = true := by decide

theorem witness_IdentityRegistersAreConstant : State.reset.build = Config.Build.default := rfl

theorem witness_ReservedReadsZeroAndIgnoresWrites :
    (0x40 ≤ (0x40#8).toNat ∧ (0x40#8).toNat ≤ 0xFC ∧ (0x40#8).toNat % 4 = 0) ∧
      0x40 ≤ (0xFC#8).toNat ∧ (0xFC#8).toNat ≤ 0xFC ∧ (0xFC#8).toNat % 4 = 0 := by decide

theorem witness_RefusedAccessesChangeNothing :
    AccessWidth.w8 ≠ .w32 ∧ (0x15#8).extractLsb' 0 2 ≠ 0#2 ∧ (0x14#8).extractLsb' 0 2 = 0#2 := by decide

theorem witness_OnlyThreeWritesHaveSideEffects :
    (0x14#8).extractLsb' 0 2 = 0#2 ∧ 0x14#8 ≠ 0x10#8 ∧ ¬(0x14#8 = 0x14#8 ∧ 0xFFFFFFE9#32 &&& 0x16#32 ≠ 0#32) ∧
      ¬(0x14#8 = 0x0C#8 ∧ (0xFFFFFFE9#32).getLsbD 1 = true) ∧ ¬(0x0C#8 = 0x0C#8 ∧ (0xFFFFFFFD#32).getLsbD 1 = true) := by
  decide

/-- A sound table that is not ready, one that is, and a build without one. -/
theorem witness_TabDataShowsTheSelectedEntry :
    let s := latched 0#32 [] 0#32 0#64 0
    (TableSound s ∧ s.tableReady = false) ∧ (TableSound s.awaitTable ∧ s.awaitTable.tableReady = true) ∧
      let u := { s with build := { s.build with crcTableEn := false }, tgen := .absent }
      TableSound u ∧ u.build.crcTableEn = false := by
  have hs := tableSound_latched 0#32 [] 0#32 0#64 0
  refine ⟨⟨hs, rfl⟩, ⟨(awaitTable_sound _ hs).1, rfl⟩, ⟨hs.entries, ⟨fun _ => rfl, fun _ => rfl⟩, fun _ h => (nomatch h)⟩, rfl⟩

theorem witness_SuccessCompletion : (0 : Nat) < 4294967296 ∧ 4294967295 < 4294967296 := by decide

theorem witness_GeneratorFillsTheTable :
    State.reset.tgen = .fill 0 ∧ State.reset.table.length = 256 ∧ State.reset.build.crcTableEn = true := by decide +kernel

theorem witness_ReadyTableIsImmutable :
    let s := { (latched 0x1000#32 (ascii "abc") 3#32 0#64 0x00).finishTable with sched := [.tableGen] }
    s.tableReady = true ∧ s.resetLine = false ∧ ∃ t, step s = .next t :=
  ⟨rfl, rfl, _, rfl⟩

theorem witness_HostMemoryWriteIsSeen :
    let s := { State.reset with script := [.memb 0xFFFFFFFF#32 [7#8]] }
    s.script = .memb 0xFFFFFFFF#32 [7#8] :: [] ∧ (0xFFFFFFFF#32).toNat + [7#8].length ≤ 4294967296 := by decide +kernel

theorem witness_HashrunLaunchesItsCommand :
    let s := { State.reset with script := hashrun (.murmur3Text false) 0x1000#32 4#32 7#64 ++ [] }
    let u := { State.reset with script := hashrunD (.murmur3Text false) 0x1000#32 4#32 ++ [] }
    s.busy = false ∧ s.script = hashrun (.murmur3Text false) 0x1000#32 4#32 7#64 ++ [] ∧ u.busy = false ∧
      u.script = hashrunD (.murmur3Text false) 0x1000#32 4#32 ++ [] :=
  ⟨rfl, rfl, rfl, rfl⟩

theorem witness_ClrstAndSrstActOnStatus :
    { latched 0#32 [] 0#32 0#64 0 with script := [clrst] }.script = clrst :: [] ∧ { latched 0#32 [] 0#32 0#64 0 with script := [srst] }.script = srst :: [] :=
  ⟨rfl, rfl⟩

theorem witness_IdleBlockTakesNoStep :
    State.reset.finishTable.quiescent = true ∧ State.reset.quiescent = false := ⟨rfl, rfl⟩

theorem witness_HardwareResetTakesPrecedence :
    { latched 0#32 [] 0#32 0#64 0 with resetLine := true }.resetLine = true := rfl

theorem witness_ResetSatisfiesTheInvariant : (latched 0xFFFFFFFD#32 (ascii "abc") 3#32 0#64 0).mem.wf := by decide +kernel

/-- A machine in the middle of HASH.DJB2.TEXT.D, one byte read. -/
def midPass : State :=
  { (latched 0x1000#32 (ascii "abc" ++ [0#8]) 0x100#32 0#64 0x31).engineStep.engineStep with sched := [.engine] }

theorem midPass_phase : midPass.phase = .hash (.djb2Text true) := by decide +kernel

theorem witness_EveryStepKeepsTheInvariant : Inv midPass ∧ ∃ t, step midPass = .next t := by
  refine ⟨?_, _, rfl⟩
  have hp := midPass_phase
  have hi : ∀ i, midPass.phase = .hash i → i = .djb2Text true := fun i h => by rw [hp] at h; cases h; rfl
  constructor
  · decide +kernel
  · exact ⟨(tableSound_latched 0#32 [] 0#32 0#64 0).entries, ⟨fun h => (nomatch h), fun h => (nomatch h)⟩,
      fun _ h => (nomatch h)⟩
  · decide +kernel
  · decide +kernel
  · rintro i (h | h)
    · rw [hp] at h; cases h
    · rw [hi i h]; decide +kernel
  · intro i h; rw [hp] at h; cases h
  · intro i h; rw [hi i h]; decide +kernel
  · intro h; rw [hp] at h; rcases h with h | h <;> cases h
  · intro h; rw [hp] at h; cases h
  · intro h; rw [hp] at h; rcases h with h | h <;> cases h
  · intro i h; rw [hp] at h; cases h
  · intro i _; decide +kernel
  · intro i _ _; decide +kernel
  · intro i h; rw [hi i h]; decide +kernel

/-- A machine in the scan of HASH.MURMUR3.TEXT, one byte measured, and one in its second pass, no byte hashed. -/
def midScan : State :=
  (latched 0x1000#32 (ascii "ab" ++ [0#8]) 0x100#32 0#64 0x18).engineStep.engineStep

def secondPass : State := midScan.engineStep.engineStep

/-- The same machine on a platform whose location `a` has read side effects. -/
def withSideEffect (s : State) (a : Nat) : State := { s with platform := { s.platform with sideEffects := [(a, a + 1)] } }

/-- A steady byte, a byte written since acceptance, an address that fails, BUSY = 1 and BUSY = 0. -/
theorem witness_FreshReads :
    let s := (latched 0xFFFFFFFF#32 [] 1#32 0#64 0x00).writeMem 0xFFFFFFFF [7#8]
    let u := latched 0#32 [7#8] 1#32 0#64 0x00
    (s.mem.read 0xFFFFFFFF = some 7#8 ∧ 0xFFFFFFFF ∈ s.dirty ∧ s.busy = true) ∧
      (u.mem.read 0 = some 7#8 ∧ 0 ∉ u.dirty) ∧ u.mem.read 1 = none ∧ s.past = [] ∧ u.past = [] ∧
      State.reset.busy = false := by decide +kernel

/-- Hash passes with one byte read: its address fails afterwards, and in the second machine it is then written. -/
def readThenFailed : State := midPass.faultMem 0x1000#32

def failedThenWritten : State := readThenFailed.writeMem 0x1000 [0#8]

/-- A read that has taken place at the past's end and one before two changes, and a read that no change precedes. -/
theorem witness_PastReadsStand :
    readThenFailed.past = ([] : List Memory).map .change ++ .read 0x61#8 :: [.change midPass.mem] ∧
      readThenFailed.mem.read 0x1000 = none ∧ 0x1000 ∉ readThenFailed.dirty ∧
      failedThenWritten.past =
        ([] : List Memory).map .change ++ .read 0x61#8 :: [.change midPass.mem, .change readThenFailed.mem] ∧
      0x1000 ∈ failedThenWritten.dirty := by decide +kernel

/-- A pass that has read nothing yet and has seen two changes: its next read has three instants, of which two answer a byte
and one BusError. -/
theorem witness_ReadsToComeChooseTheirInstant :
    let s := (latched 0x1000#32 (ascii "ab") 2#32 0#64 0x01).engineStep
    let u := (s.faultMem 0x1000#32).writeMem 0x1000 [7#8]
    u.past = [s.mem, (s.faultMem 0x1000#32).mem].map .change ∧ s.mem.read 0x1000 = some 0x61#8 ∧
      (s.faultMem 0x1000#32).mem.read 0x1000 = none ∧ u.mem.read 0x1000 = some 7#8 ∧ 0x1000 ∈ u.dirty ∧
      0x1001 ∉ u.dirty ∧ s.mem.read 0x1001 = some 0x62#8 := by decide +kernel

/-- A scan's read with no past, one that follows a read, and one that ends the text where the read did not. -/
theorem witness_ScansFollowTheirReads :
    let s : State := { midScan with past := [.read 0x61#8, .read 0x62#8] }
    let u : State := { midScan with past := [.read 0#8] }
    midScan.past = ([] : List Memory).map .change ++ .read 0x61#8 :: [] ∧
      (s.scanRead 0x1000 false).1 = .byte 0x61#8 ∧ (s.scanRead 0x1000 false).2.past = [.read 0x62#8] ∧
      (u.scanRead 0x1000 false).1 = .byte 0#8 ∧
      (s.followed (some 0x61#8) 0#8).past = [] ∧ (s.followed (some 0x61#8) 1#8).past = s.past := by decide +kernel

/-- A scan, a one-pass TEXT and a span that read one more byte. -/
theorem witness_ThePastIsRemembered :
    let v := (latched 0x1000#32 [0#8, 1#8] 2#32 0#64 0x01).engineStep
    (midScan.phase = .scan (.murmur3Text false) ∧ midScan.dirty = [] ∧ midScan.cursor < midScan.lat.len.toNat ∧
        midScan.mem.read (midScan.lat.src.toNat + midScan.cursor) = some 0x62#8) ∧
      (midPass.phase = .hash (.djb2Text true) ∧ midPass.dirty = [] ∧ (Instr.djb2Text true).alg ∉ Claims.murmurs ∧
        midPass.mem.read (midPass.lat.src.toNat + midPass.cursor) = some 0x62#8 ∧
        midPass.sideEffectIn 0x1001 0x1002 = false) ∧
      (v.phase = .hash (.djb2Span false) ∧ v.mem.read 0x1000 = some 0#8 ∧ v.cursor < v.len ∧ v.dirty = [] ∧
        v.cursor < v.lat.len.toNat ∧ v.lat.src.toNat + v.len ≤ 4294967296) := by decide +kernel

/-- A write to the input range in a scan, in one pass and in a second pass, at the first and the last address of the range;
and one outside it. -/
theorem witness_WrittenReadsAreRedrawn :
    (midScan.phase = .scan (.murmur3Text false) ∧ (midScan.writeMem 0x1000 [7#8]).disturbed = true) ∧
      (midPass.phase = .hash (.djb2Text true) ∧ (midPass.writeMem 0x10FF [7#8]).disturbed = true ∧
        (midPass.writeMem 0x1100 [7#8]).disturbed = false ∧ (midPass.writeMem 0xFFF [7#8]).disturbed = false) ∧
      (secondPass.phase = .hash (.murmur3Text false) ∧ (secondPass.writeMem 0x1002 [7#8]).disturbed = true) ∧
      midPass.sideEffectIn midPass.lat.src.toNat (midPass.lat.src.toNat + midPass.lat.len.toNat) = false := by
  decide +kernel

/-- 20_memory.md R62, 70_reset_and_hazards.md R240: a span reads its two bytes, the first address then fails and the second
is written; no byte is read again, so the command succeeds. -/
theorem test_reads_stand :
    let s := (latched 0x1000#32 (ascii "ab") 2#32 0#64 0x01).engineStep.engineStep.engineStep
    let t := ((s.faultMem 0x1000#32).writeMem 0x1001 [7#8]).engineStep
    t.err = false ∧ t.done = true ∧ t.count = 2#32 := by decide +kernel

/-- 20_memory.md R63, 93_implementation_defined.md U3: a span reads its first byte, the address then fails, and the next
location has a side effect: the byte read stands and is free, so the command cannot end in BUS at the first address. -/
theorem test_side_effect_reads_stand :
    let s := withSideEffect (latched 0x1000#32 (ascii "ab") 2#32 0#64 0x01).engineStep.engineStep 0x1001
    let t := s.faultMem 0x1000#32
    t.engineStep = t.replayFree (.djb2Span false) ∧ t.mem.read 0x1000 = none ∧
      t.memRead 0x1000 true = (.byte (Config.freeByte 0), t.withReads [.change s.mem] 1) := ⟨rfl, by decide +kernel, rfl⟩

/-- Two steady bytes before a location with side effects, in both shapes. -/
theorem witness_SideEffectsFreeTheCommand :
    let s := withSideEffect (latched 0x1000#32 (ascii "abc") 3#32 0#64 0x00) 0x1002
    HoldsAt s.mem s.lat.src.toNat (ascii "ab") ∧ Steady s s.lat.src.toNat (s.lat.src.toNat + (ascii "ab").length) ∧
      (ascii "ab").length < s.lat.len.toNat ∧ s.lat.src.toNat + (ascii "ab").length < 4294967296 ∧
      s.sideEffectIn (s.lat.src.toNat + (ascii "ab").length) (s.lat.src.toNat + (ascii "ab").length + 1) = true ∧
      s.lat.src.toNat + s.lat.len.toNat ≤ 4294967296 ∧ (∀ v ∈ ascii "ab", v ≠ 0#8) := by
  exact ⟨by unfold HoldsAt; decide +kernel, ⟨fun _ _ _ h => (nomatch h), by decide +kernel⟩, by decide +kernel,
    by decide +kernel, by decide +kernel, by decide +kernel, by decide⟩

/-- The engine's next read is of a location with side effects, in a scan, in one pass and in a span. -/
theorem witness_SideEffectsFreeTheEngine :
    let s := withSideEffect midScan 0x1001
    let u := withSideEffect midPass 0x1001
    let v := withSideEffect (latched 0x1000#32 (ascii "ab") 2#32 0#64 0x01).engineStep 0x1000
    (s.dirty = [] ∧ s.lat.src.toNat + s.cursor < 4294967296 ∧
        s.sideEffectIn (s.lat.src.toNat + s.cursor) (s.lat.src.toNat + s.cursor + 1) = true ∧
        s.phase = .scan (.murmur3Text false) ∧ s.cursor < s.lat.len.toNat) ∧
      (u.dirty = [] ∧ u.sideEffectIn (u.lat.src.toNat + u.cursor) (u.lat.src.toNat + u.cursor + 1) = true ∧
        u.phase = .hash (.djb2Text true) ∧ (Instr.djb2Text true).alg ∉ Claims.murmurs ∧
        u.lat.src.toNat + u.cursor < 4294967296 ∧ u.cursor < u.lat.len.toNat) ∧
      (v.dirty = [] ∧ v.sideEffectIn (v.lat.src.toNat + v.cursor) (v.lat.src.toNat + v.cursor + 1) = true ∧
        v.phase = .hash (.djb2Span false) ∧ v.lat.src.toNat + v.cursor < 4294967296 ∧ v.cursor < v.len ∧
        v.lat.src.toNat + v.len ≤ 4294967296) := by decide +kernel

/-- A byte read and readable addresses after it for the runs on free bytes, up to the last one. -/
theorem witness_FreeRunsDrawEveryByte :
    let s := (latched 0xFFFFFFFD#32 (ascii "abc") 3#32 0#64 0x01).engineStep.engineStep
    s.past = [0x61#8].map .read ∧ HoldsAt s.mem (s.lat.src.toNat + 1) (ascii "bc") ∧
      s.lat.src.toNat + ([0x61#8].length + (ascii "bc").length) ≤ 4294967296 ∧ s.fresh.past = [] ∧
      s.mem.read (s.lat.src.toNat + 1) = some 0x62#8 ∧ s.lat.src.toNat + 1 < 4294967296 := by
  unfold HoldsAt
  decide +kernel

/-- A step in a running pass, for LatchedOperandsAreFixedWhileBusy and NoStepChangesAParameter. -/
theorem witness_LatchedOperandsAreFixedWhileBusy :
    midPass.busy = true ∧ midPass.resetLine = false ∧ ∃ t, step midPass = .next t :=
  ⟨by decide +kernel, rfl, _, rfl⟩

/-- A step that completes with a new result and one that completes with a new ERR_ADDR. -/
theorem witness_ResultsChangeOnlyAtACompletion :
    let s := latched 0xFFFFFFFF#32 [] 0#32 0#64 0x21
    let u := latched 0xFFFFFFFF#32 [] 2#32 0#64 0x21
    (∃ t, step s = .next t ∧ t.resultLo ≠ s.resultLo ∧ s.resetLine = false) ∧
      ∃ t, step u = .next t ∧ t.errAddr ≠ u.errAddr ∧ u.resetLine = false :=
  ⟨⟨_, rfl, by decide +kernel⟩, ⟨_, rfl, by decide +kernel⟩⟩

/-- A running command ended by a completion, by a soft reset, and by a hardware reset. -/
theorem witness_BusyEndsByCompletionOrReset :
    let s := latched 0xFFFFFFFF#32 [] 0#32 0#64 0x21
    let u := { midPass with sched := [.host], script := [srst] }
    let v := { midPass with resetLine := true }
    (s.busy = true ∧ ∃ t, step s = .next t ∧ t.busy = false ∧ t.done = true) ∧
      (u.busy = true ∧ ∃ t, step u = .next t ∧ t.busy = false ∧ t.done = false) ∧
      v.busy = true ∧ ∃ t, step v = .next t ∧ t.busy = false :=
  ⟨⟨rfl, _, rfl, by decide +kernel⟩, ⟨by decide +kernel, _, rfl, by decide +kernel⟩, by decide +kernel, _, rfl,
    by decide +kernel⟩

/-- The model's one fault: a host memory event past the last address (log 5). -/
theorem witness_NoCommandStopsTheMachine :
    let s := { State.reset with sched := [.host], script := [.memb 0xFFFFFFFF#32 [1#8, 2#8]] }
    step s = .fault .memoryAddress := rfl

/-- A reset, an engine turn, and a host turn with no memory event. -/
theorem witness_OnlyTheHostChangesMemory :
    let v := { midPass with resetLine := true }
    let u := { midPass with sched := [.host], script := [clrst] }
    (v.resetLine = true ∧ ∃ t, step v = .next t) ∧ (midPass.nextTurn.1 ≠ .host ∧ ∃ t, step midPass = .next t) ∧
      ((∀ a b rest, u.script ≠ .memb a b :: rest) ∧ (∀ a rest, u.script ≠ .busFault a :: rest) ∧ ∃ t, step u = .next t) :=
  ⟨⟨rfl, _, rfl⟩, ⟨by decide +kernel, _, rfl⟩, fun _ _ _ h => (nomatch h), fun _ _ h => (nomatch h), _, rfl⟩

end Sys2Proof.Tests
end

section
/-! SUPPORT. The parameters of the build and of the platform (00_scope.md R5, 20_memory.md R68): each agent's event leaves
them as they are, and so does a step. -/

namespace Sys2Proof.Machine

/-- `t` has the parameters of `s`, those of the build and those of the platform. -/
def SameParameters (s t : State) : Prop := t.build = s.build ∧ t.platform = s.platform

/-- Parameters that two events in a row leave as they are. -/
theorem SameParameters.trans {s t u : State} (h : SameParameters s t) (h' : SameParameters t u) : SameParameters s u :=
  ⟨h'.1.trans h.1, h'.2.trans h.2⟩

/-- Taking a turn off keeps the parameters. -/
theorem nextTurn_sameParameters (s : State) : SameParameters s s.nextTurn.2 := by
  obtain ⟨l, n, h⟩ := nextTurn_frame s
  rw [h]
  exact ⟨rfl, rfl⟩

/-- A write to CTRL keeps the parameters, with a soft reset or without. -/
theorem writeCtrl_sameParameters (s : State) (v : Word) : SameParameters s (s.writeCtrl v) := by
  unfold State.writeCtrl
  split <;> exact ⟨rfl, rfl⟩

/-- A write to CMD keeps the parameters, accepted or dropped. -/
theorem writeCmd_sameParameters (s : State) (v : Word) : SameParameters s (s.writeCmd v) := by
  unfold State.writeCmd
  split <;> exact ⟨rfl, rfl⟩

/-- 00_scope.md R5: "No register can change a parameter at run time". -/
theorem writeReg_sameParameters (s : State) (o : BitVec 8) (v : Word) : SameParameters s (s.writeReg o v) := by
  obtain h | ⟨_, h⟩ | ⟨_, h⟩ | ⟨_, h⟩ | ⟨_, h⟩ | ⟨_, h⟩ | ⟨_, h⟩ | ⟨_, h⟩ | ⟨_, h⟩ := writeReg_cases s o v <;> rw [h]
  case inr.inl => exact writeCtrl_sameParameters s v
  case inr.inr.inl => exact writeCmd_sameParameters s v
  all_goals exact ⟨rfl, rfl⟩

/-- A host event that goes on keeps the parameters. -/
theorem hostStep_sameParameters (s t : State) (h : s.hostStep = .next t) : SameParameters s t := by
  obtain rfl | ⟨o, v, rest, _, rfl⟩ | ⟨r, l, rfl⟩ | ⟨a, b, rest, _, _, rfl⟩ | ⟨a, rest, _, rfl⟩ | ⟨rest, _, rfl⟩ :=
    hostStep_cases s t h
  case inr.inl => exact writeReg_sameParameters s o v
  all_goals exact ⟨rfl, rfl⟩

/-- An engine step keeps the parameters. -/
theorem engineStep_sameParameters (s : State) : SameParameters s s.engineStep := by
  obtain h | ⟨_, ⟨_, _, _, h⟩ | ⟨_, _, h⟩ | ⟨_, _, _, _, h⟩ | ⟨_, _, _, _, h⟩ | ⟨_, _, _, _, h⟩ | ⟨_, _, _, h⟩ |
    ⟨_, _, _, _, h⟩⟩ := engineStep_cases s <;> rw [h] <;> exact ⟨rfl, rfl⟩

/-- A command's run keeps the parameters, the wait for the table included. -/
theorem runCommand_sameParameters (i : Instr) (s : State) : SameParameters s (runCommand i s) := by
  have hstart : SameParameters s (s.started i.alg) := ⟨State.started_build s _, State.started_platform s _⟩
  obtain ⟨_, _, h⟩ | ⟨_, _, _, _, h⟩ := runCommand_cases i s <;> rw [h] <;> exact hstart

/-- A turn `command` keeps the parameters. -/
theorem commandStep_sameParameters (s t : State) (h : s.commandStep = .next t) : SameParameters s t := by
  obtain ⟨i, _, _, e⟩ | ⟨_, _, _, e⟩ | ⟨_, e⟩ := commandStep_cases s <;> rw [e] at h <;> cases h
  · exact runCommand_sameParameters i s
  · exact ⟨rfl, rfl⟩
  · exact engineStep_sameParameters s

/-- The event of every agent keeps the parameters. -/
theorem agentStep_sameParameters (a : Config.Turn) (s t : State) (h : State.agentStep a s = .next t) :
    SameParameters s t := by
  cases a with
  | host => exact hostStep_sameParameters s t h
  | engine => cases h; exact engineStep_sameParameters s
  | tableGen => cases h; exact ⟨State.tableStep_build s, State.tableStep_platform s⟩
  | command => exact commandStep_sameParameters s t h

/-- Settles O55: a hardware reset starts from the parameters it finds, and every agent's event keeps them. -/
theorem noStepChangesAParameter : Obligations.NoStepChangesAParameter := by
  intro s t h
  obtain ⟨_, rfl⟩ | ⟨_, hagent⟩ := step_cases s t h
  · exact ⟨State.hardReset_build s, State.hardReset_platform s⟩
  · exact (nextTurn_sameParameters s).trans (agentStep_sameParameters _ _ t hagent)

end Sys2Proof.Machine
end

section
/-! SUPPORT. The invariant of the machine, one law for each thing an event can do to it: what keeps the registers of a
running pass, a pass that starts or advances, a command that ends, the table generator, the host. -/

namespace Sys2Proof.Machine

/-! The table -/

/-- A sound table stays sound where the parameters, the generator and the entries stay. -/
theorem TableSound.congr {s t : State} (h : TableSound s) (hb : t.build = s.build) (hg : t.tgen = s.tgen)
    (ht : t.table = s.table) : TableSound t where
  entries := by rw [ht]; exact h.entries
  absent := by rw [hg, hb]; exact h.absent
  written := by rw [hg, ht, hb]; exact h.written

/-- The generator's next state after FILL(n) has one more entry written (41_crc32.md R131). -/
theorem filled_after_fill (n : Fin 256) :
    (if h : n.val + 1 < 256 then TGen.fill ⟨n.val + 1, h⟩ else TGen.ready).filled = n.val + 1 := by
  split
  · rfl
  · simp only [TGen.filled]; omega

/-- A generator step keeps the table sound: it writes the next entry of 41_crc32.md R130. -/
theorem TableSound.tableStep {s : State} (h : TableSound s) : TableSound s.tableStep := by
  obtain ⟨hlen, habs, hw⟩ := h
  unfold State.tableStep
  split
  · rename_i n hn
    have hen : s.build.crcTableEn ≠ false := fun hf => by rw [habs.2 hf] at hn; cases hn
    refine ⟨by simp [hlen], ?_, fun j hj => ?_⟩
    · simp only [hen]
      split <;> simp
    · rw [filled_after_fill] at hj
      by_cases hjn : n.val = j
      · subst hjn; simp [hlen]
      · rw [List.getElem?_set_ne hjn]
        exact hw j (by rw [hn, TGen.filled]; omega)
  · exact ⟨hlen, habs, hw⟩
  · exact ⟨hlen, habs, hw⟩

/-- A ready table takes no generator step (41_crc32.md R131). -/
theorem tableStep_of_ready (s : State) (h : s.tgen = .ready) : s.tableStep = s := by
  unfold State.tableStep
  rw [h]

/-- TABLE_READY as the generator's state (10_state.md R43). -/
theorem tableReady_iff (s : State) : s.tableReady = true ↔ s.tgen = .ready := beq_iff_eq

/-- BUSY as the phase (10_state.md R42). -/
theorem busy_iff (s : State) : s.busy = true ↔ s.phase ≠ .idle := bne_iff_ne

/-- No command is held in a state with the parameters of another where it is not, if TABLE_READY has not fallen. -/
theorem holds_false_of_ready {s t : State} {i : Instr} (hb : t.build = s.build)
    (hr : s.tgen = .ready → t.tgen = .ready) (h : s.holds i = false) : t.holds i = false := by
  simp only [State.holds, Bool.and_eq_false_iff, Bool.not_eq_false', tableReady_iff, hb] at h ⊢
  exact h.imp_right hr

/-! The engine's states -/

/-- The engine is where it was: the same phase, latched operands and working registers, in the same build. -/
structure SameEngine (s t : State) : Prop where
  build : t.build = s.build
  phase : t.phase = s.phase
  lat : t.lat = s.lat
  cursor : t.cursor = s.cursor
  acc : t.acc = s.acc
  tail : t.tail = s.tail
  len : t.len = s.len

/-- An event of another agent keeps the invariant if it leaves the engine where it was, keeps the memory canonical, the
table sound and ready, the flags as they must be, and outside a pass what is remembered of the input. -/
theorem Inv.of_sameEngine {s t : State} (h : Inv s) (e : SameEngine s t) (hm : t.mem.wf) (ht : TableSound t)
    (hr : s.tgen = .ready → t.tgen = .ready) (he : t.err = true ↔ t.errcode ≠ .none)
    (hc : t.busy = true → t.done = false ∧ t.err = false) (hd : s.phase = .idle → t.dirty = s.dirty)
    (hp : s.phase = .idle ∨ s.phase = .held → t.past = s.past) : Inv t where
  memory := hm
  table := ht
  errCode := he
  busyClean := hc
  decoded := by rw [e.phase, e.lat]; exact h.decoded
  scanTwoPass := by rw [e.phase]; exact h.scanTwoPass
  hashReady i hi := holds_false_of_ready e.build hr (h.hashReady i (e.phase ▸ hi))
  clear := by rw [e.phase, e.cursor, e.acc, e.tail, e.len]; exact h.clear
  idleSteady hi := by rw [e.phase] at hi; rw [hd hi]; exact h.idleSteady hi
  freshStart hi := by rw [e.phase] at hi; rw [hp hi]; exact h.freshStart hi
  scanCursor := by rw [e.phase, e.cursor, e.lat, e.tail]; exact h.scanCursor
  hashCursor := by rw [e.phase, e.cursor, e.lat, e.len]; exact h.hashCursor
  onePassLength := by rw [e.phase, e.cursor, e.lat, e.len]; exact h.onePassLength
  tailLength := by rw [e.phase, e.cursor, e.tail]; exact h.tailLength

/-- An idle engine with clear working registers has the invariant, if the memory, the table and the error flag have. -/
theorem inv_of_idle {t : State} (hm : t.mem.wf) (ht : TableSound t) (he : t.err = true ↔ t.errcode ≠ .none)
    (hp : t.phase = .idle) (hc : t.cursor = 0 ∧ t.acc = 0#64 ∧ t.tail = [] ∧ t.len = 0) (hd : t.dirty = [])
    (hpast : t.past = []) : Inv t where
  memory := hm
  table := ht
  errCode := he
  busyClean hb := absurd hp ((busy_iff t).1 hb)
  decoded := by simp [hp]
  scanTwoPass := by simp [hp]
  hashReady := by simp [hp]
  clear _ := hc
  idleSteady _ := hd
  freshStart _ := hpast
  scanCursor := by simp [hp]
  hashCursor := by simp [hp]
  onePassLength := by simp [hp]
  tailLength := by simp [hp]

/-- A step of a running command outside its end changes nothing of the block but the phase, the working registers and the
record of the pass. -/
structure SameButPass (s t : State) : Prop where
  build : t.build = s.build
  tgen : t.tgen = s.tgen
  table : t.table = s.table
  mem : t.mem = s.mem
  lat : t.lat = s.lat
  done : t.done = s.done
  err : t.err = s.err
  errcode : t.errcode = s.errcode

/-- A running command comes into a scan, or on in it, with its cursor inside the pass. -/
theorem Inv.to_scan {s t : State} {i : Instr} (h : Inv s) (hb : s.busy = true) (e : SameButPass s t)
    (hp : t.phase = .scan i) (hd : decode s.lat.word = .ok i) (h2 : twoPass i = true)
    (hl : t.cursor ≤ s.lat.len.toNat) (ha : s.lat.src.toNat + t.cursor ≤ addressSpace) (ht : t.tail = []) : Inv t where
  memory := by rw [e.mem]; exact h.memory
  table := h.table.congr e.build e.tgen e.table
  errCode := by rw [e.err, e.errcode]; exact h.errCode
  busyClean _ := by rw [e.done, e.err]; exact h.busyClean hb
  decoded := by simpa [hp, e.lat] using hd
  scanTwoPass := by simpa [hp] using h2
  hashReady := by simp [hp]
  clear := by simp [hp]
  idleSteady := by simp [hp]
  freshStart := by simp [hp]
  scanCursor _ _ := by rw [e.lat]; exact ⟨hl, ha, ht⟩
  hashCursor := by simp [hp]
  onePassLength := by simp [hp]
  tailLength := by simp [hp]

/-- A running command comes into a hash pass, or on in it, with its cursor inside the pass and its tail shorter than a
word. -/
theorem Inv.to_hash {s t : State} {i : Instr} (h : Inv s) (hb : s.busy = true) (e : SameButPass s t)
    (hp : t.phase = .hash i) (hd : decode s.lat.word = .ok i) (hr : s.holds i = false) (hc : t.cursor ≤ t.len)
    (hl : t.len ≤ s.lat.len.toNat) (ha : s.lat.src.toNat + t.cursor ≤ addressSpace)
    (h1 : onePassText i = true → t.len = s.lat.len.toNat ∨ t.len = t.cursor)
    (ht : t.tail.length = t.cursor % Alg.wordSize i.alg) : Inv t where
  memory := by rw [e.mem]; exact h.memory
  table := h.table.congr e.build e.tgen e.table
  errCode := by rw [e.err, e.errcode]; exact h.errCode
  busyClean _ := by rw [e.done, e.err]; exact h.busyClean hb
  decoded := by simpa [hp, e.lat] using hd
  scanTwoPass := by simp [hp]
  hashReady j hj := by
    cases hp.symm.trans hj
    exact holds_false_of_ready e.build (e.tgen.trans ·) hr
  clear := by simp [hp]
  idleSteady := by simp [hp]
  freshStart := by simp [hp]
  scanCursor := by simp [hp]
  hashCursor _ _ := by rw [e.lat]; exact ⟨hc, hl, ha⟩
  onePassLength j hj := by
    cases hp.symm.trans hj
    rw [e.lat]
    exact h1
  tailLength j hj := by
    cases hp.symm.trans hj
    exact ht

/-! The end of a command -/

/-- `t` is one completion of `s`, a success or an error with its code, after some draws of free values. -/
def Ended (s t : State) : Prop :=
  (∃ d h n, t = (s.withDraws d).complete h n) ∨ (∃ d c a, c ≠ .none ∧ t = (s.withDraws d).cmdError c a)

/-- An error completion ends a command. -/
theorem ended_cmdError (s : State) (c : ErrCode) (a : Word) (hc : c ≠ .none) : Ended s (s.cmdError c a) :=
  .inr ⟨s.draws, c, a, hc, rfl⟩

/-- A success completion ends a command. -/
theorem ended_complete (s : State) (h : Digest) (n : Nat) : Ended s (s.complete h n) := .inl ⟨s.draws, h, n, rfl⟩

/-- A command that ends on some bytes ends. -/
theorem EndsOnce.ended {s t : State} {f : List Byte → Digest} (h : EndsOnce s f t) : Ended s t :=
  h.imp (fun ⟨d, b, e⟩ => ⟨d, f b, b.length, e⟩) id

/-- Every command that ends leaves the invariant, whatever its working registers were. -/
theorem Ended.inv {s t : State} (h : Ended s t) (hm : s.mem.wf) (ht : TableSound s) : Inv t := by
  obtain ⟨d, g, n, rfl⟩ | ⟨d, c, a, hc, rfl⟩ := h
  · exact inv_of_idle hm (ht.congr rfl rfl rfl) (by simp) rfl ⟨rfl, rfl, rfl, rfl⟩ rfl rfl
  · exact inv_of_idle hm (ht.congr rfl rfl rfl) (by simpa using hc) rfl ⟨rfl, rfl, rfl, rfl⟩ rfl rfl

/-- A command's run in one event leaves the invariant (10_state.md R42). -/
theorem Inv.runCommand {s : State} (h : Inv s) (i : Instr) : Inv (runCommand i s) := by
  have e : Ended (s.started i.alg) (Machine.runCommand i s) := (run_endsOnce (s.started i.alg) i).ended
  exact e.inv (by simpa using h.memory) (started_sound s i.alg h.table)

/-! The engine's steps, each with its guards -/

/-- Everything the first engine step can do (40_command.md R102, R108): end in ILLEGAL, hold, or start the first pass. -/
theorem startStep_cases (s : State) :
    Ended s s.startStep ∨ s.startStep = s ∨
    ∃ i, decode s.lat.word = .ok i ∧ s.holds i = false ∧
      ((twoPass i = true ∧ s.startStep = { s.fresh with phase := .scan i, cursor := 0 }) ∨
        (twoPass i = false ∧ s.startStep = s.fresh.beginHash i s.lat.len.toNat)) := by
  unfold State.startStep
  split
  · exact .inl (ended_cmdError s _ _ (by decide))
  · rename_i i hd
    split
    · exact .inr (.inl rfl)
    · rename_i hh
      refine .inr (.inr ⟨i, hd, Bool.eq_false_iff.2 hh, ?_⟩)
      split
      · exact .inl ⟨‹_›, rfl⟩
      · exact .inr ⟨Bool.eq_false_iff.2 ‹_›, rfl⟩

/-- Everything a step of a scan can do (40_command.md R105, R106): end the command, or read a byte inside its limit, which is
the terminator or not. -/
theorem scanStep_cases (s : State) (i : Instr) :
    Ended s (s.scanStep i) ∨
    ∃ v, s.cursor ≠ s.lat.len.toNat ∧ s.lat.src.toNat + s.cursor < addressSpace ∧
      s.mem.read (s.lat.src.toNat + s.cursor) = some v ∧
      ((v = 0#8 ∧ s.scanStep i = (s.noted v).beginHash i s.cursor) ∨
        (v ≠ 0#8 ∧ s.scanStep i = { s.noted v with cursor := s.cursor + 1 })) := by
  unfold State.scanStep
  split
  · exact .inl (ended_cmdError s _ _ (by decide))
  split
  · exact .inl (ended_cmdError s _ _ (by decide))
  split
  · exact .inl (replayFree_endsOnce s i).ended
  split
  · exact .inl (ended_cmdError s _ _ (by decide))
  · rename_i hl ha _ _ v hv
    refine .inr ⟨v, hl, Nat.lt_of_not_le ha, hv, ?_⟩
    split
    · exact .inl ⟨‹_›, rfl⟩
    · exact .inr ⟨‹_›, rfl⟩

/-- Everything a step of the one pass of a TEXT can do (40_command.md R105, R106): end the command, or read a byte inside its
limit before its terminator, which is the terminator or is consumed. -/
theorem textHashStep_cases (s : State) (i : Instr) :
    Ended s (s.textHashStep i) ∨
    ∃ v, s.cursor ≠ s.lat.len.toNat ∧ s.cursor ≠ s.len ∧ s.lat.src.toNat + s.cursor < addressSpace ∧
      s.mem.read (s.lat.src.toNat + s.cursor) = some v ∧
      ((v = 0#8 ∧ s.textHashStep i = { s.noted v with len := s.cursor }) ∨
        (v ≠ 0#8 ∧ s.textHashStep i = s.consume i v)) := by
  unfold State.textHashStep
  split
  · exact .inl (ended_cmdError s _ _ (by decide))
  split
  · exact .inl (ended_complete s _ _)
  split
  · exact .inl (ended_cmdError s _ _ (by decide))
  split
  · exact .inl (replayFree_endsOnce s i).ended
  split
  · exact .inl (ended_cmdError s _ _ (by decide))
  · rename_i hl hn ha _ _ v hv
    refine .inr ⟨v, hl, hn, Nat.lt_of_not_le ha, hv, ?_⟩
    split
    · exact .inl ⟨‹_›, rfl⟩
    · exact .inr ⟨‹_›, rfl⟩

/-- Everything a step over a counted span can do (40_command.md R104): end the command, or consume a byte before its last. -/
theorem spanHashStep_cases (s : State) (i : Instr) :
    Ended s (s.spanHashStep i) ∨
    ∃ v, s.cursor ≠ s.len ∧ s.mem.read (s.lat.src.toNat + s.cursor) = some v ∧ s.spanHashStep i = s.consume i v := by
  unfold State.spanHashStep
  split
  · exact .inl (ended_cmdError s _ _ (by decide))
  split
  · exact .inl (ended_complete s _ _)
  split
  · exact .inl (replayFree_endsOnce s i).ended
  split
  · exact .inl (ended_cmdError s _ _ (by decide))
  · exact .inr ⟨_, ‹_›, ‹_›, rfl⟩

/-- The first engine step keeps the invariant. -/
theorem Inv.startStep {s : State} (h : Inv s) (hp : s.phase = .held) : Inv s.startStep := by
  have hb : s.busy = true := by simp [busy_iff, hp]
  have ⟨_, _, htail, _⟩ := h.clear (.inr hp)
  have hsrc : s.lat.src.toNat ≤ addressSpace := s.lat.src.isLt.le
  obtain he | he | ⟨i, hd, hr, ⟨h2, he⟩ | ⟨_, he⟩⟩ := startStep_cases s
  · exact he.inv h.memory h.table
  · rw [he]; exact h
  · rw [he]
    exact h.to_scan hb (by constructor <;> rfl) rfl hd h2 (Nat.zero_le _) hsrc htail
  · rw [he]
    exact h.to_hash hb (by constructor <;> rfl) rfl hd hr (Nat.zero_le _) (Nat.le_refl _) hsrc (fun _ => .inl rfl)
      (Nat.zero_mod _).symm

/-- A command that scans is of the MurMur family, and so never held (40_command.md R102, R106). -/
theorem holds_false_of_twoPass (s : State) (i : Instr) (h : twoPass i = true) : s.holds i = false := by
  have hm : Alg.isMurmur i.alg = true := (Bool.and_eq_true_iff.1 h).2
  have hne : i.alg ≠ .crc32 := fun e => by rw [e] at hm; cases hm
  simp [State.holds, hne]

/-- A command that scans is no one-pass TEXT (40_command.md R106). -/
theorem onePassText_false_of_twoPass (i : Instr) (h : twoPass i = true) : onePassText i = false := by
  have hm : Alg.isMurmur i.alg = true := (Bool.and_eq_true_iff.1 h).2
  simp [onePassText, hm]

/-- A step of a scan keeps the invariant. -/
theorem Inv.scanStep {s : State} {i : Instr} (h : Inv s) (hp : s.phase = .scan i) : Inv (s.scanStep i) := by
  have hb : s.busy = true := by simp [busy_iff, hp]
  have hd := h.decoded i (.inl hp)
  have h2 := h.scanTwoPass i hp
  obtain ⟨hle, _, htail⟩ := h.scanCursor i hp
  obtain he | ⟨v, hne, ha, _, ⟨_, he⟩ | ⟨_, he⟩⟩ := scanStep_cases s i
  · exact he.inv h.memory h.table
  · rw [he]
    exact h.to_hash hb (by constructor <;> rfl) rfl hd (holds_false_of_twoPass s i h2) (Nat.zero_le _) hle
      s.lat.src.isLt.le (by simp [onePassText_false_of_twoPass i h2]) (Nat.zero_mod _).symm
  · rw [he]
    exact h.to_scan hb (by constructor <;> rfl) hp hd h2 (Nat.lt_of_le_of_ne hle hne) ha htail

/-- A byte consumed before the end of a hash pass keeps the invariant. -/
theorem Inv.consume {s : State} {i : Instr} (h : Inv s) (hp : s.phase = .hash i) (v : Byte) (hn : s.cursor ≠ s.len)
    (ha : s.lat.src.toNat + s.cursor < addressSpace) : Inv (s.consume i v) := by
  obtain ⟨hc, hl, _⟩ := h.hashCursor i hp
  exact h.to_hash (by simp [busy_iff, hp]) (by constructor <;> rfl) hp (h.decoded i (.inr hp)) (h.hashReady i hp)
    (Nat.lt_of_le_of_ne hc hn) hl ha (fun h1 => (h.onePassLength i hp h1).imp_right fun e => absurd e.symm hn)
    (absorb_length s i.alg s.acc s.tail v s.cursor (h.tailLength i hp))

/-- A step of the one pass of a TEXT keeps the invariant. -/
theorem Inv.textHashStep {s : State} {i : Instr} (h : Inv s) (hp : s.phase = .hash i) : Inv (s.textHashStep i) := by
  obtain ⟨hc, hl, hle⟩ := h.hashCursor i hp
  obtain he | ⟨v, _, hn, ha, _, ⟨_, he⟩ | ⟨_, he⟩⟩ := textHashStep_cases s i
  · exact he.inv h.memory h.table
  · rw [he]
    exact h.to_hash (by simp [busy_iff, hp]) (by constructor <;> rfl) hp (h.decoded i (.inr hp)) (h.hashReady i hp)
      (Nat.le_refl _) (hc.trans hl) hle (fun _ => .inr rfl) (h.tailLength i hp)
  · rw [he]
    exact h.consume hp v hn ha

/-- A step over a counted span keeps the invariant: a byte that the memory answers stands inside the address space. -/
theorem Inv.spanHashStep {s : State} {i : Instr} (h : Inv s) (hp : s.phase = .hash i) : Inv (s.spanHashStep i) := by
  obtain he | ⟨v, hn, hv, he⟩ := spanHashStep_cases s i
  · exact he.inv h.memory h.table
  · rw [he]
    exact h.consume hp v hn (Memory.lt_of_read s.mem h.memory _ v hv)

/-- An engine step keeps the invariant, in each phase. -/
theorem Inv.engineStep {s : State} (h : Inv s) : Inv s.engineStep := by
  unfold State.engineStep
  split
  · exact h
  · exact h.startStep ‹_›
  · split
    · exact (replay_endsOnce s _).ended.inv h.memory h.table
    · exact h.scanStep ‹_›
  · split
    · exact (replay_endsOnce s _).ended.inv h.memory h.table
    · split
      · exact h.textHashStep ‹_›
      · exact h.spanHashStep ‹_›

/-- A turn `command` keeps the invariant. -/
theorem Inv.commandStep {s t : State} (h : Inv s) (hs : s.commandStep = .next t) : Inv t := by
  obtain ⟨i, _, _, e⟩ | ⟨_, _, _, e⟩ | ⟨_, e⟩ := commandStep_cases s <;> rw [e] at hs <;> cases hs
  · exact h.runCommand i
  · exact (ended_cmdError s _ _ (by decide)).inv h.memory h.table
  · exact h.engineStep

/-- A generator step keeps the invariant. -/
theorem Inv.tableStep {s : State} (h : Inv s) : Inv s.tableStep :=
  h.of_sameEngine (by constructor <;> simp) (by simpa using h.memory) h.table.tableStep
    (fun hr => by rw [tableStep_of_ready s hr]; exact hr) (by simpa using h.errCode)
    (by simpa [State.busy] using h.busyClean) (fun _ => State.tableStep_dirty s) (fun _ => State.tableStep_past s)

/-! The host -/

/-- A register the engine does not look at can change, and the port's answer, the script and the schedule too. -/
theorem Inv.of_sameBlock {s t : State} (h : Inv s) (e : SameEngine s t) (b : SameButPass s t) (hd : t.dirty = s.dirty)
    (hp : t.past = s.past) : Inv t :=
  h.of_sameEngine e (by rw [b.mem]; exact h.memory) (h.table.congr b.build b.tgen b.table) (b.tgen.trans ·)
    (by rw [b.err, b.errcode]; exact h.errCode)
    (by rw [State.busy, e.phase, b.done, b.err]; exact h.busyClean) (fun _ => hd) (fun _ => hp)

/-- A write to CTRL keeps the invariant, with a soft reset or without. -/
theorem Inv.writeCtrl {s : State} (h : Inv s) (v : Word) : Inv (s.writeCtrl v) := by
  unfold State.writeCtrl
  split
  · exact inv_of_idle h.memory (h.table.congr rfl rfl rfl) (by simp) rfl ⟨rfl, rfl, rfl, rfl⟩ rfl rfl
  · exact h.of_sameBlock (by constructor <;> rfl) (by constructor <;> rfl) rfl rfl

/-- Acceptance by an idle block keeps the invariant (40_command.md R100). -/
theorem Inv.accept {s : State} (h : Inv s) (hi : s.phase = .idle) (w : Word) : Inv (s.accept w) where
  memory := h.memory
  table := h.table.congr rfl rfl rfl
  errCode := by simp
  busyClean _ := ⟨rfl, rfl⟩
  decoded := by simp
  scanTwoPass := by simp
  hashReady := by simp
  clear _ := h.clear (.inl hi)
  idleSteady := by simp
  freshStart _ := rfl
  scanCursor := by simp
  hashCursor := by simp
  onePassLength := by simp
  tailLength := by simp

/-- A write to CMD keeps the invariant, accepted or dropped. -/
theorem Inv.writeCmd {s : State} (h : Inv s) (w : Word) : Inv (s.writeCmd w) := by
  unfold State.writeCmd
  split
  · exact h.of_sameBlock (by constructor <;> rfl) (by constructor <;> rfl) rfl rfl
  · rename_i hb
    exact h.accept (Decidable.not_not.1 (mt (busy_iff s).2 hb)) w

/-- A write to STATUS keeps the invariant: ERR and ERRCODE are cleared together (10_state.md R28). -/
theorem Inv.writeStatus {s : State} (h : Inv s) (v : Word) : Inv (s.writeStatus v) := by
  refine h.of_sameEngine (by constructor <;> rfl) h.memory (h.table.congr rfl rfl rfl) id ?_ (fun hb => ?_)
    (fun _ => rfl) (fun _ => rfl)
  · rw [State.writeStatus_err, State.writeStatus_errcode]
    cases v.getLsbD 2
    · simpa using h.errCode
    · simp
  · obtain ⟨hd, he⟩ := h.busyClean hb
    simp [hd, he]

/-- A register write keeps the invariant. -/
theorem Inv.writeReg {s : State} (h : Inv s) (o : BitVec 8) (v : Word) : Inv (s.writeReg o v) := by
  obtain e | ⟨_, e⟩ | ⟨_, e⟩ | ⟨_, e⟩ | ⟨_, e⟩ | ⟨_, e⟩ | ⟨_, e⟩ | ⟨_, e⟩ | ⟨_, e⟩ := writeReg_cases s o v <;> rw [e]
  case inl => exact h
  case inr.inl => exact h.writeCtrl v
  case inr.inr.inl => exact h.writeCmd v
  case inr.inr.inr.inl => exact h.writeStatus v
  all_goals exact h.of_sameBlock (by constructor <;> rfl) (by constructor <;> rfl) rfl rfl

/-- Outside a pass a change of the memory is not remembered. -/
theorem pastChange_of_outside (s : State) (h : s.phase = .idle ∨ s.phase = .held) : s.pastChange = s.past := by
  unfold State.pastChange
  obtain h | h := h <;> rw [h]

/-- A change of the memory by the platform keeps the invariant, if the memory stays canonical and an idle block remembers no
written address. -/
theorem Inv.of_memoryChange {s t : State} (h : Inv s) (e : SameEngine s t) (hm : t.mem.wf) (ht : TableSound t)
    (hr : t.tgen = s.tgen) (he : t.err = s.err ∧ t.errcode = s.errcode ∧ t.done = s.done)
    (hd : s.phase = .idle → t.dirty = s.dirty) (hp : t.past = s.pastChange) : Inv t := by
  obtain ⟨he, hc, hdone⟩ := he
  exact h.of_sameEngine e hm ht (hr.trans ·) (by rw [he, hc]; exact h.errCode)
    (by rw [State.busy, e.phase, he, hdone]; exact h.busyClean) hd (fun ho => hp.trans (pastChange_of_outside s ho))

/-- A host event that goes on keeps the invariant. -/
theorem Inv.hostStep {s t : State} (h : Inv s) (hs : s.hostStep = .next t) : Inv t := by
  obtain rfl | ⟨o, v, rest, _, rfl⟩ | ⟨r, l, rfl⟩ | ⟨a, b, rest, _, hle, rfl⟩ | ⟨a, rest, _, rfl⟩ | ⟨rest, _, rfl⟩ :=
    hostStep_cases s t hs
  · exact h
  · exact (h.writeReg o v).of_sameBlock (by constructor <;> rfl) (by constructor <;> rfl) rfl rfl
  · exact h.of_sameBlock (by constructor <;> rfl) (by constructor <;> rfl) rfl rfl
  · have hd (hi : s.phase = .idle) : (s.writeMem a.toNat b).dirty = s.dirty := by simp [State.busy, hi]
    exact h.of_memoryChange (by constructor <;> rfl) (Memory.wf_writeAll b s.mem _ h.memory hle)
      (h.table.congr rfl rfl rfl) rfl ⟨rfl, rfl, rfl⟩ hd rfl
  · exact h.of_memoryChange (by constructor <;> rfl) (Memory.wf_erase s.mem _ h.memory) (h.table.congr rfl rfl rfl) rfl
      ⟨rfl, rfl, rfl⟩ (fun _ => rfl) rfl
  · exact h.of_sameBlock (by constructor <;> rfl) (by constructor <;> rfl) rfl rfl

/-- The event of every agent keeps the invariant. -/
theorem Inv.agentStep {s t : State} (h : Inv s) (a : Config.Turn) (hs : State.agentStep a s = .next t) : Inv t := by
  cases a with
  | host => exact h.hostStep hs
  | engine => cases hs; exact h.engineStep
  | tableGen => cases hs; exact h.tableStep
  | command => exact h.commandStep hs

/-- Taking a turn off keeps the invariant. -/
theorem Inv.nextTurn {s : State} (h : Inv s) : Inv s.nextTurn.2 := by
  obtain ⟨l, n, e⟩ := nextTurn_frame s
  rw [e]
  exact h.of_sameBlock (by constructor <;> rfl) (by constructor <;> rfl) rfl rfl

/-! Reset -/

/-- The table of any build is sound right after a hardware reset, with nothing generated yet (10_state.md R46). -/
theorem tableSound_hardReset (s : State) : TableSound s.hardReset where
  entries := by rw [State.hardReset_table]; exact List.length_replicate
  absent := by
    rw [State.hardReset_tgen, State.hardReset_build]
    cases s.build.crcTableEn <;> decide
  written n hn := by
    rw [State.hardReset_tgen] at hn
    cases h : s.build.crcTableEn <;> rw [h] at hn <;> exact absurd hn (Nat.not_lt_zero n)

/-- A hardware reset leaves the invariant, whatever it interrupts, on any canonical memory. -/
theorem inv_hardReset (s : State) (hm : s.mem.wf) : Inv s.hardReset :=
  inv_of_idle hm (tableSound_hardReset s) (by simp) rfl ⟨rfl, rfl, rfl, rfl⟩ rfl rfl

/-- The reset state is the one a hardware reset leaves it in. -/
theorem hardReset_reset : State.reset.hardReset = State.reset := rfl

/-- Settles O53: a reset leaves an idle engine and no table entry written. -/
theorem resetSatisfiesTheInvariant : Obligations.ResetSatisfiesTheInvariant := by
  refine ⟨?_, inv_hardReset⟩
  rw [← hardReset_reset]
  exact inv_hardReset State.reset ⟨List.Pairwise.nil, fun _ h => nomatch h⟩

/-- Settles O54: a hardware reset leaves the invariant, and every agent's event keeps it. -/
theorem everyStepKeepsTheInvariant : Obligations.EveryStepKeepsTheInvariant := by
  intro s t h hs
  obtain ⟨_, rfl⟩ | ⟨_, hagent⟩ := step_cases s t hs
  · exact inv_hardReset s h.memory
  · exact h.nextTurn.agentStep _ hagent

end Sys2Proof.Machine
end

section
/-! SUPPORT. What a step does to the CRC table and to the result registers: a host event leaves both as they are, the engine
changes the result registers only at a completion (10_state.md R33 to R36), and nothing but a hardware reset changes a ready
table (R41). -/

namespace Sys2Proof.Machine

/-- `t` has the CRC table of `s`, as far generated. -/
def SameTable (s t : State) : Prop := t.tgen = s.tgen ∧ t.table = s.table

/-- `t` has the result registers of `s`, those of a success and ERR_ADDR. -/
def SameResults (s t : State) : Prop :=
  t.resultLo = s.resultLo ∧ t.resultHi = s.resultHi ∧ t.count = s.count ∧ t.errAddr = s.errAddr

/-! The host -/

/-- A write to CTRL leaves the table and the result registers, with a soft reset or without (70_reset_and_hazards.md
R232). -/
theorem writeCtrl_keepsOutputs (s : State) (v : Word) :
    SameTable s (s.writeCtrl v) ∧ SameResults s (s.writeCtrl v) := by
  unfold State.writeCtrl
  split <;> exact ⟨⟨rfl, rfl⟩, rfl, rfl, rfl, rfl⟩

/-- A write to CMD leaves the table and the result registers, accepted or dropped (40_command.md R100, R101). -/
theorem writeCmd_keepsOutputs (s : State) (v : Word) : SameTable s (s.writeCmd v) ∧ SameResults s (s.writeCmd v) := by
  unfold State.writeCmd
  split <;> exact ⟨⟨rfl, rfl⟩, rfl, rfl, rfl, rfl⟩

/-- A register write leaves the table and the result registers. -/
theorem writeReg_keepsOutputs (s : State) (o : BitVec 8) (v : Word) :
    SameTable s (s.writeReg o v) ∧ SameResults s (s.writeReg o v) := by
  obtain h | ⟨_, h⟩ | ⟨_, h⟩ | ⟨_, h⟩ | ⟨_, h⟩ | ⟨_, h⟩ | ⟨_, h⟩ | ⟨_, h⟩ | ⟨_, h⟩ := writeReg_cases s o v <;> rw [h]
  case inr.inl => exact writeCtrl_keepsOutputs s v
  case inr.inr.inl => exact writeCmd_keepsOutputs s v
  all_goals exact ⟨⟨rfl, rfl⟩, rfl, rfl, rfl, rfl⟩

/-- A host event that goes on leaves the table and the result registers. -/
theorem hostStep_keepsOutputs (s t : State) (h : s.hostStep = .next t) : SameTable s t ∧ SameResults s t := by
  obtain rfl | ⟨o, v, rest, _, rfl⟩ | ⟨r, l, rfl⟩ | ⟨a, b, rest, _, _, rfl⟩ | ⟨a, rest, _, rfl⟩ | ⟨rest, _, rfl⟩ :=
    hostStep_cases s t h
  case inr.inl => exact writeReg_keepsOutputs s o v
  all_goals exact ⟨⟨rfl, rfl⟩, rfl, rfl, rfl, rfl⟩

/-! A ready table -/

/-- An engine step leaves the table. -/
theorem engineStep_sameTable (s : State) : SameTable s s.engineStep := by
  obtain h | ⟨_, ⟨_, _, _, h⟩ | ⟨_, _, h⟩ | ⟨_, _, _, _, h⟩ | ⟨_, _, _, _, h⟩ | ⟨_, _, _, _, h⟩ | ⟨_, _, _, h⟩ |
    ⟨_, _, _, _, h⟩⟩ := engineStep_cases s <;> rw [h] <;> exact ⟨rfl, rfl⟩

/-- With the table ready, no command waits for anything (40_command.md R102). -/
theorem started_of_ready (s : State) (a : Alg) (h : s.tgen = .ready) : s.started a = s := by
  by_cases ha : a = .crc32
  · subst ha
    exact State.awaitTable_of_ready s fun _ => h
  · exact State.started_of_ne s a ha

/-- A command's run leaves a ready table. -/
theorem runCommand_sameTable (i : Instr) (s : State) (h : s.tgen = .ready) : SameTable s (runCommand i s) := by
  obtain ⟨_, _, e⟩ | ⟨_, _, _, _, e⟩ := runCommand_cases i s <;> rw [e, started_of_ready s i.alg h] <;> exact ⟨rfl, rfl⟩

/-- A turn `command` leaves a ready table. -/
theorem commandStep_sameTable (s t : State) (h : s.tgen = .ready) (hs : s.commandStep = .next t) : SameTable s t := by
  obtain ⟨i, _, _, e⟩ | ⟨_, _, _, e⟩ | ⟨_, e⟩ := commandStep_cases s <;> rw [e] at hs <;> cases hs
  · exact runCommand_sameTable i s h
  · exact ⟨rfl, rfl⟩
  · exact engineStep_sameTable s

/-- The event of every agent leaves a ready table. -/
theorem agentStep_sameTable (a : Config.Turn) (s t : State) (h : s.tgen = .ready)
    (hs : State.agentStep a s = .next t) : SameTable s t := by
  cases a with
  | host => exact (hostStep_keepsOutputs s t hs).1
  | engine => cases hs; exact engineStep_sameTable s
  | tableGen => cases hs; rw [tableStep_of_ready s h]; exact ⟨rfl, rfl⟩
  | command => exact commandStep_sameTable s t h hs

/-- Settles O41: the generator takes no step once it is READY, and no other agent's event touches it or the table. -/
theorem readyTableIsImmutable : Obligations.ReadyTableIsImmutable := by
  intro s t hready hline hs
  obtain ⟨hreset, _⟩ | ⟨_, hagent⟩ := step_cases s t hs
  · rw [hline] at hreset; cases hreset
  · obtain ⟨l, n, e⟩ := nextTurn_frame s
    rw [e] at hagent
    have hgen := (tableReady_iff s).1 hready
    obtain ⟨hg, ht⟩ := agentStep_sameTable _ (s.withSchedule l n) t hgen hagent
    exact ⟨(tableReady_iff t).2 (hg.trans hgen), ht⟩

/-! The result registers -/

/-- `t` ends a command of `s` as its result registers say: in a success that leaves ERR_ADDR (40_command.md R111), or in an
error that leaves the others (R112). -/
def EndsWithResults (s t : State) : Prop :=
  s.busy = true ∧ t.busy = false ∧ t.done = true ∧
    ((t.err = false ∧ t.errAddr = s.errAddr) ∨
      (t.err = true ∧ t.resultLo = s.resultLo ∧ t.resultHi = s.resultHi ∧ t.count = s.count))

/-- A running command that ends does so as its result registers say. -/
theorem Ended.endsWithResults {s t : State} (h : Ended s t) (hb : s.busy = true) : EndsWithResults s t := by
  obtain ⟨_, _, _, rfl⟩ | ⟨_, _, _, _, rfl⟩ := h
  · exact ⟨hb, rfl, rfl, .inl ⟨rfl, rfl⟩⟩
  · exact ⟨hb, rfl, rfl, .inr ⟨rfl, rfl, rfl, rfl⟩⟩

/-- An engine step leaves the result registers, or ends the command. -/
theorem engineStep_results (s : State) : SameResults s s.engineStep ∨ EndsWithResults s s.engineStep := by
  obtain h | ⟨hb, ⟨_, _, _, h⟩ | ⟨_, _, h⟩ | ⟨_, _, _, _, h⟩ | ⟨_, _, _, _, h⟩ | ⟨_, _, _, _, h⟩ | h | h⟩ :=
    engineStep_cases s
  case inr.inr.inr.inr.inr.inr.inl => exact .inr (Ended.endsWithResults (.inl h) hb)
  case inr.inr.inr.inr.inr.inr.inr => exact .inr (Ended.endsWithResults (.inr h) hb)
  all_goals rw [h]; exact .inl ⟨rfl, rfl, rfl, rfl⟩

/-- A command's run ends the command; its wait for the table leaves the result registers. -/
theorem runCommand_results (i : Instr) (s : State) (hb : s.busy = true) : EndsWithResults s (runCommand i s) := by
  have h : Ended (s.started i.alg) (runCommand i s) := (run_endsOnce (s.started i.alg) i).ended
  simpa [EndsWithResults, State.busy] using h.endsWithResults (by simpa [State.busy] using hb)

/-- A turn `command` leaves the result registers, or ends the command. -/
theorem commandStep_results (s t : State) (hs : s.commandStep = .next t) : SameResults s t ∨ EndsWithResults s t := by
  obtain ⟨i, hp, _, e⟩ | ⟨_, hp, _, e⟩ | ⟨_, e⟩ := commandStep_cases s <;> rw [e] at hs <;> cases hs
  · exact .inr (runCommand_results i s (by simp [busy_iff, hp]))
  · exact .inr ((ended_cmdError s _ _ (by decide)).endsWithResults (by simp [busy_iff, hp]))
  · exact engineStep_results s

/-- The event of every agent leaves the result registers, or ends a command. -/
theorem agentStep_results (a : Config.Turn) (s t : State) (hs : State.agentStep a s = .next t) :
    SameResults s t ∨ EndsWithResults s t := by
  cases a with
  | host => exact .inl (hostStep_keepsOutputs s t hs).2
  | engine => cases hs; exact engineStep_results s
  | tableGen => cases hs; exact .inl (by simp [SameResults])
  | command => exact commandStep_results s t hs

/-- Settles O57: a step leaves all result registers, or ends a command in a success that leaves ERR_ADDR or in an error that
leaves the others. -/
theorem resultsChangeOnlyAtACompletion : Obligations.ResultsChangeOnlyAtACompletion := by
  intro s t hline hs
  obtain ⟨hreset, _⟩ | ⟨_, hagent⟩ := step_cases s t hs
  · rw [hline] at hreset; cases hreset
  obtain ⟨l, n, e⟩ := nextTurn_frame s
  rw [e] at hagent
  obtain ⟨hlo, hhi, hcount, haddr⟩ | ⟨hb, hidle, hdone, ⟨herr, haddr⟩ | ⟨herr, hlo, hhi, hcount⟩⟩ :=
    agentStep_results _ (s.withSchedule l n) t hagent
  · refine ⟨fun hne => ?_, fun hne => absurd haddr hne⟩
    simp [hlo, hhi, hcount] at hne
  · exact ⟨fun _ => ⟨hb, hidle, hdone, herr, haddr⟩, fun hne => absurd haddr hne⟩
  · refine ⟨fun hne => ?_, fun _ => ⟨hb, hidle, hdone, herr, hlo, hhi, hcount⟩⟩
    simp [hlo, hhi, hcount] at hne

end Sys2Proof.Machine
end

section
/-! SUPPORT. The register window, one equation for each register that is read or written (10_state.md R20 to R39), and the
fields of the words it joins from parts. -/

namespace Sys2Proof.Machine.State

@[simp] theorem readReg_id (s : State) : s.readReg 0x00#8 = idWord := rfl
@[simp] theorem readReg_caps (s : State) : s.readReg 0x04#8 = capsWord s.build := rfl
@[simp] theorem readReg_crcPoly (s : State) : s.readReg 0x08#8 = s.build.crcPoly := rfl
@[simp] theorem readReg_ctrl (s : State) : s.readReg 0x0C#8 = s.ctrlWord := rfl
@[simp] theorem readReg_cmd (s : State) : s.readReg 0x10#8 = s.cmd := rfl
@[simp] theorem readReg_status (s : State) : s.readReg 0x14#8 = s.statusWord := rfl
@[simp] theorem readReg_srcAddr (s : State) : s.readReg 0x18#8 = s.srcAddr := rfl
@[simp] theorem readReg_length (s : State) : s.readReg 0x1C#8 = s.length := rfl
@[simp] theorem readReg_seedLo (s : State) : s.readReg 0x20#8 = s.seedLo := rfl
@[simp] theorem readReg_seedHi (s : State) : s.readReg 0x24#8 = s.seedHi := rfl
@[simp] theorem readReg_resultLo (s : State) : s.readReg 0x28#8 = s.resultLo := rfl
@[simp] theorem readReg_resultHi (s : State) : s.readReg 0x2C#8 = s.resultHi := rfl
@[simp] theorem readReg_count (s : State) : s.readReg 0x30#8 = s.count := rfl
@[simp] theorem readReg_errAddr (s : State) : s.readReg 0x34#8 = s.errAddr := rfl
@[simp] theorem readReg_tabIndex (s : State) : s.readReg 0x38#8 = s.tabIndexWord := rfl
@[simp] theorem readReg_tabData (s : State) : s.readReg 0x3C#8 = s.tabDataWord := rfl

@[simp] theorem writeReg_id (s : State) (v : Word) : s.writeReg 0x00#8 v = s := rfl
@[simp] theorem writeReg_caps (s : State) (v : Word) : s.writeReg 0x04#8 v = s := rfl
@[simp] theorem writeReg_crcPoly (s : State) (v : Word) : s.writeReg 0x08#8 v = s := rfl
@[simp] theorem writeReg_ctrl (s : State) (v : Word) : s.writeReg 0x0C#8 v = s.writeCtrl v := rfl
@[simp] theorem writeReg_cmd (s : State) (v : Word) : s.writeReg 0x10#8 v = s.writeCmd v := rfl
@[simp] theorem writeReg_status (s : State) (v : Word) : s.writeReg 0x14#8 v = s.writeStatus v := rfl
@[simp] theorem writeReg_srcAddr (s : State) (v : Word) : s.writeReg 0x18#8 v = { s with srcAddr := v } := rfl
@[simp] theorem writeReg_length (s : State) (v : Word) : s.writeReg 0x1C#8 v = { s with length := v } := rfl
@[simp] theorem writeReg_seedLo (s : State) (v : Word) : s.writeReg 0x20#8 v = { s with seedLo := v } := rfl
@[simp] theorem writeReg_seedHi (s : State) (v : Word) : s.writeReg 0x24#8 v = { s with seedHi := v } := rfl
@[simp] theorem writeReg_resultLo (s : State) (v : Word) : s.writeReg 0x28#8 v = s := rfl
@[simp] theorem writeReg_resultHi (s : State) (v : Word) : s.writeReg 0x2C#8 v = s := rfl
@[simp] theorem writeReg_count (s : State) (v : Word) : s.writeReg 0x30#8 v = s := rfl
@[simp] theorem writeReg_errAddr (s : State) (v : Word) : s.writeReg 0x34#8 v = s := rfl
@[simp] theorem writeReg_tabIndex (s : State) (v : Word) :
    s.writeReg 0x38#8 v = { s with tabIndex := v.extractLsb' 0 8 } := rfl
@[simp] theorem writeReg_tabData (s : State) (v : Word) : s.writeReg 0x3C#8 v = s := rfl

/-- A reserved offset reads 0 (10_state.md R39). -/
theorem readReg_reserved (s : State) (o : BitVec 8) (h : 0x40 ≤ o.toNat) : s.readReg o = 0#32 := by
  unfold readReg
  split
  case h_17 => rfl
  all_goals omega

/-- A write to a reserved offset is ignored (10_state.md R39). -/
theorem writeReg_reserved (s : State) (o : BitVec 8) (v : Word) (h : 0x40 ≤ o.toNat) : s.writeReg o v = s := by
  unfold writeReg
  split
  case h_9 => rfl
  all_goals omega

/-- A 32-bit write at an aligned offset is taken (20_memory.md R70). -/
theorem hostWrite_of_aligned (s : State) (o : BitVec 8) (v : Word) (h : offsetAligned o = true) :
    s.hostWrite .w32 o v = { s.writeReg o v with response := .ack } :=
  if_pos h

/-- A 32-bit read at an aligned offset answers the register and changes nothing of the block (20_memory.md R70, R72). -/
theorem hostRead_of_aligned (s : State) (o : BitVec 8) (h : offsetAligned o = true) :
    s.hostRead .w32 o = { s with response := .data (s.readReg o) } :=
  if_pos h

/-- An offset divisible by four is aligned. -/
theorem offsetAligned_of_mod (o : BitVec 8) (h : o.toNat % 4 = 0) : offsetAligned o = true := by
  unfold offsetAligned
  rw [decide_eq_true_iff]
  apply BitVec.eq_of_toNat_eq
  simpa using h

/-- A write access does the same with any word that the register write does the same with. -/
theorem hostWrite_congr (s : State) (w : AccessWidth) (o : BitVec 8) {v v' : Word} (h : s.writeReg o v = s.writeReg o v') :
    s.hostWrite w o v = s.hostWrite w o v' := by
  unfold hostWrite
  rw [h]

/-! The fields of the words as they read -/

/-- BUSY, DONE, ERR, TABLE_READY and DROP stand in STATUS at bits 0 to 4 (10_state.md R28). -/
theorem statusWord_flags (s : State) :
    s.statusWord.getLsbD 0 = s.busy ∧ s.statusWord.getLsbD 1 = s.done ∧ s.statusWord.getLsbD 2 = s.err ∧
      s.statusWord.getLsbD 3 = s.tableReady ∧ s.statusWord.getLsbD 4 = s.drop := by
  simp [-BitVec.getLsbD_eq_getElem, statusWord, BitVec.getLsbD_append (m := 1)]

/-- The bits of STATUS above its flags: three that are 0, then ERRCODE (10_state.md R28). -/
theorem statusWord_bit_high (s : State) (k : Nat) :
    s.statusWord.getLsbD (k + 5) = if k < 3 then false else s.errcode.code.getLsbD (k - 3) := by
  have hcode : (decide (k - 3 < 4) && s.errcode.code.getLsbD (k - 3)) = s.errcode.code.getLsbD (k - 3) := by
    by_cases h : k - 3 < 4
    · simp [h]
    · rw [BitVec.getLsbD_of_ge _ _ (Nat.le_of_not_lt h), Bool.and_false]
  simp [statusWord, BitVec.getLsbD_append (m := 1), BitVec.getLsbD_append (m := 3), BitVec.getLsbD_append (m := 4), hcode]

/-- ERRCODE stands in STATUS at bits 8 to 11, and every bit between the flags and it and above it is 0 (10_state.md R28). -/
theorem statusWord_fields (s : State) :
    s.statusWord.extractLsb' 5 3 = 0#3 ∧ s.statusWord.extractLsb' 8 4 = s.errcode.code ∧
      s.statusWord.extractLsb' 12 20 = 0#20 := by
  refine ⟨?_, ?_, ?_⟩ <;> ext i hi <;> rw [BitVec.getElem_extractLsb']
  · rw [Nat.add_comm, statusWord_bit_high, if_pos hi, BitVec.getElem_zero]
  · rw [show 8 + i = i + 3 + 5 by omega, statusWord_bit_high, if_neg (by omega), Nat.add_sub_cancel]
    exact BitVec.getLsbD_eq_getElem hi
  · rw [show 12 + i = i + 7 + 5 by omega, statusWord_bit_high, if_neg (by omega), BitVec.getLsbD_of_ge _ _ (by omega),
      BitVec.getElem_zero]

end Sys2Proof.Machine.State

namespace Sys2Proof.Machine

/-- The fields of CAPS: TABLE, AW = 32, NALG = 9, the rest 0 (10_state.md R24). -/
theorem capsWord_fields (b : Config.Build) :
    (capsWord b).getLsbD 0 = b.crcTableEn ∧ (capsWord b).extractLsb' 1 7 = 0#7 ∧ (capsWord b).extractLsb' 8 8 = 32#8 ∧
      (capsWord b).extractLsb' 16 4 = 9#4 ∧ (capsWord b).extractLsb' 20 12 = 0#12 := by
  unfold capsWord
  cases b.crcTableEn <;> decide

/-- CTRL reads 0 above IE (10_state.md R26). -/
theorem ctrlWord_reserved (s : State) : s.ctrlWord.extractLsb' 1 31 = 0#31 := by
  unfold State.ctrlWord
  cases s.ie <;> decide

/-- TAB_INDEX reads INDEX, zero extended (10_state.md R37). -/
theorem tabIndexWord_eq (s : State) : s.tabIndexWord = s.tabIndex.setWidth 32 := by
  rw [BitVec.setWidth_eq_append (by decide)]
  rfl

/-- TAB_INDEX reads 0 above INDEX (10_state.md R37). -/
theorem tabIndexWord_reserved (s : State) : s.tabIndexWord.extractLsb' 8 24 = 0#24 := by
  rw [tabIndexWord_eq]
  ext i hi
  simp

/-! Writes, by the bits they look at -/

/-- A write to TAB_INDEX takes bits 7 to 0 (10_state.md R37). -/
theorem lowByte_mask (v : Word) : (v &&& 0xFF#32).extractLsb' 0 8 = v.extractLsb' 0 8 := by
  have h : (0xFF#32 : Word).extractLsb' 0 8 = BitVec.allOnes 8 := by decide
  rw [BitVec.extractLsb'_and, h, BitVec.and_allOnes]

/-- The low byte of a word, zero extended, is the word with its other bits 0. -/
theorem lowByte_setWidth (v : Word) : (v.extractLsb' 0 8).setWidth 32 = v &&& 0xFF#32 := by
  have h : v.toNat &&& 255 = v.toNat % 256 := Nat.and_two_pow_sub_one_eq_mod v.toNat 8
  apply BitVec.eq_of_toNat_eq
  simp only [BitVec.toNat_setWidth, BitVec.extractLsb'_toNat, Nat.shiftRight_zero, BitVec.toNat_and, BitVec.toNat_ofNat,
    Nat.reducePow, Nat.reduceMod, h]
  omega

/-- A write to CTRL looks at bits 1 and 0 (10_state.md R26). -/
theorem writeCtrl_mask (s : State) (v : Word) : s.writeCtrl (v &&& 0x3#32) = s.writeCtrl v := by
  simp [State.writeCtrl]

/-- A write to STATUS looks at bits 1, 2 and 4 (10_state.md R28). -/
theorem writeStatus_mask (s : State) (v : Word) : s.writeStatus (v &&& 0x16#32) = s.writeStatus v := by
  simp [State.writeStatus]

/-! The obligations -/

/-- Settles O27: the fields of STATUS as its word joins them, and its write as the model defines it. -/
theorem statusReadsAndClears : Obligations.StatusReadsAndClears := by
  intro s
  obtain ⟨hbusy, hdone, herr, hready, hdrop⟩ := s.statusWord_flags
  obtain ⟨hlow, hcode, hhigh⟩ := s.statusWord_fields
  exact ⟨⟨hbusy, hdone, herr, hready, hdrop, hlow, hcode, hhigh⟩, s.writeReg_status⟩

/-- Settles O29: the three registers read constants of the build, and no write reaches them. -/
theorem identityRegistersAreConstant : Obligations.IdentityRegistersAreConstant := by
  intro s v
  refine ⟨rfl, rfl, capsWord_fields s.build, fun h => ?_, rfl, rfl, rfl⟩
  rw [State.readReg_caps, State.readReg_crcPoly, h]
  exact ⟨rfl, rfl⟩

/-- Settles O30: a reserved offset has no register, a reserved bit is 0 in the word read, and a write does not look at
it. -/
theorem reservedReadsZeroAndIgnoresWrites : Obligations.ReservedReadsZeroAndIgnoresWrites := by
  intro s v
  obtain ⟨_, hcapsLow, _, _, hcapsHigh⟩ := capsWord_fields s.build
  obtain ⟨hstatusLow, _, hstatusHigh⟩ := s.statusWord_fields
  refine ⟨fun o hlo _ h4 => ⟨s.readReg_reserved o hlo, ?_⟩, ctrlWord_reserved s, tabIndexWord_reserved s, hcapsLow,
    hcapsHigh, hstatusLow, hstatusHigh, ?_, ?_, ?_⟩
  · rw [s.hostWrite_of_aligned o v (State.offsetAligned_of_mod o h4), s.writeReg_reserved o v hlo]
  · exact s.hostWrite_congr .w32 0x38#8 (by rw [State.writeReg_tabIndex, State.writeReg_tabIndex, lowByte_mask])
  · exact s.hostWrite_congr .w32 0x0C#8 (writeCtrl_mask s v).symm
  · exact s.hostWrite_congr .w32 0x14#8 (writeStatus_mask s v).symm

/-- Settles O33: each operand register reads what its write stored, and no write reaches a result register. -/
theorem operandRegistersReadBack : Obligations.OperandRegistersReadBack := by
  intro s v
  refine ⟨?_, ?_, ?_, rfl, rfl, rfl, rfl, rfl⟩
  · simp
  · rw [State.readReg_tabIndex, tabIndexWord_eq, State.writeReg_tabIndex]
    exact lowByte_setWidth v
  · simp

/-- A sound table holds the entry of 41_crc32.md R130 at each index, once it is ready. -/
theorem TableSound.tableAt_of_ready {s : State} (h : TableSound s) (hr : s.tgen = .ready) (n : BitVec 8) :
    s.tableAt n = crcStep8 s.build.crcPoly (n.setWidth 32) := by
  have he : s.table[n.toNat]? = some (crcEntry s.build.crcPoly n.toNat) := h.written _ (by rw [hr]; exact n.isLt)
  rw [State.tableAt, List.getD_eq_getElem?_getD, he, Option.getD_some, crcEntry, BitVec.ofNat_toNat]

/-- A sound table is never ready in a build without one (10_state.md R43). -/
theorem TableSound.not_ready {s : State} (h : TableSound s) (hen : s.build.crcTableEn = false) : s.tableReady = false := by
  rw [State.tableReady, h.absent.2 hen]
  rfl

/-- TAB_DATA reads 0 until the table is ready (10_state.md R38). -/
theorem tabDataWord_of_not_ready (s : State) (h : s.tableReady = false) : s.tabDataWord = 0#32 := by
  rw [State.tabDataWord, h]
  rfl

/-- Settles O34: a sound table holds its entries once ready, and in a build without the table it never is. -/
theorem tabDataShowsTheSelectedEntry : Obligations.TabDataShowsTheSelectedEntry := by
  intro s h
  refine ⟨fun hr => ?_, tabDataWord_of_not_ready s, fun hen => tabDataWord_of_not_ready s (h.not_ready hen),
    s.hostRead_of_aligned 0x3C#8 rfl, s.writeReg_tabData⟩
  rw [State.readReg_tabData, State.tabDataWord, if_pos hr]
  exact h.tableAt_of_ready ((tableReady_iff s).1 hr) s.tabIndex

/-- No table is ready right after a hardware reset (10_state.md R46). -/
theorem hardReset_tableReady (s : State) : s.hardReset.tableReady = false := by
  rw [State.tableReady, State.hardReset_tgen]
  cases s.build.crcTableEn <;> rfl

/-- STATUS reads 0 right after a hardware reset (10_state.md R46). -/
theorem hardReset_statusWord (s : State) : s.hardReset.statusWord = 0#32 := by
  have hbusy : s.hardReset.busy = false := rfl
  rw [State.statusWord, hardReset_tableReady, hbusy, State.hardReset_errcode, State.hardReset_drop, State.hardReset_err,
    State.hardReset_done]
  rfl

/-- TAB_INDEX reads 0 right after a hardware reset (10_state.md R46). -/
theorem hardReset_tabIndexWord (s : State) : s.hardReset.tabIndexWord = 0#32 := by
  rw [State.tabIndexWord, State.hardReset_tabIndex]
  rfl

/-- Settles O51: a hardware reset leaves each register at its value of 10_state.md R46, the generator at its start in a
build with the table and ABSENT in one without. -/
theorem hardwareResetValues : Obligations.HardwareResetValues := by
  intro s
  have hfill (h : s.build.crcTableEn = true) : s.hardReset.tgen = .fill 0 := by rw [State.hardReset_tgen, if_pos h]
  have habsent (h : s.build.crcTableEn = false) : s.hardReset.tgen = .absent := by rw [State.hardReset_tgen, h]; rfl
  exact ⟨rfl, rfl, hardReset_statusWord s, rfl, rfl, rfl, hardReset_tableReady s, rfl, rfl, rfl, rfl, rfl, rfl, rfl, rfl,
    rfl, rfl, hardReset_tabIndexWord s, rfl, hfill, habsent, rfl, rfl, rfl, rfl, rfl⟩

end Sys2Proof.Machine
end

section
/-! SUPPORT. The memory as the rest of the block meets it: no event writes it but a host's memory event (20_memory.md R61),
and the word loads of the algorithms read it as little-endian (R64, R66). -/

namespace Sys2Proof.Machine

/-! The frame of the memory -/

/-- A write to CTRL leaves the memory, with a soft reset or without. -/
@[simp] theorem State.writeCtrl_mem (s : State) (v : Word) : (s.writeCtrl v).mem = s.mem := by
  unfold State.writeCtrl
  split <;> rfl

/-- A write to CMD leaves the memory, accepted or dropped. -/
@[simp] theorem State.writeCmd_mem (s : State) (w : Word) : (s.writeCmd w).mem = s.mem := by
  unfold State.writeCmd
  split <;> rfl

/-- A register write leaves the memory. -/
@[simp] theorem State.writeReg_mem (s : State) (o : BitVec 8) (v : Word) : (s.writeReg o v).mem = s.mem := by
  obtain h | ⟨_, h⟩ | ⟨_, h⟩ | ⟨_, h⟩ | ⟨_, h⟩ | ⟨_, h⟩ | ⟨_, h⟩ | ⟨_, h⟩ | ⟨_, h⟩ := writeReg_cases s o v <;> rw [h]
  case inr.inl => exact s.writeCtrl_mem v
  case inr.inr.inl => exact s.writeCmd_mem v
  case inr.inr.inr.inl => exact s.writeStatus_mem v

/-- An engine step leaves the memory (20_memory.md R61). -/
@[simp] theorem State.engineStep_mem (s : State) : s.engineStep.mem = s.mem := by
  obtain h | ⟨_, ⟨_, _, _, h⟩ | ⟨_, _, h⟩ | ⟨_, _, _, _, h⟩ | ⟨_, _, _, _, h⟩ | ⟨_, _, _, _, h⟩ | ⟨_, _, _, h⟩ |
    ⟨_, _, _, _, h⟩⟩ := engineStep_cases s <;> rw [h] <;> rfl

/-- A command's run leaves the memory, its wait for the table included. -/
@[simp] theorem runCommand_mem (i : Instr) (s : State) : (runCommand i s).mem = s.mem := by
  obtain ⟨_, _, h⟩ | ⟨_, _, _, _, h⟩ := runCommand_cases i s <;> rw [h] <;> exact s.started_mem i.alg

/-- A turn `command` leaves the memory. -/
theorem commandStep_mem (s t : State) (h : s.commandStep = .next t) : t.mem = s.mem := by
  obtain ⟨i, _, _, e⟩ | ⟨_, _, _, e⟩ | ⟨_, e⟩ := commandStep_cases s <;> rw [e] at h <;> cases h
  · exact runCommand_mem i s
  · exact s.cmdError_mem _ _
  · exact s.engineStep_mem

/-- The host's next event is no memory event: neither a MEMB nor the platform's change of an address to BusError (log 4). -/
def NoMemoryEvent (s : State) : Prop :=
  (∀ a b rest, s.script ≠ .memb a b :: rest) ∧ ∀ a rest, s.script ≠ .busFault a :: rest

/-- A host event that is no memory event leaves the memory. -/
theorem hostStep_mem (s t : State) (hn : NoMemoryEvent s) (h : s.hostStep = .next t) : t.mem = s.mem := by
  obtain ⟨hmemb, hfault⟩ := hn
  obtain rfl | ⟨o, v, _, _, rfl⟩ | ⟨_, _, rfl⟩ | ⟨a, b, rest, hs, _, _⟩ | ⟨a, rest, hs, _⟩ | ⟨_, _, rfl⟩ :=
    hostStep_cases s t h
  · rfl
  · exact s.writeReg_mem o v
  · rfl
  · exact absurd hs (hmemb a b rest)
  · exact absurd hs (hfault a rest)
  · rfl

/-- The event of an agent leaves the memory, unless it is a memory event of the host. -/
theorem agentStep_mem (a : Config.Turn) (s t : State) (hn : a = .host → NoMemoryEvent s)
    (h : State.agentStep a s = .next t) : t.mem = s.mem := by
  cases a with
  | host => exact hostStep_mem s t (hn rfl) h
  | engine => cases h; exact s.engineStep_mem
  | tableGen => cases h; exact s.tableStep_mem
  | command => exact commandStep_mem s t h

/-- Settles O60: a hardware reset keeps the memory, and so does every agent's event but a memory event of the host. -/
theorem onlyTheHostChangesMemory : Obligations.OnlyTheHostChangesMemory := by
  intro s t hs hquiet x
  suffices h : t.mem = s.mem by rw [h]
  obtain ⟨_, rfl⟩ | ⟨hline, hagent⟩ := step_cases s t hs
  · exact s.hardReset_mem
  · have hn (hhost : s.nextTurn.1 = .host) : NoMemoryEvent s :=
      (hquiet.resolve_left (by simp [hline])).resolve_left (not_not_intro hhost)
    obtain ⟨l, n, e⟩ := nextTurn_frame s
    rw [e] at hagent
    exact agentStep_mem _ (s.withSchedule l n) t hn hagent

/-! The word loads -/

/-- Past the bytes before a part of the input stand the bytes of that part. -/
theorem byteAt_middle (p t q : List Byte) (j : Nat) (h : j < t.length) :
    byteAt (p ++ t ++ q) (p.length + j) = byteAt t j := by
  rw [List.append_assoc, byteAt, byteAt, List.getD_append_right _ _ _ _ (Nat.le_add_right ..), Nat.add_sub_cancel_left,
    List.getD_append _ _ _ _ h]

/-- `LE32` of a part of four bytes reads that part alone (20_memory.md R66). -/
theorem le32_middle (p t q : List Byte) (h : t.length = 4) : le32 (p ++ t ++ q) p.length = le32 t 0 := by
  have hb (j : Nat) (hj : j < 4) : byteAt (p ++ t ++ q) (p.length + j) = byteAt t j := byteAt_middle p t q j (h ▸ hj)
  have h0 : byteAt (p ++ t ++ q) p.length = byteAt t 0 := hb 0 (by decide)
  rw [le32, h0, hb 1 (by decide), hb 2 (by decide), hb 3 (by decide)]
  rfl

/-- `LE64` of a part of eight bytes reads that part alone (20_memory.md R66). -/
theorem le64_middle (p t q : List Byte) (h : t.length = 8) : le64 (p ++ t ++ q) p.length = le64 t 0 := by
  unfold le64
  refine List.foldl_ext _ _ _ fun w j hj => ?_
  rw [byteAt_middle p t q j (by simpa [h] using hj), Nat.zero_add]

/-- The byte of a word at bit `k`, alone at its place. -/
def lane {n : Nat} (w : BitVec n) (k : Nat) : BitVec n := (w.extractLsb' k 8).setWidth n <<< k

/-- A lane has the word's bits at its own eight places. -/
theorem lane_bit {n : Nat} (w : BitVec n) (k i : Nat) :
    (lane w k).getLsbD i = (decide (k ≤ i ∧ i < k + 8) && w.getLsbD i) := by
  simp only [lane, BitVec.getLsbD_shiftLeft, BitVec.getLsbD_setWidth, BitVec.getLsbD_extractLsb']
  by_cases hn : i < n
  · by_cases hk : k ≤ i
    · have hlt : i - k < n := by omega
      have hplace : i - k < 8 ↔ i < k + 8 := by omega
      simp [hn, hk, hlt, hplace]
    · simp [hk, Nat.lt_of_not_le hk]
  · simp [hn, BitVec.getLsbD_of_ge w i (Nat.le_of_not_lt hn)]

/-- `LE32` joins the lanes of the word whose bytes it reads. -/
theorem le32_lanes (w : Word) : le32 (Claims.bytesOf32 w) 0 = lane w 0 ||| lane w 8 ||| lane w 16 ||| lane w 24 := by
  have h0 : lane w 0 = zext32 (w.extractLsb' 0 8) := BitVec.shiftLeft_zero _
  rw [h0]
  rfl

/-- `LE64` joins the lanes of the double word whose bytes it reads. -/
theorem le64_lanes (v : DWord) : le64 (Claims.bytesOf64 v) 0 =
    0#64 ||| lane v 0 ||| lane v 8 ||| lane v 16 ||| lane v 24 ||| lane v 32 ||| lane v 40 ||| lane v 48 ||| lane v 56 :=
  rfl

/-- `LE32` reads a word from its four bytes (20_memory.md R64): each bit of the word is in one lane. -/
theorem le32_bytesOf32 (w : Word) : le32 (Claims.bytesOf32 w) 0 = w := by
  apply BitVec.eq_of_getLsbD_eq
  intro i hi
  simp only [le32_lanes, BitVec.getLsbD_or, lane_bit, ← Bool.and_or_distrib_right, ← Bool.decide_or]
  rw [decide_eq_true (by omega), Bool.true_and]

/-- `LE64` reads a double word from its eight bytes (20_memory.md R64): each bit of the double word is in one lane. -/
theorem le64_bytesOf64 (v : DWord) : le64 (Claims.bytesOf64 v) 0 = v := by
  apply BitVec.eq_of_getLsbD_eq
  intro i hi
  simp only [le64_lanes, BitVec.getLsbD_or, BitVec.getLsbD_zero, Bool.false_or, lane_bit, ← Bool.and_or_distrib_right,
    ← Bool.decide_or]
  rw [decide_eq_true (by omega), Bool.true_and]

/-- Settles O44: each load reads the part of the input placed at its offset, and the number of that part is the word. -/
theorem wordLoadsAreLittleEndian : Obligations.WordLoadsAreLittleEndian := by
  intro p q w v
  exact ⟨(le32_middle p (Claims.bytesOf32 w) q rfl).trans (le32_bytesOf32 w),
    (le64_middle p (Claims.bytesOf64 v) q rfl).trans (le64_bytesOf64 v)⟩

end Sys2Proof.Machine
end

section
/-! SUPPORT. The accesses of the register port: which it takes and which it refuses (20_memory.md R70), the side effects of
the ones it takes (R72), and the addresses they come to (R68). -/

namespace Sys2Proof.Machine

/-- The port takes 32-bit accesses at offsets with bits [1:0] = 0 (20_memory.md R70). -/
theorem accessAccepted_iff (w : AccessWidth) (o : BitVec 8) :
    accessAccepted w o = true ↔ w = .w32 ∧ o.extractLsb' 0 2 = 0#2 := by
  simp [accessAccepted, AccessWidth.accepted, offsetAligned]

/-- A write the port refuses changes nothing but the port's answer (20_memory.md R70). -/
theorem State.hostWrite_of_refused (s : State) (w : AccessWidth) (o : BitVec 8) (v : Word)
    (h : ¬accessAccepted w o = true) : s.hostWrite w o v = { s with response := .busError } :=
  if_neg h

/-- A read the port refuses answers no data and changes nothing but the port's answer (20_memory.md R70). -/
theorem State.hostRead_of_refused (s : State) (w : AccessWidth) (o : BitVec 8) (h : ¬accessAccepted w o = true) :
    s.hostRead w o = { s with response := .busError } :=
  if_neg h

/-- Settles O31: a wrong width or a wrong alignment is enough for the port to refuse, and neither for it to take. -/
theorem refusedAccessesChangeNothing : Obligations.RefusedAccessesChangeNothing := by
  intro s w o v
  refine ⟨fun hbad => ?_, fun halign => ?_⟩
  · have hrefused : ¬accessAccepted w o = true := by rwa [accessAccepted_iff, not_and_or]
    exact ⟨s.hostWrite_of_refused w o v hrefused, s.hostRead_of_refused w o hrefused⟩
  · have haligned : offsetAligned o = true := decide_eq_true halign
    exact ⟨s.hostWrite_of_aligned o v haligned, s.hostRead_of_aligned o haligned⟩

/-- No register shows the port's answer. -/
theorem State.readReg_response (s : State) (r : Response) (o : BitVec 8) :
    { s with response := r }.readReg o = s.readReg o := rfl

/-- A write to CTRL with SRST = 0 writes IE alone (10_state.md R26). -/
theorem State.writeCtrl_of_not_srst (s : State) (v : Word) (h : ¬v.getLsbD 1 = true) :
    s.writeCtrl v = { s with ie := v.getLsbD 0 } := by
  rw [State.writeCtrl, if_neg h]

/-- A write to STATUS that sets no W1C bit changes nothing (10_state.md R28). -/
theorem State.writeStatus_of_no_w1c (s : State) (v : Word) (h : v &&& 0x16#32 = 0#32) : s.writeStatus v = s := by
  rw [← writeStatus_mask, h]
  simp [State.writeStatus]

/-- Settles O32: of the writes only those to CTRL, CMD and STATUS can do more than store a word in their register,
and those to CTRL and STATUS only with the bits R72 names. -/
theorem onlyThreeWritesHaveSideEffects : Obligations.OnlyThreeWritesHaveSideEffects := by
  intro s o v halign
  have hread := s.hostRead_of_aligned o (decide_eq_true halign)
  refine ⟨hread, by rw [hread, State.readReg_response], fun hcmd hstatus hctrl => ?_⟩
  obtain h | ⟨ho, h⟩ | ⟨ho, _⟩ | ⟨ho, h⟩ | hstore := writeReg_cases s o v
  · exact .inl h
  · have hsrst : ¬v.getLsbD 1 = true := fun hv => hctrl ⟨ho, hv⟩
    exact .inr (.inl ⟨ho, h.trans (s.writeCtrl_of_not_srst v hsrst)⟩)
  · exact absurd ho hcmd
  · have hw1c : v &&& 0x16#32 = 0#32 := by_contra fun hv => hstatus ⟨ho, hv⟩
    exact .inl (h.trans (s.writeStatus_of_no_w1c v hw1c))
  · exact .inr (.inr hstore)

/-- An address is the address of an offset exactly when it is joined from HC_BASE and the offset (20_memory.md R68). -/
theorem eq_registerAddress_iff (s : State) (a : Word) (o : BitVec 8) :
    a = s.registerAddress o ↔ a.extractLsb' 8 24 = s.platform.hcBase ∧ a.extractLsb' 0 8 = o := by
  simp only [← BitVec.toNat_inj, registerAddress_toNat, BitVec.extractLsb'_toNat, Nat.shiftRight_eq_div_pow]
  omega

/-- An address is in the window exactly at the offset whose address it is (20_memory.md R68). -/
theorem State.windowOffset_eq_some_iff (s : State) (a : Word) (o : BitVec 8) :
    s.windowOffset a = some o ↔ a = s.registerAddress o := by
  rw [eq_registerAddress_iff, State.windowOffset]
  split <;> simp [*]

/-- Settles O49: an address is its base and its offset joined, and 8 bits of offset leave the base a multiple of 256. -/
theorem registerWindowStandsAtItsBase : Obligations.RegisterWindowStandsAtItsBase := by
  intro s o a
  have hbase := registerAddress_toNat s 0#8
  exact ⟨registerAddress_toNat s o, by rw [hbase]; simp, s.windowOffset_eq_some_iff a o⟩

end Sys2Proof.Machine
end

section
/-! SUPPORT. The decoder as equivalences (30_encoding.md R80 to R88): which words decode to a command, which are rejected, and
what the opcode map's mask and match column say of them. -/

namespace Sys2Proof.Machine

/-! The fields -/

/-- An ALG code names an algorithm exactly when it is the algorithm's own (30_encoding.md R81). -/
theorem algOfCode_eq_some_iff (c : BitVec 4) (a : Alg) : algOfCode c = some a ↔ c = a.code := by
  revert c
  cases a <;> decide

/-- The ALG codes above 8 are reserved (30_encoding.md R81, R84). -/
theorem algOfCode_eq_none_iff (c : BitVec 4) : algOfCode c = none ↔ 8 < c.toNat := by
  revert c
  decide

/-- A SHAPE bit names a shape exactly when it is the shape's own (30_encoding.md R82). -/
theorem shapeOf_eq_iff (b : Bool) (sh : Shape) : shapeOf b = sh ↔ b = sh.bit := by
  revert b
  cases sh <;> decide

/-- A command is its algorithm, its shape and its DSEED bit (30_encoding.md R86). -/
theorem instrOf_eq_iff (a : Alg) (sh : Shape) (d : Bool) (i : Instr) :
    instrOf a sh d = i ↔ a = i.alg ∧ sh = i.shape ∧ d = i.dseed := by
  constructor
  · rintro rfl
    cases a <;> cases sh <;> exact ⟨rfl, rfl, rfl⟩
  · rintro ⟨rfl, rfl, rfl⟩
    cases i <;> rfl

/-- The fields stand in an encoded command at their places (30_encoding.md R80). -/
theorem splitWord_encode (i : Instr) :
    splitWord (encode i) = { alg := i.alg.code, shape := i.shape.bit, dseed := i.dseed, rsvd := 0#26 } := by
  have halg : (encode i).extractLsb' 0 4 = i.alg.code := by
    ext k hk
    rw [BitVec.getElem_extractLsb', Nat.zero_add, encode_bit, if_pos hk, BitVec.getLsbD_eq_getElem hk]
  have hrsvd : (encode i).extractLsb' 6 26 = 0#26 := by
    ext k hk
    rw [BitVec.getElem_extractLsb', encode_bit, if_neg (by omega), if_neg (by omega), if_neg (by omega),
      BitVec.getElem_zero]
  rw [splitWord, halg, encode_bit, encode_bit, hrsvd]
  rfl

/-- The four fields are the whole word (30_encoding.md R80). -/
theorem splitWord_injective : Function.Injective splitWord := by
  intro w v h
  obtain ⟨halg, hshape, hdseed, hrsvd⟩ := CommandFields.mk.inj h
  apply BitVec.eq_of_getLsbD_eq
  intro k hk
  by_cases hlow : k < 4
  · simpa [BitVec.getLsbD_extractLsb', hlow] using congrArg (BitVec.getLsbD · k) halg
  · by_cases hhigh : 6 ≤ k
    · have hbit := congrArg (BitVec.getLsbD · (k - 6)) hrsvd
      simpa only [BitVec.getLsbD_extractLsb', Nat.add_sub_cancel' hhigh, show k - 6 < 26 by omega, decide_true,
        Bool.true_and] using hbit
    · obtain rfl | rfl : k = 4 ∨ k = 5 := by omega
      · exact hshape
      · exact hdseed

/-! The decoder -/

/-- A set reserved bit is rejected first (30_encoding.md R84). -/
theorem decode_of_reservedBits (w : Word) (h : w.extractLsb' 6 26 ≠ 0#26) : decode w = .reject .reservedBits :=
  if_neg (by simpa [CommandFields.rsvdZero, splitWord] using h)

/-- With no reserved bit set, the ALG code decides (30_encoding.md R84, R86). -/
theorem decode_of_rsvdZero (w : Word) (h : w.extractLsb' 6 26 = 0#26) :
    decode w = (algOfCode (w.extractLsb' 0 4)).elim (.reject .reservedAlg)
      fun a => .ok (instrOf a (shapeOf (w.getLsbD 4)) (w.getLsbD 5)) := by
  have hzero : (splitWord w).rsvdZero = true := by simpa [CommandFields.rsvdZero, splitWord] using h
  rw [decode, if_pos hzero]
  simp only [splitWord]
  cases algOfCode (w.extractLsb' 0 4) <;> rfl

/-- A word decodes to a command exactly when it has the command's fields. -/
theorem decode_eq_ok_iff_splitWord (w : Word) (i : Instr) :
    decode w = .ok i ↔
      splitWord w = { alg := i.alg.code, shape := i.shape.bit, dseed := i.dseed, rsvd := 0#26 } := by
  simp only [splitWord, CommandFields.mk.injEq]
  by_cases hrsvd : w.extractLsb' 6 26 = 0#26
  · rw [decode_of_rsvdZero w hrsvd, ← algOfCode_eq_some_iff, ← shapeOf_eq_iff]
    cases algOfCode (w.extractLsb' 0 4) <;> simp [hrsvd, instrOf_eq_iff]
  · simp [decode_of_reservedBits w hrsvd, hrsvd]

/-- A word decodes to a command exactly when it is the command's encoding. -/
theorem decode_eq_ok_iff (w : Word) (i : Instr) : decode w = .ok i ↔ w = encode i := by
  rw [decode_eq_ok_iff_splitWord, ← splitWord_encode, splitWord_injective.eq_iff]

/-- An encoded command decodes to itself. -/
@[simp] theorem decode_encode (i : Instr) : decode (encode i) = .ok i := (decode_eq_ok_iff _ i).2 rfl

/-- A word is rejected exactly when it is illegal (30_encoding.md R84). -/
theorem decode_eq_reject_iff (w : Word) : (∃ r, decode w = .reject r) ↔ Claims.Illegal w := by
  rw [Claims.Illegal, ← algOfCode_eq_none_iff]
  by_cases hrsvd : w.extractLsb' 6 26 = 0#26
  · rw [decode_of_rsvdZero w hrsvd]
    cases algOfCode (w.extractLsb' 0 4) <;> simp [hrsvd]
  · simp [decode_of_reservedBits w hrsvd, hrsvd]

/-! The opcode map -/

/-- The match column is the encoding without its DSEED bit (30_encoding.md R86). -/
theorem encode_and_mask (i : Instr) : encode i &&& 0xFFFFFFDF#32 = Claims.matchWord i := by
  cases i with | _ d => cases d <;> rfl

/-- The mask leaves out bit 5 alone, so it and bit 5 are the whole word. -/
theorem eq_of_and_mask_eq {w v : Word} (hmask : w &&& 0xFFFFFFDF#32 = v &&& 0xFFFFFFDF#32)
    (hbit : w.getLsbD 5 = v.getLsbD 5) : w = v := by
  have hset : ∀ k < 32, k ≠ 5 → (0xFFFFFFDF#32 : Word).getLsbD k = true := by decide
  apply BitVec.eq_of_getLsbD_eq
  intro k hk
  by_cases h5 : k = 5
  · rw [h5, hbit]
  · simpa only [BitVec.getLsbD_and, hset k hk h5, Bool.and_true] using congrArg (BitVec.getLsbD · k) hmask

/-- A word is a command's encoding exactly when it is in the command's row and has its DSEED bit (30_encoding.md R86). -/
theorem eq_encode_iff_matchWord (w : Word) (i : Instr) :
    w = encode i ↔ w &&& 0xFFFFFFDF#32 = Claims.matchWord i ∧ w.getLsbD 5 = i.dseed := by
  have hbit : (encode i).getLsbD 5 = i.dseed := encode_bit i 5
  rw [← encode_and_mask, ← hbit]
  exact ⟨fun h => h ▸ ⟨rfl, rfl⟩, fun ⟨hmask, h5⟩ => eq_of_and_mask_eq hmask h5⟩

/-! The obligations -/

/-- Settles O2: the decoder asks for a command's fields, the encoder puts them in place, and they are the whole word. -/
theorem decodeInvertsEncode : Obligations.DecodeInvertsEncode :=
  fun i _ w => decode_eq_ok_iff w i

/-- Settles O1: the words that decode to a command are its encoding, which is the one word of its row with its DSEED bit. -/
theorem opcodeMapDecidesEveryWord : Obligations.OpcodeMapDecidesEveryWord :=
  ⟨fun w i => (decode_eq_ok_iff w i).trans (eq_encode_iff_matchWord w i), decode_eq_reject_iff⟩

/-- Settles O3: the legal words are encodings, and the decoder run on the others rejects them. -/
theorem specWordsDecode : Obligations.SpecWordsDecode :=
  ⟨decode_encode (.crc32Span false), decode_encode (.crc32Span true), decode_encode (.djb2Text false),
    decode_encode (.djb2aSpan true), decode_encode (.fnv1a64Span true), decode_encode (.murmur2aText false),
    decode_encode (.murmur2_64Text false), decode_encode (.murmur3Text true), rfl, rfl, rfl, rfl⟩

end Sys2Proof.Machine
end

section
/-! SUPPORT. The host's statements (30_encoding.md R89, R90): what its turn does with a memory event and with a register write,
and so with the writes of each pseudo-instruction. -/

namespace Sys2Proof.Machine

/-- A memory event inside the address space is one write of its bytes (30_encoding.md R89). -/
theorem State.hostStep_of_memb (s : State) (a : Word) (b : List Byte) (rest : List HostOp)
    (hs : s.script = .memb a b :: rest) (hle : a.toNat + b.length ≤ addressSpace) :
    s.hostStep = .next { s.writeMem a.toNat b with script := rest } := by
  rw [State.hostStep, hs]
  exact if_pos hle

/-- `WR` at an aligned offset is a write the port takes (30_encoding.md R89, 20_memory.md R70). -/
theorem State.hostStep_of_wr (s : State) (o : BitVec 8) (v : Word) (rest : List HostOp)
    (hs : s.script = wr o v :: rest) (halign : offsetAligned o = true) :
    s.hostStep = .next { s.writeReg o v with response := .ack, script := rest } := by
  have hwrite : s.hostStep = .next { s.hostWrite .w32 o v with script := rest } := by
    rw [State.hostStep, hs]
    rfl
  rw [hwrite, s.hostWrite_of_aligned o v halign]

/-- A run of host turns that begins with a `WR`. -/
theorem hostRun_of_wr (n : Nat) (s : State) (o : BitVec 8) (v : Word) (rest : List HostOp)
    (hs : s.script = wr o v :: rest) (halign : offsetAligned o = true) :
    Claims.hostRun (n + 1) s = Claims.hostRun n { s.writeReg o v with response := .ack, script := rest } := by
  rw [Claims.hostRun, s.hostStep_of_wr o v rest hs halign]

/-- The writes of SRC_ADDR and LENGTH, which HASHRUN and HASHRUN.D begin with, are two host turns that store them
(10_state.md R29, R30). -/
theorem hostRun_of_wr_span (n : Nat) (s : State) (addr len : Word) (rest : List HostOp)
    (hs : s.script = wr 0x18#8 addr :: wr 0x1C#8 len :: rest) :
    Claims.hostRun (n + 2) s =
      Claims.hostRun n { s with srcAddr := addr, length := len, response := .ack, script := rest } := by
  rw [hostRun_of_wr (n + 1) s _ addr _ hs rfl, hostRun_of_wr n _ 0x1C#8 len rest rfl rfl]
  rfl

/-- The writes of SEED_LO and SEED_HI are two host turns that store them (10_state.md R31, R32). -/
theorem hostRun_of_wr_seed (n : Nat) (s : State) (lo hi : Word) (rest : List HostOp)
    (hs : s.script = wr 0x20#8 lo :: wr 0x24#8 hi :: rest) :
    Claims.hostRun (n + 2) s =
      Claims.hostRun n { s with seedLo := lo, seedHi := hi, response := .ack, script := rest } := by
  rw [hostRun_of_wr (n + 1) s _ lo _ hs rfl, hostRun_of_wr n _ 0x24#8 hi rest rfl rfl]
  rfl

/-- A write to CMD is accepted when BUSY = 0 (40_command.md R100). -/
theorem State.writeCmd_of_idle (s : State) (w : Word) (h : s.busy = false) : s.writeCmd w = s.accept w := by
  rw [State.writeCmd, h]
  rfl

/-- `WR CMD` on an idle block is one host turn that accepts the word (40_command.md R100). -/
theorem hostRun_of_wr_cmd (s : State) (w : Word) (rest : List HostOp) (hs : s.script = wr 0x10#8 w :: rest)
    (hidle : s.busy = false) :
    Claims.hostRun 1 s = some { s.accept w with response := .ack, script := rest } := by
  rw [hostRun_of_wr 0 s _ w rest hs rfl, State.writeReg_cmd, s.writeCmd_of_idle w hidle]
  rfl

/-- The writes of HASHRUN on an idle block store the operands and have the command accepted (30_encoding.md R90). -/
theorem hostRun_hashrun (s : State) (i : Instr) (addr len : Word) (seed : DWord) (rest : List HostOp)
    (hs : s.script = hashrun i addr len seed ++ rest) (hidle : s.busy = false) :
    let stored := { s with
      srcAddr := addr, length := len, seedLo := seed.extractLsb' 0 32, seedHi := seed.extractLsb' 32 32 }
    Claims.hostRun 5 s =
      some { stored.accept (encode i) with response := .ack, script := .poll 0x14#8 1#32 0#32 :: rest } := by
  rw [hostRun_of_wr_span 3 s addr len _ hs, hostRun_of_wr_seed 1 _ _ _ _ rfl]
  exact hostRun_of_wr_cmd _ (encode i) _ rfl hidle

/-- The writes of HASHRUN.D on an idle block store the address and the length and have the command accepted with DSEED set
(30_encoding.md R90). -/
theorem hostRun_hashrunD (s : State) (i : Instr) (addr len : Word) (rest : List HostOp)
    (hs : s.script = hashrunD i addr len ++ rest) (hidle : s.busy = false) :
    let stored := { s with srcAddr := addr, length := len }
    Claims.hostRun 3 s = some { stored.accept (encode (withDefaultSeed i)) with
      response := .ack, script := .poll 0x14#8 1#32 0#32 :: rest } := by
  rw [hostRun_of_wr_span 1 s addr len _ hs]
  exact hostRun_of_wr_cmd _ (encode (withDefaultSeed i)) _ rfl hidle

/-- The halves of a 64-bit seed join to the seed (40_command.md R100). -/
theorem seed_halves (seed : DWord) : seed.extractLsb' 32 32 ++ seed.extractLsb' 0 32 = seed := by
  rw [BitVec.extractLsb'_append_extractLsb'_eq_extractLsb' (by decide)]
  exact BitVec.extractLsb'_eq_self

/-- CLRST's word clears every W1C bit, and ERRCODE with ERR (10_state.md R28). -/
theorem writeStatus_clrst (s : State) :
    s.writeStatus 0x16#32 = { s with done := false, err := false, errcode := .none, drop := false } := by
  simp [State.writeStatus]

/-- SRST's word is a soft reset and clears IE (10_state.md R26). -/
theorem writeCtrl_srst (s : State) : s.writeCtrl 0x02#32 = { s.softReset with ie := false } := rfl

/-! The obligations -/

/-- Settles O46: the event writes the memory alone, and no register shows the memory or what is remembered of it. -/
theorem hostMemoryWriteIsSeen : Obligations.HostMemoryWriteIsSeen := by
  intro s a b rest hs hle
  exact ⟨_, s.hostStep_of_memb a b rest hs hle, rfl, Memory.read_writeAll b s.mem a.toNat, fun _ => rfl⟩

/-- Settles O47: the writes before CMD store the operands, and the write to CMD, on a block still idle, latches them. -/
theorem hashrunLaunchesItsCommand : Obligations.HashrunLaunchesItsCommand := by
  refine fun s i addr len seed rest hidle => ⟨fun hs => ?_, fun hs => ?_⟩
  · have hseed := congrArg (Lat.mk (encode i) addr len) (seed_halves seed)
    exact ⟨_, hostRun_hashrun s i addr len seed rest hs hidle, rfl, rfl, hseed, decode_encode i⟩
  · exact ⟨_, hostRun_hashrunD s i addr len rest hs hidle, rfl, rfl, rfl, rfl, rfl, rfl,
      decode_encode (withDefaultSeed i)⟩

/-- Settles O48: CLRST is a write to STATUS and SRST one to CTRL, each with the word that does it. -/
theorem clrstAndSrstActOnStatus : Obligations.ClrstAndSrstActOnStatus := by
  refine fun s rest => ⟨fun hs => ⟨_, s.hostStep_of_wr _ _ rest hs rfl, rfl, ?_⟩,
    fun hs => ⟨_, s.hostStep_of_wr _ _ rest hs rfl, rfl, ?_⟩⟩
  · rw [State.writeReg_status, writeStatus_clrst]
    exact ⟨rfl, rfl, rfl, rfl, rfl, rfl, rfl, rfl⟩
  · rw [State.writeReg_ctrl, writeCtrl_srst]
    exact ⟨rfl, rfl, rfl, rfl, rfl, rfl, rfl, rfl, rfl, rfl⟩

end Sys2Proof.Machine
end

section
/-! SUPPORT. The life of a command outside its passes: a write to CMD (40_command.md R100, R101), the step that runs the
latched word (R102, R108), the two completions (R110 to R112), and the operands that stay latched meanwhile (R109). -/

namespace Sys2Proof.Machine

/-! The write to CMD -/

/-- A write to CMD is dropped when BUSY = 1 (40_command.md R101). -/
theorem State.writeCmd_of_busy (s : State) (w : Word) (h : s.busy = true) : s.writeCmd w = s.dropCommand := by
  rw [State.writeCmd, h]
  rfl

/-- Settles O25: a block that is not busy accepts the word, and acceptance writes the fields named and no other. -/
theorem acceptanceLatchesTheOperands : Obligations.AcceptanceLatchesTheOperands := by
  intro s w hidle
  rw [State.writeReg_cmd, s.writeCmd_of_idle w hidle]
  exact ⟨rfl, rfl, rfl, rfl, rfl, rfl, rfl, rfl, rfl, rfl, rfl, rfl, rfl, rfl, rfl, rfl, rfl, rfl, rfl, rfl, rfl, rfl, rfl,
    rfl, rfl, rfl, rfl⟩

/-- Settles O26: a busy block drops the word. -/
theorem busyCmdWriteIsDropped : Obligations.BusyCmdWriteIsDropped :=
  fun s w hbusy => s.writeCmd_of_busy w hbusy

/-! The step that runs a command -/

/-- With the reset input not asserted, a step is the event of the agent whose turn the schedule names. -/
theorem step_of_turn (s : State) (a : Config.Turn) (rest : List Config.Turn) (hline : s.resetLine = false)
    (hs : s.sched = a :: rest) : step s = State.agentStep a (s.withSchedule rest s.turns) := by
  have hturn : s.nextTurn = (a, s.withSchedule rest s.turns) := by
    unfold State.nextTurn
    rw [hs]
  rw [step, hline, hturn]
  rfl

/-- The turn `command` runs the command that a held word decodes to (10_state.md R42). -/
theorem State.commandStep_of_ok (s : State) (i : Instr) (hp : s.phase = .held) (hd : decode s.lat.word = .ok i) :
    s.commandStep = exec i s := by
  rw [State.commandStep, hp, hd]

/-- The turn `command` ends a held word that the decoder rejects in ILLEGAL (40_command.md R108). -/
theorem State.commandStep_of_reject (s : State) (r : Reject) (hp : s.phase = .held)
    (hd : decode s.lat.word = .reject r) : s.commandStep = .next (s.cmdError .illegal 0#32) := by
  rw [State.commandStep, hp, hd]

/-- From HELD an engine step is the first one of the command (40_command.md R102). -/
theorem State.engineStep_of_phase_held (s : State) (hp : s.phase = .held) : s.engineStep = s.startStep := by
  rw [State.engineStep, hp]

/-- The first engine step ends a held word that the decoder rejects in ILLEGAL (40_command.md R108). -/
theorem State.engineStep_of_reject (s : State) (r : Reject) (hp : s.phase = .held)
    (hd : decode s.lat.word = .reject r) : s.engineStep = s.cmdError .illegal 0#32 := by
  rw [s.engineStep_of_phase_held hp, State.startStep, hd]

/-- The first engine step leaves a command that is held as it is (40_command.md R102). -/
theorem State.engineStep_of_holds (s : State) (i : Instr) (hp : s.phase = .held) (hd : decode s.lat.word = .ok i)
    (hh : s.holds i = true) : s.engineStep = s := by
  rw [s.engineStep_of_phase_held hp, State.startStep, hd]
  exact if_pos hh

/-- The first engine step of a command that is not held starts its first pass (40_command.md R102, R106). -/
theorem State.engineStep_of_held (s : State) (i : Instr) (hp : s.phase = .held) (hd : decode s.lat.word = .ok i)
    (hh : s.holds i = false) :
    s.engineStep = if twoPass i then { s.fresh with phase := .scan i, cursor := 0 }
      else s.fresh.beginHash i s.lat.len.toNat := by
  rw [s.engineStep_of_phase_held hp, State.startStep, hd]
  dsimp only
  rw [hh]
  rfl

/-- Settles O4: the turn `command` of a held word is the run of the command it decodes to. -/
theorem stepRunsTheLatchedCommand : Obligations.StepRunsTheLatchedCommand := by
  intro s i rest hline hs hp hd
  rw [step_of_turn s .command rest hline hs]
  exact (s.withSchedule rest s.turns).commandStep_of_ok i hp hd

/-- A table word that the decoder reads as a command is the command's encoding. -/
theorem tableWord_eq_encode (nbits w : Nat) (i : Instr) (h : decodeTableWord nbits w = some i) :
    BitVec.ofNat 32 (w % 2 ^ nbits) = encode i := by
  rw [← decode_eq_ok_iff]
  rw [decodeTableWord, decodeBytes_lanes] at h
  cases hd : decode (BitVec.ofNat 32 (w % 2 ^ nbits)) with
  | ok j => rw [hd] at h; cases h; rfl
  | reject r => rw [hd] at h; cases h

/-- Settles O5: the placed word is the command's encoding, held, with the turn `command` next. -/
theorem fetchedWordRunsNext : Obligations.FetchedWordRunsNext := by
  intro s nbits w i h
  have hstep : step (s.withFetchWord nbits w) = { s.accept (encode i) with resetLine := false }.commandStep := by
    rw [step_of_turn _ .command s.sched rfl rfl, State.withFetchWord, tableWord_eq_encode nbits w i h]
    rfl
  rw [hstep]
  exact State.commandStep_of_ok _ i rfl (decode_encode i)

/-- Settles O6: acceptance takes every word, and the decoder rejects an illegal one. -/
theorem illegalWordEndsInIllegal : Obligations.IllegalWordEndsInIllegal := by
  intro s w hillegal hidle
  obtain ⟨r, hr⟩ := (decode_eq_reject_iff w).2 hillegal
  exact ⟨s.writeCmd_of_idle w hidle, rfl, (s.accept w).engineStep_of_reject r rfl hr,
    (s.accept w).commandStep_of_reject r rfl hr⟩

/-- Only CRC32 is held, in a build with the table, until TABLE_READY = 1 (40_command.md R102). -/
theorem holds_iff (s : State) (i : Instr) :
    s.holds i = true ↔ i.alg = .crc32 ∧ s.build.crcTableEn = true ∧ s.tableReady = false := by
  simp [State.holds, and_assoc]

/-- The MurMur-family TEXT commands scan first (40_command.md R106). -/
theorem twoPass_iff (i : Instr) :
    twoPass i = true ↔ i.shape = .text ∧ i.alg ∈ [Alg.murmur2, Alg.murmur2a, Alg.murmur2_64, Alg.murmur3] := by
  cases i <;> simp [twoPass, Instr.shape, Instr.alg, Alg.isMurmur]

/-- Settles O24: a command that is held stays as it is, and another starts a scan or a hash pass at cursor 0. -/
theorem onlyCrc32IsHeld : Obligations.OnlyCrc32IsHeld := by
  intro i s hp hd
  refine ⟨fun ha hen hr => s.engineStep_of_holds i hp hd ((holds_iff s i).2 ⟨ha, hen, hr⟩), fun hor => ?_⟩
  have hh : s.holds i = false := by
    rw [← Bool.not_eq_true, holds_iff]
    rintro ⟨ha, hen, hr⟩
    simp [ha, hen, hr] at hor
  rw [s.engineStep_of_held i hp hd hh]
  simp only [← twoPass_iff]
  split <;> exact ⟨rfl, rfl⟩

/-! The completions -/

/-- Settles O36: a 64-bit result is its halves joined, and COUNT holds a number below 2^32 as it is. -/
theorem successCompletion : Obligations.SuccessCompletion := by
  intro s n h k hn
  have hcount : (BitVec.ofNat 32 n).toNat = n := (BitVec.toNat_ofNat n 32).trans (Nat.mod_eq_of_lt hn)
  exact ⟨⟨rfl, rfl, hcount, rfl, rfl, rfl, rfl, rfl, rfl⟩, seed_halves k, hcount, rfl, rfl, rfl, rfl, rfl, rfl⟩

/-- Settles O37: the error completion writes the fields named and no other, and STATUS shows the code's number. -/
theorem errorCompletion : Obligations.ErrorCompletion := by
  intro s c a
  obtain ⟨_, hcode, _⟩ := (s.cmdError c a).statusWord_fields
  refine ⟨rfl, rfl, rfl, rfl, rfl, rfl, rfl, rfl, rfl, rfl, rfl, rfl, rfl, rfl, rfl, rfl, rfl, hcode.trans ?_⟩
  cases c <;> rfl

/-! The latched operands of a running command -/

/-- `t` has the latched operands and CMD of `s`. -/
def SameCommand (s t : State) : Prop := t.lat = s.lat ∧ t.cmd = s.cmd

/-- A register write while BUSY = 1 leaves the latched operands and CMD (40_command.md R109). -/
theorem writeReg_sameCommand (s : State) (o : BitVec 8) (v : Word) (hb : s.busy = true) :
    SameCommand s (s.writeReg o v) := by
  obtain h | ⟨_, h⟩ | ⟨_, h⟩ | ⟨_, h⟩ | ⟨_, h⟩ | ⟨_, h⟩ | ⟨_, h⟩ | ⟨_, h⟩ | ⟨_, h⟩ := writeReg_cases s o v <;> rw [h]
  case inr.inl =>
    unfold State.writeCtrl
    split <;> exact ⟨rfl, rfl⟩
  case inr.inr.inl =>
    rw [s.writeCmd_of_busy v hb]
    exact ⟨rfl, rfl⟩
  all_goals exact ⟨rfl, rfl⟩

/-- A host event while BUSY = 1 leaves the latched operands and CMD. -/
theorem hostStep_sameCommand (s t : State) (hb : s.busy = true) (h : s.hostStep = .next t) : SameCommand s t := by
  obtain rfl | ⟨o, v, _, _, rfl⟩ | ⟨_, _, rfl⟩ | ⟨_, _, _, _, _, rfl⟩ | ⟨_, _, _, rfl⟩ | ⟨_, _, rfl⟩ :=
    hostStep_cases s t h
  case inr.inl => exact writeReg_sameCommand s o v hb
  all_goals exact ⟨rfl, rfl⟩

/-- An engine step leaves the latched operands and CMD, a completion included. -/
theorem engineStep_sameCommand (s : State) : SameCommand s s.engineStep := by
  obtain h | ⟨_, ⟨_, _, _, h⟩ | ⟨_, _, h⟩ | ⟨_, _, _, _, h⟩ | ⟨_, _, _, _, h⟩ | ⟨_, _, _, _, h⟩ | ⟨_, _, _, h⟩ |
    ⟨_, _, _, _, h⟩⟩ := engineStep_cases s <;> rw [h] <;> exact ⟨rfl, rfl⟩

/-- A command's run leaves the latched operands and CMD. -/
theorem runCommand_sameCommand (i : Instr) (s : State) : SameCommand s (runCommand i s) := by
  have hstart : SameCommand s (s.started i.alg) := ⟨s.started_lat _, s.started_cmd _⟩
  obtain ⟨_, _, h⟩ | ⟨_, _, _, _, h⟩ := runCommand_cases i s <;> rw [h] <;> exact hstart

/-- A turn `command` leaves the latched operands and CMD. -/
theorem commandStep_sameCommand (s t : State) (h : s.commandStep = .next t) : SameCommand s t := by
  obtain ⟨i, _, _, e⟩ | ⟨_, _, _, e⟩ | ⟨_, e⟩ := commandStep_cases s <;> rw [e] at h <;> cases h
  · exact runCommand_sameCommand i s
  · exact ⟨rfl, rfl⟩
  · exact engineStep_sameCommand s

/-- The event of every agent leaves the latched operands and CMD of a running command. -/
theorem agentStep_sameCommand (a : Config.Turn) (s t : State) (hb : s.busy = true)
    (h : State.agentStep a s = .next t) : SameCommand s t := by
  cases a with
  | host => exact hostStep_sameCommand s t hb h
  | engine => cases h; exact engineStep_sameCommand s
  | tableGen => cases h; exact ⟨s.tableStep_lat, s.tableStep_cmd⟩
  | command => exact commandStep_sameCommand s t h

/-- Settles O56: the host's write to CMD is dropped, and no other event but a hardware reset writes these fields. -/
theorem latchedOperandsAreFixedWhileBusy : Obligations.LatchedOperandsAreFixedWhileBusy := by
  intro s t hb hline hs
  obtain ⟨hreset, _⟩ | ⟨_, hagent⟩ := step_cases s t hs
  · rw [hline] at hreset; cases hreset
  · obtain ⟨l, n, e⟩ := nextTurn_frame s
    rw [e] at hagent
    exact agentStep_sameCommand _ (s.withSchedule l n) t hb hagent

end Sys2Proof.Machine
end

section
/-! SUPPORT. Each shape's command from its first read: the bytes its pass goes over (40_command.md R104, R105), the first
thing that ends it after them (60_exceptions.md R205), and its success on an input in memory (R107, R111, R115). -/

namespace Sys2Proof.Machine

/-! What a command runs in each shape -/

/-- A SPAN command runs its shape (40_command.md R104). -/
theorem run_of_span (s : State) (i : Instr) (h : i.shape = .span) : s.run i = s.spanCommand (s.digest i.alg i.dseed) := by
  rw [State.run, State.replay, h, digest_fresh]
  rfl

/-- A TEXT command runs its shape, in two passes in the MurMur family and in one otherwise (40_command.md R105, R106). -/
theorem run_of_text (s : State) (i : Instr) (h : i.shape = .text) :
    s.run i = if Alg.isMurmur i.alg then s.measuredTextCommand (s.digest i.alg i.dseed)
      else s.textCommand (s.digest i.alg i.dseed) := by
  rw [State.run, State.replay, h, digest_fresh]
  rfl

/-- A span whose gathering ends in an error ends in it. -/
theorem run_of_spanError (s : State) (i : Instr) (c : ErrCode) (a : Word) (h : i.shape = .span)
    (hm : s.fresh.spanMeets = none) (hg : gatherSpan false s.fresh s.fresh.lat.len.toNat = (.error c a, s.fresh)) :
    s.run i = s.cmdError c a := by
  rw [run_of_span s i h, State.spanCommand, State.spanReplay, hm]
  dsimp only
  rw [State.spanRun, hg]
  rfl

/-- A text whose scan ends in an error ends in it, in one pass or two. -/
theorem run_of_scanError (s : State) (i : Instr) (c : ErrCode) (a : Word) (h : i.shape = .text)
    (hm : s.fresh.textMeets = none) (hg : gatherText false s.fresh = (.error c a, s.fresh)) :
    s.run i = s.cmdError c a := by
  rw [run_of_text s i h]
  split
  · rw [State.measuredTextCommand, State.measuredTextReplay, hm]
    dsimp only
    rw [State.measuredTextRun, hg]
    rfl
  · rw [State.textCommand, State.textReplay, hm]
    dsimp only
    rw [State.textRun, hg]
    rfl

/-- A span that comes to a side effect before it has drawn anything runs on free bytes (20_memory.md R63). -/
theorem run_of_spanMeets (s : State) (i : Instr) (h : i.shape = .span) (hm : s.fresh.spanMeets = some s.draws) :
    s.run i = s.fresh.replayFree i := by
  rw [run_of_span s i h, State.spanCommand, State.spanReplay, hm, State.replayFree, h, digest_fresh]
  rfl

/-- A text that comes to a side effect before it has drawn anything runs on free bytes (20_memory.md R63). -/
theorem run_of_textMeets (s : State) (i : Instr) (h : i.shape = .text) (hm : s.fresh.textMeets = some s.draws) :
    s.run i = s.fresh.replayFree i := by
  rw [run_of_text s i h, State.replayFree, h, digest_fresh, State.measuredTextCommand, State.measuredTextReplay,
    State.textCommand, State.textReplay, hm]
  rfl

/-- A SPAN command whose input is in memory and steady completes with its result (40_command.md R111). -/
theorem run_of_spanInput (s : State) (i : Instr) (b : List Byte) (h : i.shape = .span) (hb : SpanInput s b) :
    s.run i = s.complete (s.digest i.alg i.dseed b) b.length := by
  rw [run_of_span s i h, spanCommand_of_input s _ b hb]

/-- A TEXT command whose text is in memory and steady completes with its result (40_command.md R111). -/
theorem run_of_textInput (s : State) (i : Instr) (b : List Byte) (h : i.shape = .text) (hb : TextInput s b) :
    s.run i = s.complete (s.digest i.alg i.dseed b) b.length := by
  rw [run_of_text s i h, measuredTextCommand_of_input s _ b hb, textCommand_of_input s _ b hb, ite_self]

/-! The bytes a pass goes over -/

/-- A pass from the latched address goes over the bytes `b`: in memory, steady, and inside the latched length and the address
space. -/
structure Passes (s : State) (b : List Byte) : Prop where
  holds : HoldsAt s.mem s.lat.src.toNat b
  steady : Steady s s.lat.src.toNat (s.lat.src.toNat + b.length)
  limit : b.length ≤ s.lat.len.toNat
  space : s.lat.src.toNat + b.length ≤ addressSpace

/-- Waiting for the table leaves what a pass goes over. -/
theorem passes_started (s : State) (a : Alg) (b : List Byte) (h : Passes s b) : Passes (s.started a) b where
  holds := by simpa using h.holds
  steady := by simpa [Steady, State.sideEffectIn] using h.steady
  limit := by simpa using h.limit
  space := by simpa using h.space

/-- The bytes after the first stand from the next address on. -/
theorem HoldsAt.tail {m : Memory} {a : Nat} {v : Byte} {b : List Byte} (h : HoldsAt m a (v :: b)) :
    HoldsAt m (a + 1) b := fun k hk => by
  rw [Nat.add_assoc, Nat.add_comm 1 k]
  exact h (k + 1) (Nat.succ_lt_succ hk)

/-- Over steady bytes `b`, a span pass and its look for a side effect come to the address after them. -/
theorem readSpan_over (s : State) (b : List Byte) (n a : Nat) (hp : s.past = []) (hm : HoldsAt s.mem a b)
    (hs : Steady s a (a + b.length)) :
    readSpan false (b.length + n) a s =
      (b.foldr Gathered.cons (readSpan false n (a + b.length) s).1, (readSpan false n (a + b.length) s).2) ∧
    spanSideEffect (b.length + n) a s = spanSideEffect n (a + b.length) s := by
  induction b generalizing a with
  | nil => simp
  | cons v b ih =>
    simp only [List.length_cons] at hs ⊢
    have hread := memRead_steady s a v hp (hm 0 (Nat.succ_pos _)) (hs.1 a (Nat.le_refl a) (by omega))
    have hquiet := sideEffectAt_of_steady s _ _ a hs.2 (Nat.le_refl a) (by omega)
    obtain ⟨h1, h2⟩ := ih (a + 1) hm.tail (hs.mono (by omega) (by omega))
    rw [show b.length + 1 + n = b.length + n + 1 by omega, show a + (b.length + 1) = a + 1 + b.length by omega]
    constructor
    · simp only [readSpan, hread, h1, List.foldr_cons]
    · simp only [spanSideEffect, hquiet, Bool.false_eq_true, if_false, hread, h2]

section
variable {s : State} {b : List Byte} (hb : Passes s b)
include hb

/-- A span inside the address space gathers the bytes its pass goes over and then the rest, and comes to its first side
effect in the rest. -/
theorem Passes.span (htop : s.lat.src.toNat + s.lat.len.toNat ≤ addressSpace) :
    let n := s.lat.len.toNat - b.length
    let rest := readSpan false n (s.lat.src.toNat + b.length) s.fresh
    gatherSpan false s.fresh s.lat.len.toNat = (b.foldr Gathered.cons rest.1, rest.2) ∧
      s.fresh.spanMeets = spanSideEffect n (s.lat.src.toNat + b.length) s.fresh := by
  intro n rest
  obtain ⟨hread, hlook⟩ := readSpan_over s.fresh b n s.lat.src.toNat rfl hb.holds hb.steady
  rw [Nat.add_sub_cancel' hb.limit] at hread hlook
  exact ⟨(if_neg fun h => Nat.not_lt.2 htop h.2).trans hread, (if_neg (Nat.not_lt.2 htop)).trans hlook⟩

/-- A scan goes over nonzero bytes and then the rest, and comes to its first side effect in the rest. -/
theorem Passes.scan (hz : ∀ v ∈ b, v ≠ 0#8) :
    let k := s.lat.len.toNat - b.length
    let rest := scanText false s.lat.src k b.length s.fresh
    gatherText false s.fresh = (b.foldr Gathered.cons rest.1, rest.2) ∧
      s.fresh.textMeets = textSideEffect s.lat.src k b.length s.fresh := by
  have h := scanText_over s.fresh s.lat.src b (s.lat.len.toNat - b.length) 0 rfl hz hb.space hb.holds hb.steady
  rwa [Nat.add_sub_cancel' hb.limit, Nat.zero_add] at h

/-- A span whose next address fails ends in BUS at that address (40_command.md R104). -/
theorem Passes.run_spanBus (i : Instr) (hspan : i.shape = .span) (hlt : b.length < s.lat.len.toNat)
    (htop : s.lat.src.toNat + s.lat.len.toNat ≤ addressSpace)
    (hquiet : s.sideEffectAt (s.lat.src.toNat + b.length) = false)
    (hnone : s.mem.read (s.lat.src.toNat + b.length) = none) :
    s.run i = s.cmdError .bus (BitVec.ofNat 32 (s.lat.src.toNat + b.length)) := by
  obtain ⟨n, hn⟩ := Nat.exists_eq_add_one_of_ne_zero (Nat.sub_ne_zero_of_lt hlt)
  obtain ⟨hgather, hmeets⟩ := hb.span htop
  have hbus := memRead_busError s.fresh _ false rfl hnone
  have hquiet' : s.fresh.sideEffectAt (s.lat.src.toNat + b.length) = false := hquiet
  refine run_of_spanError s i _ _ hspan (hmeets.trans ?_) (hgather.trans ?_)
  · simp [hn, spanSideEffect, hquiet', hbus]
  · simp [hn, readSpan, hbus, foldr_cons_error]

/-- A span whose next address has a side effect runs on free bytes from its first on (20_memory.md R63). -/
theorem Passes.run_spanMeets (i : Instr) (hspan : i.shape = .span) (hlt : b.length < s.lat.len.toNat)
    (htop : s.lat.src.toNat + s.lat.len.toNat ≤ addressSpace)
    (heffect : s.sideEffectAt (s.lat.src.toNat + b.length) = true) : s.run i = s.fresh.replayFree i := by
  obtain ⟨n, hn⟩ := Nat.exists_eq_add_one_of_ne_zero (Nat.sub_ne_zero_of_lt hlt)
  refine run_of_spanMeets s i hspan ((hb.span htop).2.trans ?_)
  rw [hn]
  exact if_pos heffect

/-- A text whose bytes reach the limit ends in NOTERM (40_command.md R105). -/
theorem Passes.run_noterm (i : Instr) (htext : i.shape = .text) (hz : ∀ v ∈ b, v ≠ 0#8)
    (hlen : b.length = s.lat.len.toNat) : s.run i = s.cmdError .noterm s.lat.src := by
  obtain ⟨hgather, hmeets⟩ := hb.scan hz
  rw [hlen, Nat.sub_self] at hgather hmeets
  exact run_of_scanError s i _ _ htext hmeets (hgather.trans (Prod.ext (foldr_cons_error ..) rfl))

/-- A text whose bytes reach the top of the address space below the limit ends in RANGE (40_command.md R105). -/
theorem Passes.run_textRange (i : Instr) (htext : i.shape = .text) (hz : ∀ v ∈ b, v ≠ 0#8)
    (hlt : b.length < s.lat.len.toNat) (htop : s.lat.src.toNat + b.length = addressSpace) :
    s.run i = s.cmdError .range s.lat.src := by
  obtain ⟨k, hk⟩ := Nat.exists_eq_add_one_of_ne_zero (Nat.sub_ne_zero_of_lt hlt)
  obtain ⟨hgather, hmeets⟩ := hb.scan hz
  refine run_of_scanError s i _ _ htext (hmeets.trans ?_) (hgather.trans ?_)
  · rw [hk]
    exact if_pos htop.ge
  · simp [hk, scanText, htop, foldr_cons_error]

/-- A text whose next address fails ends in BUS at that address (40_command.md R105). -/
theorem Passes.run_textBus (i : Instr) (htext : i.shape = .text) (hz : ∀ v ∈ b, v ≠ 0#8)
    (hlt : b.length < s.lat.len.toNat) (htop : s.lat.src.toNat + b.length < addressSpace)
    (hquiet : s.sideEffectAt (s.lat.src.toNat + b.length) = false)
    (hnone : s.mem.read (s.lat.src.toNat + b.length) = none) :
    s.run i = s.cmdError .bus (BitVec.ofNat 32 (s.lat.src.toNat + b.length)) := by
  obtain ⟨k, hk⟩ := Nat.exists_eq_add_one_of_ne_zero (Nat.sub_ne_zero_of_lt hlt)
  obtain ⟨hgather, hmeets⟩ := hb.scan hz
  have hbus := (scanRead_of_nil s.fresh _ false rfl).trans (memRead_busError s.fresh _ false rfl hnone)
  have hquiet' : s.fresh.sideEffectAt (s.lat.src.toNat + b.length) = false := hquiet
  refine run_of_scanError s i _ _ htext (hmeets.trans ?_) (hgather.trans ?_)
  · simp [hk, textSideEffect, htop.not_ge, hquiet', hbus]
  · simp [hk, scanText, htop.not_ge, hbus, foldr_cons_error]

/-- A text whose next address has a side effect runs on free bytes from its first on (20_memory.md R63). -/
theorem Passes.run_textMeets (i : Instr) (htext : i.shape = .text) (hz : ∀ v ∈ b, v ≠ 0#8)
    (hlt : b.length < s.lat.len.toNat) (htop : s.lat.src.toNat + b.length < addressSpace)
    (heffect : s.sideEffectAt (s.lat.src.toNat + b.length) = true) : s.run i = s.fresh.replayFree i := by
  obtain ⟨k, hk⟩ := Nat.exists_eq_add_one_of_ne_zero (Nat.sub_ne_zero_of_lt hlt)
  refine run_of_textMeets s i htext ((hb.scan hz).2.trans ?_)
  rw [hk]
  exact (if_neg htop.not_ge).trans (if_pos heffect)

end

/-- Past the top of the address space a span of at least one byte ends in RANGE with no read (40_command.md R104). -/
theorem run_spanRange (s : State) (i : Instr) (hspan : i.shape = .span) (h0 : 0 < s.lat.len.toNat)
    (htop : addressSpace < s.lat.src.toNat + s.lat.len.toNat) : s.run i = s.cmdError .range s.lat.src :=
  run_of_spanError s i _ _ hspan (if_pos htop) (if_pos ⟨h0, htop⟩)

/-! The obligations -/

/-- `exec` answers with what the command runs to once it is started. -/
theorem exec_of_run {i : Instr} {s t : State} (h : (s.started i.alg).run i = t) : exec i s = .next t := by
  rw [exec_eq, runCommand, h]

/-- Settles O15: the range check comes before any read. -/
theorem spanPastTheTopEndsInRange : Obligations.SpanPastTheTopEndsInRange := by
  intro i s hspan h0 htop
  have h := run_spanRange (s.started i.alg) i hspan (by simpa using h0) (by simpa using htop)
  rw [State.started_lat] at h
  exact exec_of_run h

/-- Settles O16: the pass goes over the bytes before the failing address, and the failing address ends it. -/
theorem spanEndsInBusAtTheLowestFailingAddress : Obligations.SpanEndsInBusAtTheLowestFailingAddress := by
  intro i s b hspan hlt htop hm hs hnone
  have hb : Passes s b := ⟨hm, hs.mono (Nat.le_refl _) (by omega), hlt.le, (Nat.add_le_add_left hlt.le _).trans htop⟩
  have hquiet := sideEffectAt_of_steady s _ _ (s.lat.src.toNat + b.length) hs.2 (by omega) (by omega)
  have h := (passes_started s i.alg b hb).run_spanBus i hspan (by simpa using hlt) (by simpa using htop)
    (by simpa [State.sideEffectAt, State.sideEffectIn] using hquiet) (by simpa using hnone)
  rw [State.started_lat] at h
  exact exec_of_run h

/-- Settles O17: the scan goes over the nonzero bytes, and the limit, the top of the address space and the failing address
end it in this order. -/
theorem textScanEndsInItsFirstError : Obligations.TextScanEndsInItsFirstError := by
  intro i s b htext hz hm hs htop
  have hb (hle : b.length ≤ s.lat.len.toNat) : Passes (s.started i.alg) b :=
    passes_started s i.alg b ⟨hm, hs.mono (Nat.le_refl _) (by omega), hle, htop⟩
  have hquiet := sideEffectAt_of_steady s _ _ (s.lat.src.toNat + b.length) hs.2 (by omega) (by omega)
  refine ⟨fun hlen => ?_, fun hlt heq => ?_, fun hlt hlow hnone => ?_⟩
  · have h := (hb hlen.le).run_noterm i htext hz (by simpa using hlen)
    rw [State.started_lat] at h
    exact exec_of_run h
  · have h := (hb hlt.le).run_textRange i htext hz (by simpa using hlt) (by simpa using heq)
    rw [State.started_lat] at h
    exact exec_of_run h
  · have h := (hb hlt.le).run_textBus i htext hz (by simpa using hlt) (by simpa using hlow)
      (by simpa [State.sideEffectAt, State.sideEffectIn] using hquiet) (by simpa using hnone)
    rw [State.started_lat] at h
    exact exec_of_run h

@[simp] theorem instrOf_alg (a : Alg) (sh : Shape) (d : Bool) : (instrOf a sh d).alg = a :=
  ((instrOf_eq_iff a sh d _).1 rfl).1.symm

@[simp] theorem instrOf_shape (a : Alg) (sh : Shape) (d : Bool) : (instrOf a sh d).shape = sh :=
  ((instrOf_eq_iff a sh d _).1 rfl).2.1.symm

@[simp] theorem instrOf_dseed (a : Alg) (sh : Shape) (d : Bool) : (instrOf a sh d).dseed = d :=
  ((instrOf_eq_iff a sh d _).1 rfl).2.2.symm

/-- A SPAN command on an input in memory completes (40_command.md R107, R111). -/
theorem exec_of_spanInput (a : Alg) (d : Bool) (s : State) (b : List Byte) (hb : SpanInput s b) :
    exec (instrOf a .span d) s = .next ((s.started a).complete ((s.started a).digest a d b) b.length) := by
  have h := run_of_spanInput (s.started a) (instrOf a .span d) b (by simp) ((spanInput_started s a b).2 hb)
  simpa [exec_eq, runCommand] using h

/-- A TEXT command on a terminated text in memory completes (40_command.md R107, R111). -/
theorem exec_of_textInput (a : Alg) (d : Bool) (s : State) (b : List Byte) (hb : TextInput s b) :
    exec (instrOf a .text d) s = .next ((s.started a).complete ((s.started a).digest a d b) b.length) := by
  have h := run_of_textInput (s.started a) (instrOf a .text d) b (by simp) ((textInput_started s a b).2 hb)
  simpa [exec_eq, runCommand] using h

/-- What an algorithm computes depends on the build, the latched seed and, for CRC32 in a build with the table, on the
entries (40_command.md R114). -/
theorem digest_congr {s u : State} (a : Alg) (d : Bool) (hbuild : u.build = s.build) (hseed : u.lat.seed = s.lat.seed)
    (htable : a = .crc32 → s.build.crcTableEn = true → ∀ n, u.tableAt n = s.tableAt n) : u.digest a d = s.digest a d := by
  have h32 (w : Word) : u.seed32 w d = s.seed32 w d := by rw [State.seed32, State.seed32, hseed]
  have h64 (w : DWord) : u.seed64 w d = s.seed64 w d := by rw [State.seed64, State.seed64, hseed]
  funext b
  cases a
  case crc32 =>
    have hupd : u.crcUpd = s.crcUpd := by
      funext c v
      rw [State.crcUpd, State.crcUpd, hbuild]
      split
      · rw [funext (htable rfl ‹_›)]
      · rfl
    simp only [State.digest, State.digestCrc32, hupd, hbuild, h32]
  all_goals
    simp only [State.digest, State.digestDjb2, State.digestDjb2a, State.digestFnv1a, State.digestFnv1a64,
      State.digestMurmur2, State.digestMurmur2a, State.digestMurmur64, State.digestMurmur3, hbuild, h32, h64]

/-- Once its table is sound and ready, CRC32 looks up the entries of 41_crc32.md R130. -/
theorem tableAt_started (s : State) (h : TableSound s) (hen : s.build.crcTableEn = true) (n : BitVec 8) :
    (s.started .crc32).tableAt n = crcStep8 s.build.crcPoly (n.setWidth 32) := by
  obtain ⟨hsound, hready⟩ := awaitTable_sound s h
  exact (hsound.tableAt_of_ready (hready hen) n).trans (by rw [s.awaitTable_build])

/-- Settles O19: both commands complete on their input, and what they compute does not depend on the shape. -/
theorem textAndSpanGiveTheSameResult : Obligations.TextAndSpanGiveTheSameResult := by
  intro a d s u b hs hu hbuild _ hseed htext hspan
  have hdigest : (u.started a).digest a d = (s.started a).digest a d := by
    refine digest_congr a d (by simpa using hbuild) (by simpa using hseed) fun ha hen n => ?_
    subst ha
    rw [State.started_build] at hen
    rw [tableAt_started s hs hen, tableAt_started u hu (hbuild ▸ hen), hbuild]
  refine ⟨_, _, exec_of_textInput a d s b htext, exec_of_spanInput a d u b hspan, ?_⟩
  rw [hdigest]
  exact ⟨rfl, rfl, rfl, rfl, rfl, rfl⟩

end Sys2Proof.Machine
end

section
/-! SUPPORT. What a command leaves unchanged (40_command.md R111, R112), and what its end depends on: two states that answer
alike on the latched range give every pass the same bytes, and so every command the same end (R114, 20_memory.md R62). -/

namespace Sys2Proof.Machine

/-- Settles O20: a command's run is the wait of R102 and one completion, each with its own frame. -/
theorem commandFrame : Obligations.CommandFrame := by
  intro i s t h
  rw [exec_eq] at h
  cases h
  have htable (hne : i.alg ≠ .crc32) : (s.started i.alg).table = s.table ∧ (s.started i.alg).tgen = s.tgen := by
    rw [s.started_of_ne i.alg hne]
    exact ⟨rfl, rfl⟩
  obtain ⟨_, _, e⟩ | ⟨_, _, _, _, e⟩ := runCommand_cases i s <;> rw [e] <;> simpa using htable

/-! Reads of states that answer alike -/

/-- `s` and `u` have the same operands and platform, have drawn as many free values, remember the same writes and no past, and
answer alike on the latched range. -/
structure Alike (s u : State) : Prop where
  platform : u.platform = s.platform
  lat : u.lat = s.lat
  dirty : u.dirty = s.dirty
  draws : u.draws = s.draws
  past : s.past = [] ∧ u.past = []
  mem : ∀ a, s.lat.src.toNat ≤ a → a < s.lat.src.toNat + s.lat.len.toNat → u.mem.read a = s.mem.read a

/-- Two states that answer alike still do after as many draws. -/
theorem Alike.withDraws {s u : State} (h : Alike s u) (d : Nat) : Alike (s.withDraws d) (u.withDraws d) :=
  ⟨h.platform, h.lat, h.dirty, rfl, h.past, h.mem⟩

/-- Reads of `s` and of `u` that answer the same and draw as many free values, and do nothing else. -/
def SameReads {α : Type} (s u : State) (r r' : α × State) : Prop :=
  ∃ x d, r = (x, s.withDraws d) ∧ r' = (x, u.withDraws d)

/-- With no past, a read answers what the memory does, or a free byte for it. -/
theorem memRead_of_nil (s : State) (a : Nat) (f : Bool) (hp : s.past = []) :
    s.memRead a f = (s.mem.read a).elim (.busError, s.withDraws s.draws) fun v =>
      if f || s.dirty.contains a then (.byte (Config.freeByte s.draws), s.withDraws (s.draws + 1))
      else (.byte v, s.withDraws s.draws) := by
  rw [State.memRead, answer_of_nil s a hp]
  cases s.mem.read a <;> rfl

/-- What is done with reads that answer the same is the same. -/
theorem SameReads.map {α β : Type} {s u : State} {r r' : α × State} (h : SameReads s u r r') (g : α → β) :
    SameReads s u (g r.1, r.2) (g r'.1, r'.2) := by
  obtain ⟨x, d, rfl, rfl⟩ := h
  exact ⟨g x, d, rfl, rfl⟩

/-- Reads that do nothing answer the same in two states that have drawn as many free values. -/
theorem Alike.noRead {α : Type} {s u : State} (h : Alike s u) (x : α) : SameReads s u (x, s) (x, u) :=
  ⟨x, s.draws, rfl, by rw [← h.draws]; rfl⟩

/-- The same locations have side effects. -/
theorem Alike.sideEffectAt {s u : State} (h : Alike s u) (a : Nat) : u.sideEffectAt a = s.sideEffectAt a := by
  simp only [State.sideEffectAt, State.sideEffectIn, h.platform]

/-- A read in the latched range answers alike. -/
theorem Alike.memRead {s u : State} (h : Alike s u) (a : Nat) (f : Bool) (hlo : s.lat.src.toNat ≤ a)
    (hhi : a < s.lat.src.toNat + s.lat.len.toNat) : SameReads s u (s.memRead a f) (u.memRead a f) := by
  rw [memRead_of_nil s a f h.past.1, memRead_of_nil u a f h.past.2, h.mem a hlo hhi, h.dirty, h.draws]
  cases s.mem.read a with
  | none => exact ⟨_, _, rfl, rfl⟩
  | some v =>
    simp only [Option.elim_some]
    split
    · exact ⟨_, _, rfl, rfl⟩
    · exact ⟨_, _, rfl, rfl⟩

/-- A scan's read in the latched range answers alike. -/
theorem Alike.scanRead {s u : State} (h : Alike s u) (a : Nat) (f : Bool) (hlo : s.lat.src.toNat ≤ a)
    (hhi : a < s.lat.src.toNat + s.lat.len.toNat) : SameReads s u (s.scanRead a f) (u.scanRead a f) := by
  rw [scanRead_of_nil s a f h.past.1, scanRead_of_nil u a f h.past.2]
  exact h.memRead a f hlo hhi

/-- A span pass in the latched range gathers the same. -/
theorem Alike.readSpan {s u : State} (h : Alike s u) (f : Bool) (n a : Nat) (hlo : s.lat.src.toNat ≤ a)
    (hhi : a + n ≤ s.lat.src.toNat + s.lat.len.toNat) : SameReads s u (readSpan f n a s) (readSpan f n a u) := by
  induction n generalizing a s u with
  | zero => exact h.noRead _
  | succ n ih =>
    obtain ⟨x, d, hs, hu⟩ := h.memRead a f hlo (by omega)
    rw [Machine.readSpan, Machine.readSpan, hs, hu]
    cases x with
    | busError => exact ⟨_, _, rfl, rfl⟩
    | byte v =>
      have hhi' : a + 1 + n ≤ s.lat.src.toNat + s.lat.len.toNat := by omega
      exact (ih (h.withDraws d) (a + 1) (Nat.le_succ_of_le hlo) hhi').map (Gathered.cons v)

/-- The SPAN shape gathers the same, with any length up to the latched one. -/
theorem Alike.gatherSpan {s u : State} (h : Alike s u) (f : Bool) (n : Nat) (hn : n ≤ s.lat.len.toNat) :
    SameReads s u (gatherSpan f s n) (gatherSpan f u n) := by
  rw [Machine.gatherSpan, Machine.gatherSpan, h.lat]
  split
  · exact h.noRead _
  · exact h.readSpan f n _ (Nat.le_refl _) (Nat.add_le_add_left hn _)

/-- A scan up to the latched limit gathers the same. -/
theorem Alike.scanText {s u : State} (h : Alike s u) (f : Bool) (k i : Nat) (hk : i + k ≤ s.lat.len.toNat) :
    SameReads s u (scanText f s.lat.src k i s) (scanText f s.lat.src k i u) := by
  induction k generalizing i s u with
  | zero => exact h.noRead _
  | succ k ih =>
    rw [Machine.scanText, Machine.scanText]
    split
    · exact h.noRead _
    · obtain ⟨x, d, hs, hu⟩ := h.scanRead (s.lat.src.toNat + i) f (by omega) (by omega)
      rw [hs, hu]
      cases x with
      | busError => exact ⟨_, _, rfl, rfl⟩
      | byte v =>
        dsimp only
        split
        · exact ⟨_, _, rfl, rfl⟩
        · have hk' : i + 1 + k ≤ s.lat.len.toNat := by omega
          exact (ih (h.withDraws d) (i + 1) hk').map (Gathered.cons v)

/-- A scan gathers no more bytes than its limit lets it. -/
theorem scanText_length (f : Bool) (src : Word) (k i : Nat) (s : State) (b : List Byte)
    (h : (scanText f src k i s).1 = .bytes b) : b.length ≤ k := by
  induction k generalizing i s b with
  | zero => cases h
  | succ k ih =>
    unfold scanText at h
    split at h
    · cases h
    · split at h
      · cases h
      · rename_i v s1 _
        split at h
        · cases h
          exact Nat.zero_le _
        · cases hr : (scanText f src k (i + 1) s1).1 with
          | bytes c =>
            simp only [hr, Gathered.cons, Gathered.bytes.injEq] at h
            subst h
            exact Nat.succ_le_succ (ih (i + 1) s1 c hr)
          | error c a => simp [hr, Gathered.cons] at h

/-- The TEXT shape gathers the same. -/
theorem Alike.gatherText {s u : State} (h : Alike s u) (f : Bool) : SameReads s u (gatherText f s) (gatherText f u) := by
  rw [Machine.gatherText, Machine.gatherText, h.lat]
  exact h.scanText f _ 0 (Nat.zero_add _).le

/-- A span pass in the latched range comes to a side effect at the same count of free values. -/
theorem Alike.spanSideEffect {s u : State} (h : Alike s u) (n a : Nat) (hlo : s.lat.src.toNat ≤ a)
    (hhi : a + n ≤ s.lat.src.toNat + s.lat.len.toNat) : spanSideEffect n a u = spanSideEffect n a s := by
  induction n generalizing a s u with
  | zero => rfl
  | succ n ih =>
    rw [Machine.spanSideEffect, Machine.spanSideEffect, h.sideEffectAt a, h.draws]
    split
    · rfl
    · obtain ⟨x, d, hs, hu⟩ := h.memRead a false hlo (by omega)
      rw [hs, hu]
      cases x with
      | busError => rfl
      | byte v =>
        have hhi' : a + 1 + n ≤ s.lat.src.toNat + s.lat.len.toNat := by omega
        exact ih (h.withDraws d) (a + 1) (Nat.le_succ_of_le hlo) hhi'

/-- A scan up to the latched limit comes to a side effect at the same count of free values. -/
theorem Alike.textSideEffect {s u : State} (h : Alike s u) (k i : Nat) (hk : i + k ≤ s.lat.len.toNat) :
    textSideEffect s.lat.src k i u = textSideEffect s.lat.src k i s := by
  induction k generalizing i s u with
  | zero => rfl
  | succ k ih =>
    rw [Machine.textSideEffect, Machine.textSideEffect, h.sideEffectAt, h.draws]
    split
    · rfl
    · split
      · rfl
      · obtain ⟨x, d, hs, hu⟩ := h.scanRead (s.lat.src.toNat + i) false (by omega) (by omega)
        rw [hs, hu]
        cases x with
        | busError => rfl
        | byte v =>
          have hk' : i + 1 + k ≤ s.lat.len.toNat := by omega
          dsimp only
          split
          · rfl
          · exact ih (h.withDraws d) (i + 1) hk'

/-! The end of a command -/

/-- `t` and `v` end the commands of `s` and of `u` that compute `f` and `f'` on the same bytes or in the same error, after as
many draws. -/
def SameEnd (s u : State) (f f' : List Byte → Digest) (t v : State) : Prop :=
  ∃ g d, t = finishCommand f (g, s.withDraws d) ∧ v = finishCommand f' (g, u.withDraws d)

/-- Reads that gather the same end in the same way. -/
theorem SameReads.finish {s u : State} {r r' : Gathered × State} (h : SameReads s u r r') (f f' : List Byte → Digest) :
    SameEnd s u f f' (finishCommand f r) (finishCommand f' r') := by
  obtain ⟨g, d, rfl, rfl⟩ := h
  exact ⟨g, d, rfl, rfl⟩

section
variable {s u : State} (h : Alike s u) (f f' : List Byte → Digest)
include h

/-- A SPAN command's reads end in the same way. -/
theorem Alike.spanRun (free : Bool) : SameEnd s u f f' (s.spanRun free f) (u.spanRun free f') := by
  rw [State.spanRun, State.spanRun, h.lat]
  exact (h.gatherSpan free _ (Nat.le_refl _)).finish f f'

/-- A single-pass TEXT command's reads end in the same way. -/
theorem Alike.textRun (free : Bool) : SameEnd s u f f' (s.textRun free f) (u.textRun free f') :=
  (h.gatherText free).finish f f'

/-- A two-pass TEXT command's reads end in the same way: its second pass is no longer than the scan's limit. -/
theorem Alike.measuredTextRun (free : Bool) : SameEnd s u f f' (s.measuredTextRun free f) (u.measuredTextRun free f') := by
  obtain ⟨g, d, hs, hu⟩ := h.gatherText free
  rw [State.measuredTextRun, State.measuredTextRun, hs, hu]
  cases g with
  | bytes b =>
    have hb : b.length ≤ s.lat.len.toNat := scanText_length free s.lat.src _ 0 s b (congrArg Prod.fst hs)
    exact ((h.withDraws d).gatherSpan free b.length hb).finish f f'
  | error c a => exact ⟨.error c a, d, rfl, rfl⟩

/-- A SPAN command ends in the same way, its side effects included. -/
theorem Alike.spanReplay : SameEnd s u f f' (s.spanReplay f) (u.spanReplay f') := by
  have hmeets : u.spanMeets = s.spanMeets := by
    rw [State.spanMeets, State.spanMeets, h.lat, h.spanSideEffect _ _ (Nat.le_refl _) (Nat.le_refl _)]
  rw [State.spanReplay, State.spanReplay, hmeets]
  cases s.spanMeets with
  | none => exact h.spanRun f f' false
  | some d => exact (h.withDraws d).spanRun f f' true

/-- A scan comes to its first side effect at the same count of free values. -/
theorem Alike.textMeets : u.textMeets = s.textMeets := by
  rw [State.textMeets, State.textMeets, h.lat, h.textSideEffect _ 0 (Nat.zero_add _).le]

/-- A single-pass TEXT command ends in the same way, its side effects included. -/
theorem Alike.textReplay : SameEnd s u f f' (s.textReplay f) (u.textReplay f') := by
  rw [State.textReplay, State.textReplay, h.textMeets]
  cases s.textMeets with
  | none => exact h.textRun f f' false
  | some d => exact (h.withDraws d).textRun f f' true

/-- A two-pass TEXT command ends in the same way, its side effects included. -/
theorem Alike.measuredTextReplay : SameEnd s u f f' (s.measuredTextReplay f) (u.measuredTextReplay f') := by
  rw [State.measuredTextReplay, State.measuredTextReplay, h.textMeets]
  cases s.textMeets with
  | none => exact h.measuredTextRun f f' false
  | some d => exact (h.withDraws d).measuredTextRun f f' true

end

/-- Every legal command ends in the same way (40_command.md R114). -/
theorem Alike.replay {s u : State} (h : Alike s u) (i : Instr) :
    SameEnd s u (s.digest i.alg i.dseed) (u.digest i.alg i.dseed) (s.replay i) (u.replay i) := by
  unfold State.replay
  cases i.shape with
  | span => exact h.spanReplay _ _
  | text =>
    dsimp only
    split
    · exact h.measuredTextReplay _ _
    · exact h.textReplay _ _

/-- Every legal command on free bytes ends in the same way. -/
theorem Alike.replayFree {s u : State} (h : Alike s u) (i : Instr) :
    SameEnd s u (s.digest i.alg i.dseed) (u.digest i.alg i.dseed) (s.replayFree i) (u.replayFree i) := by
  unfold State.replayFree
  cases i.shape with
  | span => exact h.spanRun _ _ true
  | text =>
    dsimp only
    split
    · exact h.measuredTextRun _ _ true
    · exact h.textRun _ _ true

/-- The wait of R102 leaves the same table where the build and the table were the same. -/
theorem awaitTable_table_congr {s u : State} (hb : u.build = s.build) (ht : u.table = s.table) (hg : u.tgen = s.tgen) :
    u.awaitTable.table = s.awaitTable.table := by
  unfold State.awaitTable State.finishTable
  rw [hb, hg, ht]
  split
  · split
    · rfl
    · exact ht
    · exact ht
  · exact ht

/-- Settles O21: from their first read on the two states answer alike, and so their commands end in the same way. -/
theorem commandDependsOnlyOnItsOperands : Obligations.CommandDependsOnlyOnItsOperands := by
  intro i s u hbuild hplatform hlat hdirty hdraws htable hmem
  have halike : Alike (s.started i.alg).fresh (u.started i.alg).fresh :=
    ⟨by simpa using hplatform, by simpa using hlat, by simpa using hdirty, by simpa using hdraws, ⟨rfl, rfl⟩,
      by simpa using hmem⟩
  have hentries (ha : i.alg = .crc32) (n : BitVec 8) : (u.started i.alg).tableAt n = (s.started i.alg).tableAt n := by
    obtain ⟨ht, hg⟩ := htable ha
    rw [ha]
    exact congrArg (·.getD n.toNat 0#32) (awaitTable_table_congr hbuild ht hg)
  have hdigest : (u.started i.alg).fresh.digest i.alg i.dseed = (s.started i.alg).fresh.digest i.alg i.dseed := by
    rw [digest_fresh, digest_fresh]
    exact digest_congr i.alg i.dseed (by simpa using hbuild) (by simp [hlat]) fun ha _ n => hentries ha n
  obtain ⟨g, d, hs, hu⟩ := halike.replay i
  refine ⟨_, _, exec_of_run hs, exec_of_run hu, ?_⟩
  rw [hdigest]
  cases g with
  | bytes b => exact ⟨rfl, rfl, rfl, fun _ => ⟨rfl, rfl, rfl⟩, fun herr => nomatch herr⟩
  | error c a => exact ⟨rfl, rfl, rfl, fun herr => (nomatch herr), fun _ => rfl⟩

end Sys2Proof.Machine
end

section
/-! SUPPORT. Folding while reading (40_command.md R107): the accumulator and the tail after a sequence of bytes are the words
of the sequence folded and the bytes that fill no word (00_scope.md R14), so finishing them gives the digest. -/

namespace Sys2Proof.Machine

/-- The accumulator and the tail after the bytes `b`, from `x` before them. -/
def absorbAll (s : State) (a : Alg) (x : DWord × List Byte) (b : List Byte) : DWord × List Byte :=
  b.foldl (fun x v => absorb s a x.1 x.2 v) x

/-- One byte more. -/
theorem absorbAll_append (s : State) (a : Alg) (x : DWord × List Byte) (b : List Byte) (v : Byte) :
    absorbAll s a x (b ++ [v]) = absorb s a (absorbAll s a x b).1 (absorbAll s a x b).2 v :=
  List.foldl_concat ..

/-- A byte that does not fill a word joins the tail. -/
theorem absorb_of_lt (s : State) (a : Alg) (acc : DWord) (t : List Byte) (v : Byte)
    (h : t.length + 1 < Alg.wordSize a) : absorb s a acc t v = (acc, t ++ [v]) :=
  if_pos (by simpa using h)

/-- A byte that fills a word has it folded. -/
theorem absorb_of_eq (s : State) (a : Alg) (acc : DWord) (t : List Byte) (v : Byte)
    (h : t.length + 1 = Alg.wordSize a) : absorb s a acc t v = (foldWord s a acc (t ++ [v]), []) :=
  if_neg (by simp [h])

/-- The `j`-th word of `w` bytes. -/
def wordAt (w : Nat) (b : List Byte) (j : Nat) : List Byte := (b.drop (w * j)).take w

/-- A word inside the bytes `b` is the same with more bytes after them. -/
theorem wordAt_append (w : Nat) (b c : List Byte) (j : Nat) (h : w * j + w ≤ b.length) :
    wordAt w (b ++ c) j = wordAt w b j := by
  rw [wordAt, wordAt, List.drop_append_of_le_length (by omega), List.take_append_of_le_length (by simp; omega)]

/-- The accumulator has every whole word folded in order, and the tail has the bytes after them. -/
theorem absorbAll_words (s : State) (a : Alg) (acc : DWord) (b : List Byte) :
    let w := Alg.wordSize a
    absorbAll s a (acc, []) b =
      ((List.range (b.length / w)).foldl (fun h j => foldWord s a h (wordAt w b j)) acc, b.drop (w * (b.length / w))) := by
  intro w
  have hw : 0 < w := by cases a <;> decide
  induction b using List.reverseRecOn with
  | nil => simp [absorbAll]
  | append_singleton b v ih =>
    have hdiv := Nat.div_add_mod b.length w
    have hmod := Nat.mod_lt b.length hw
    have htail : (b.drop (w * (b.length / w))).length = b.length % w := by rw [List.length_drop]; omega
    have hdrop : (b ++ [v]).drop (w * (b.length / w)) = b.drop (w * (b.length / w)) ++ [v] :=
      List.drop_append_of_le_length (Nat.mul_div_le ..)
    have hwords : (List.range (b.length / w)).foldl (fun h j => foldWord s a h (wordAt w (b ++ [v]) j)) acc =
        (List.range (b.length / w)).foldl (fun h j => foldWord s a h (wordAt w b j)) acc := by
      refine List.foldl_ext _ _ _ fun h j hj => ?_
      have hle : w * (j + 1) ≤ w * (b.length / w) := Nat.mul_le_mul_left w (List.mem_range.1 hj)
      rw [wordAt_append w b [v] j (by rw [Nat.mul_succ] at hle; omega)]
    rw [absorbAll_append, ih, List.length_append, List.length_singleton]
    by_cases hfull : b.length % w + 1 = w
    · have hq : (b.length + 1) / w = b.length / w + 1 := by
        rw [show b.length + 1 = w * (b.length / w) + w by omega, Nat.mul_add_div hw, Nat.div_self hw]
      have hlast : wordAt w (b ++ [v]) (b.length / w) = b.drop (w * (b.length / w)) ++ [v] := by
        rw [wordAt, hdrop, List.take_of_length_le (by rw [List.length_append, htail, List.length_singleton]; omega)]
      have hnone : (b ++ [v]).drop (w * (b.length / w + 1)) = [] :=
        List.drop_of_length_le (by rw [List.length_append, List.length_singleton, Nat.mul_succ]; omega)
      rw [absorb_of_eq s a _ _ v (by rw [htail]; exact hfull), hq, List.range_succ, List.foldl_concat, hwords, hlast,
        hnone]
    · have hlt : b.length % w + 1 < w := by omega
      have hq : (b.length + 1) / w = b.length / w := by
        rw [show b.length + 1 = w * (b.length / w) + (b.length % w + 1) by omega, Nat.mul_add_div hw,
          Nat.div_eq_of_lt hlt, Nat.add_zero]
      rw [absorb_of_lt s a _ _ v (by rw [htail]; exact hlt), hq, hdrop, hwords]

/-- An algorithm that folds bytes keeps no tail (00_scope.md R14). -/
theorem absorbAll_bytes (s : State) (a : Alg) (acc : DWord) (b : List Byte) (hw : Alg.wordSize a = 1) :
    absorbAll s a (acc, []) b = (b.foldl (fun h v => foldWord s a h [v]) acc, []) := by
  induction b generalizing acc with
  | nil => rfl
  | cons v b ih => exact (congrArg (absorbAll s a · b) (absorb_of_eq s a acc [] v hw.symm)).trans (ih _)

/-- A whole word stands in the sequence after the words before it. -/
theorem wordAt_middle (w : Nat) (b : List Byte) (j : Nat) (h : w * j + w ≤ b.length) :
    ∃ p q, p ++ wordAt w b j ++ q = b ∧ p.length = w * j ∧ (wordAt w b j).length = w := by
  refine ⟨b.take (w * j), (b.drop (w * j)).drop w, ?_, List.length_take_of_le (by omega), ?_⟩
  · rw [List.append_assoc, wordAt, List.take_append_drop, List.take_append_drop]
  · rw [wordAt, List.length_take_of_le (by rw [List.length_drop]; omega)]

/-- `LE32` of a word of the sequence is `LE32` of the sequence at the word's place. -/
theorem le32_wordAt (b : List Byte) (j : Nat) (h : 4 * j + 4 ≤ b.length) : le32 (wordAt 4 b j) 0 = le32 b (4 * j) := by
  obtain ⟨p, q, hb, hp, hw⟩ := wordAt_middle 4 b j h
  have hm := le32_middle p (wordAt 4 b j) q hw
  rw [hb, hp] at hm
  exact hm.symm

/-- `LE64` of a word of the sequence is `LE64` of the sequence at the word's place. -/
theorem le64_wordAt (b : List Byte) (j : Nat) (h : 8 * j + 8 ≤ b.length) : le64 (wordAt 8 b j) 0 = le64 b (8 * j) := by
  obtain ⟨p, q, hb, hp, hw⟩ := wordAt_middle 8 b j h
  have hm := le64_middle p (wordAt 8 b j) q hw
  rw [hb, hp] at hm
  exact hm.symm

/-- A 32-bit algorithm reads back from the accumulator what it wrote (log 15). -/
@[simp] theorem acc32_ofAcc32 (h : Word) : acc32 (ofAcc32 h) = h := by
  simp [acc32, ofAcc32]

/-- A 32-bit algorithm that folds bytes with `g` has its fold in the accumulator. -/
theorem absorbAll_bytes32 (s : State) (a : Alg) (g : Word → Byte → Word) (x : Word) (b : List Byte)
    (hw : Alg.wordSize a = 1) (hg : ∀ h v, foldWord s a h [v] = ofAcc32 (g (acc32 h) v)) :
    absorbAll s a (ofAcc32 x, []) b = (ofAcc32 (b.foldl g x), []) := by
  simp only [absorbAll_bytes s a _ b hw, hg]
  rw [List.foldl_hom ofAcc32 fun h v => by rw [acc32_ofAcc32]]

/-- A 32-bit algorithm that folds words of four bytes with `g` has its fold in the accumulator. -/
theorem absorbAll_words32 (s : State) (a : Alg) (g : Word → Word → Word) (x : Word) (b : List Byte)
    (hw : Alg.wordSize a = 4) (hg : ∀ h t, foldWord s a h t = ofAcc32 (g (acc32 h) (le32 t 0))) :
    absorbAll s a (ofAcc32 x, []) b =
      (ofAcc32 ((List.range (b.length / 4)).foldl (fun h j => g h (le32 b (4 * j))) x),
        b.drop (4 * (b.length / 4))) := by
  simp only [absorbAll_words, hg, hw]
  rw [← List.foldl_hom ofAcc32 (g₂ := fun h j => ofAcc32 (g (acc32 h) (le32 b (4 * j)))) fun h j => by rw [acc32_ofAcc32]]
  congr 1
  refine List.foldl_ext _ _ _ fun h j hj => ?_
  have hlt := List.mem_range.1 hj
  rw [le32_wordAt b j (by omega)]

/-- MURMUR2_64 has the fold of its words of eight bytes in the accumulator (44_murmur2.md R173). -/
theorem absorbAll_murmur64 (s : State) (x : DWord) (b : List Byte) :
    absorbAll s .murmur2_64 (x, []) b =
      ((List.range (b.length / 8)).foldl (fun h j => mix64 s.build.mm64Fold s.build.mm64M h (le64 b (8 * j))) x,
        b.drop (8 * (b.length / 8))) := by
  simp only [absorbAll_words, Alg.wordSize, foldWord]
  congr 1
  refine List.foldl_ext _ _ _ fun h j hj => ?_
  have hlt := List.mem_range.1 hj
  rw [le64_wordAt b j (by omega)]

/-- The result of a hash pass over the bytes `b` is the digest of `b` (40_command.md R107). -/
theorem finishAcc_absorbAll (s : State) (i : Instr) (b : List Byte) :
    finishAcc s i.alg (absorbAll s i.alg (startAcc s i b.length, []) b).1
      (absorbAll s i.alg (startAcc s i b.length, []) b).2 b.length = s.digest i.alg i.dseed b := by
  unfold startAcc
  generalize i.alg = a, i.dseed = d
  cases a
  case crc32 =>
    rw [absorbAll_bytes32 s .crc32 s.crcUpd _ b rfl fun _ _ => rfl, finishAcc, acc32_ofAcc32]
    rfl
  case djb2 =>
    rw [absorbAll_bytes32 s .djb2 djb2Byte _ b rfl fun _ _ => rfl, finishAcc, acc32_ofAcc32]
    rfl
  case djb2a =>
    rw [absorbAll_bytes32 s .djb2a djb2aByte _ b rfl fun _ _ => rfl, finishAcc, acc32_ofAcc32]
    rfl
  case fnv1a =>
    rw [absorbAll_bytes32 s .fnv1a (fnv1aByte s.build.fnv32Prime) _ b rfl fun _ _ => rfl, finishAcc, acc32_ofAcc32]
    rfl
  case fnv1a64 =>
    rw [absorbAll_bytes s .fnv1a64 _ b rfl]
    rfl
  case murmur2 =>
    rw [absorbAll_words32 s .murmur2 (mmix s.build.mm2M) _ b rfl fun _ _ => rfl, finishAcc, acc32_ofAcc32]
    rfl
  case murmur2a =>
    rw [absorbAll_words32 s .murmur2a (mmix s.build.mm2M) _ b rfl fun _ _ => rfl, finishAcc, acc32_ofAcc32]
    rfl
  case murmur2_64 =>
    rw [absorbAll_murmur64]
    rfl
  case murmur3 =>
    rw [absorbAll_words32 s .murmur3 (mix3 s.build) _ b rfl fun _ _ => rfl, finishAcc, acc32_ofAcc32]
    rfl

/-- Settles O23: the accumulator has the whole words folded, the tail has the rest, and the digest is their end. -/
theorem foldingWhileReadingComputesTheDigest : Obligations.FoldingWhileReadingComputesTheDigest :=
  fun i s b => finishAcc_absorbAll s i b

end Sys2Proof.Machine
end

section
/-! SUPPORT. What the engine's passes rest on: its steps in a row, the bytes a pass goes over to its end (40_command.md R104,
R105), reads that have taken place (20_memory.md R62), and the working registers, which have no part in a command's end
(93_implementation_defined.md U6). -/

namespace Sys2Proof.Machine

/-! Engine steps in a row -/

/-- Engine steps in a row, split in two. -/
theorem engineRun_add (n m : Nat) (s : State) : State.engineRun (n + m) s = State.engineRun m (State.engineRun n s) := by
  induction n generalizing s with
  | zero => rw [Nat.zero_add, State.engineRun]
  | succ n ih => rw [Nat.succ_add, State.engineRun, ih, State.engineRun]

/-- The last of some engine steps in a row. -/
theorem engineRun_succ (n : Nat) (s : State) : State.engineRun (n + 1) s = (State.engineRun n s).engineStep :=
  engineRun_add n 1 s

/-- States that the engine goes through one byte a step, from no byte on. -/
theorem engineRun_along (st : List Byte → State) (Q : List Byte → Prop)
    (h : ∀ b v, Q (b ++ [v]) → Q b ∧ (st b).engineStep = st (b ++ [v])) (b : List Byte) (hb : Q b) :
    State.engineRun b.length (st []) = st b := by
  induction b using List.reverseRecOn with
  | nil => rfl
  | append_singleton b v ih =>
    obtain ⟨hb', hstep⟩ := h b v hb
    rw [List.length_append, List.length_singleton, engineRun_succ, ih hb', hstep]

/-! The bytes before the end of a pass -/

/-- No address of the input range was written (70_reset_and_hazards.md R240). -/
theorem disturbed_eq_false_iff (s : State) : s.disturbed = false ↔ ∀ a ∈ s.dirty, ¬Claims.InRange s a := by
  simp [State.disturbed, Claims.InRange]

/-- A range and the address after it have no side effects if neither has. -/
theorem sideEffectIn_succ (s : State) (lo hi : Nat) (h : s.sideEffectIn lo hi = false)
    (h' : s.sideEffectAt hi = false) : s.sideEffectIn lo (hi + 1) = false := by
  simp only [State.sideEffectAt, State.sideEffectIn, List.any_eq_false, decide_eq_true_eq, Nat.not_lt] at h h' ⊢
  intro w hw
  have := h w hw
  have := h' w hw
  omega

/-- One byte after bytes in memory. -/
theorem holdsAt_append (m : Memory) (a : Nat) (b : List Byte) (v : Byte) :
    HoldsAt m a (b ++ [v]) ↔ HoldsAt m a b ∧ m.read (a + b.length) = some v := by
  constructor
  · intro h
    refine ⟨fun k hk => ?_, ?_⟩
    · rw [h k (by simp; omega), List.getElem_append_left hk]
    · rw [h b.length (by simp), List.getElem_concat_length rfl]
  · rintro ⟨h, hv⟩ k hk
    by_cases hlt : k < b.length
    · rw [h k hlt, List.getElem_append_left hlt]
    · obtain rfl : k = b.length := by simp at hk; omega
      rw [hv, List.getElem_concat_length rfl]

/-- A pass goes over one byte more when the address after it is inside the latched length and the address space, was not
written, has no side effect, and answers the byte. -/
theorem Passes.append {s : State} {b : List Byte} {v : Byte} (hb : Passes s b) (hd : s.disturbed = false)
    (hlt : b.length < s.lat.len.toNat) (htop : s.lat.src.toNat + b.length < addressSpace)
    (hquiet : s.sideEffectAt (s.lat.src.toNat + b.length) = false)
    (hv : s.mem.read (s.lat.src.toNat + b.length) = some v) : Passes s (b ++ [v]) := by
  have hlen : (b ++ [v]).length = b.length + 1 := by simp
  refine ⟨(holdsAt_append ..).2 ⟨hb.holds, hv⟩, ⟨fun a hlo hhi ha => ?_, ?_⟩, hlen ▸ hlt, hlen ▸ htop⟩
  · exact (disturbed_eq_false_iff s).1 hd a ha ⟨hlo, by rw [hlen] at hhi; omega⟩
  · rw [hlen]
    exact sideEffectIn_succ s _ _ hb.steady.2 hquiet

/-- A pass that goes over one byte more went over the bytes before it, and read the byte at the address after them. -/
theorem Passes.of_append {s : State} {b : List Byte} {v : Byte} (h : Passes s (b ++ [v])) :
    Passes s b ∧ b.length < s.lat.len.toNat ∧ s.lat.src.toNat + b.length < addressSpace ∧
      s.sideEffectAt (s.lat.src.toNat + b.length) = false ∧ s.mem.read (s.lat.src.toNat + b.length) = some v := by
  obtain ⟨hm, hs, hlimit, hspace⟩ := h
  rw [List.length_append, List.length_singleton] at hs hlimit hspace
  obtain ⟨hm, hv⟩ := (holdsAt_append ..).1 hm
  exact ⟨⟨hm, hs.mono (Nat.le_refl _) (by omega), by omega, by omega⟩, hlimit, hspace,
    sideEffectAt_of_steady s _ _ _ hs.2 (by omega) (by omega), hv⟩

/-- A pass over bytes with `P` ends after the bytes `b`: at the limit, the top of the address space, a side effect, or an
address that answers no byte with `P`. -/
def Stops (s : State) (P : Byte → Prop) (b : List Byte) : Prop :=
  b.length < s.lat.len.toNat → s.lat.src.toNat + b.length < addressSpace →
    s.sideEffectAt (s.lat.src.toNat + b.length) = false → ∀ v, s.mem.read (s.lat.src.toNat + b.length) = some v → ¬P v

/-- A pass over bytes with `P` comes to its end from where it stands. -/
theorem exists_passes_from (s : State) (P : Byte → Prop) (hd : s.disturbed = false) (k : Nat) (b : List Byte)
    (hk : b.length + k = s.lat.len.toNat) (hb : Passes s b) (hP : ∀ v ∈ b, P v) :
    ∃ c, Passes s c ∧ (∀ v ∈ c, P v) ∧ Stops s P c := by
  induction k generalizing b with
  | zero => exact ⟨b, hb, hP, fun hlt => by omega⟩
  | succ k ih =>
    by_cases hstop : Stops s P b
    · exact ⟨b, hb, hP, hstop⟩
    · simp only [Stops, Classical.not_imp, not_forall, not_not] at hstop
      obtain ⟨hlt, htop, hquiet, v, hv, hPv⟩ := hstop
      exact ih (b ++ [v]) (by rw [List.length_append, List.length_singleton]; omega) (hb.append hd hlt htop hquiet hv)
        (List.forall_mem_append.2 ⟨hP, List.forall_mem_singleton.2 hPv⟩)

/-- Every pass goes over no byte. -/
theorem passes_nil (s : State) : Passes s [] where
  holds _ hk := nomatch hk
  steady := ⟨fun _ hlo hhi => absurd hhi (Nat.not_lt.2 hlo), by simp [State.sideEffectIn]⟩
  limit := Nat.zero_le _
  space := s.lat.src.isLt.le

/-- A pass over bytes with `P` comes to its end. -/
theorem exists_passes (s : State) (P : Byte → Prop) (hd : s.disturbed = false) :
    ∃ b, Passes s b ∧ (∀ v ∈ b, P v) ∧ Stops s P b :=
  exists_passes_from s P hd _ [] (Nat.zero_add _) (passes_nil s) fun _ hv => nomatch hv

/-- The text `b` stands in memory when a scan goes over its nonzero bytes and then reads a zero byte. -/
theorem Passes.textInput {s : State} {b : List Byte} (hb : Passes s b) (hz : ∀ v ∈ b, v ≠ 0#8)
    (hd : s.disturbed = false) (hlt : b.length < s.lat.len.toNat) (htop : s.lat.src.toNat + b.length < addressSpace)
    (hquiet : s.sideEffectAt (s.lat.src.toNat + b.length) = false)
    (hv : s.mem.read (s.lat.src.toNat + b.length) = some 0#8) : TextInput s b := by
  obtain ⟨hm, hs, _, _⟩ := hb.append hd hlt htop hquiet hv
  rw [List.length_append, List.length_singleton] at hs
  exact ⟨hz, hlt, htop, hm, hs⟩

/-! Reads that have taken place, on free bytes -/

/-- With no past there is none to forget. -/
theorem fresh_of_nil (s : State) (h : s.past = []) : s.fresh = s := by
  rw [State.fresh, State.withReads, ← h]

/-- A free run's read that has taken place answers a free byte. -/
theorem memRead_of_read (s : State) (a : Nat) (v : Byte) (l : List Moment) (h : s.past = .read v :: l) :
    s.memRead a true = (.byte (Config.freeByte s.draws), s.withReads l (s.draws + 1)) := by
  rw [State.memRead, answer_of_read s a v l (by rw [h]; rfl)]
  rfl

/-- A free run's read that is still to come answers a free byte. -/
theorem memRead_fresh_free (s : State) (a : Nat) (v : Byte) (h : s.mem.read a = some v) :
    s.fresh.memRead a true = (.byte (Config.freeByte s.draws), s.withReads [] (s.draws + 1)) := by
  rw [memRead_of_nil s.fresh a true rfl, State.fresh_mem, h]
  rfl

/-- Reads alone are no change of the memory. -/
theorem changes_map_read (b : List Byte) : Moment.changes (b.map .read) = [] := by
  induction b with
  | nil => rfl
  | cons v b ih => exact ih

/-- A free span pass that has read the bytes `b` in memory goes on as one that has read nothing (20_memory.md R62, R63). -/
theorem readSpan_free_of_reads (s : State) (b : List Byte) (n a : Nat) (hp : s.past = b.map .read)
    (hm : HoldsAt s.mem a b) (hn : b.length ≤ n) : readSpan true n a s = readSpan true n a s.fresh := by
  induction b generalizing s a n with
  | nil => rw [fresh_of_nil s hp]
  | cons v b ih =>
    obtain ⟨n, rfl⟩ := Nat.exists_eq_add_one_of_ne_zero (Nat.ne_zero_of_lt hn)
    have hrest := ih (s.withReads (b.map .read) (s.draws + 1)) n (a + 1) rfl hm.tail (Nat.le_of_succ_le_succ hn)
    rw [readSpan, readSpan, memRead_of_read s a v _ hp, memRead_fresh_free s a v (hm 0 (Nat.succ_pos _))]
    dsimp only
    rw [hrest]
    rfl

/-- A free scan that has read the nonzero bytes `b` in memory goes on as one that has read nothing (20_memory.md R62, R63):
where a free byte ends the text, the reads after it were none of this scan's. -/
theorem scanText_free_of_reads (s : State) (src : Word) (b : List Byte) (k i : Nat) (hp : s.past = b.map .read)
    (hm : HoldsAt s.mem (src.toNat + i) b) (hz : ∀ v ∈ b, v ≠ 0#8) (hk : b.length ≤ k)
    (htop : src.toNat + i + b.length ≤ addressSpace) : scanText true src k i s = scanText true src k i s.fresh := by
  induction b generalizing s k i with
  | nil => rw [fresh_of_nil s hp]
  | cons v b ih =>
    obtain ⟨k, rfl⟩ := Nat.exists_eq_add_one_of_ne_zero (Nat.ne_zero_of_lt hk)
    rw [List.length_cons] at htop
    have hin : ¬src.toNat + i ≥ addressSpace := by omega
    have hv : (v == 0#8) = false := beq_eq_false_iff_ne.2 (hz v List.mem_cons_self)
    have hfirst : s.mem.read (src.toNat + i) = some v := hm 0 (Nat.succ_pos _)
    have hnow := (scanRead_of_nil s.fresh (src.toNat + i) true rfl).trans (memRead_fresh_free s _ v hfirst)
    have hthen : s.scanRead (src.toNat + i) true = (.byte (Config.freeByte s.draws),
        (s.withReads (b.map .read) (s.draws + 1)).followed (some v) (Config.freeByte s.draws)) := by
      rw [State.scanRead, memRead_of_read s _ v _ hp, hp]
      rfl
    rw [scanText, scanText, if_neg hin, if_neg hin, hnow, hthen]
    dsimp only
    by_cases hend : Config.freeByte s.draws = 0#8
    · rw [if_pos hend, if_pos hend, hend, State.followed, hv]
      exact congrArg (fun l => (Gathered.bytes [], s.withReads l (s.draws + 1))) (changes_map_read b)
    · have hsame : ((v == 0#8) == (Config.freeByte s.draws == 0#8)) = true := by rw [hv, beq_eq_false_iff_ne.2 hend]; rfl
      have hrest := ih (s.withReads (b.map .read) (s.draws + 1)) k (i + 1) rfl hm.tail
        (fun w hw => hz w (List.mem_cons_of_mem _ hw)) (Nat.le_of_succ_le_succ hk) (by omega)
      rw [if_neg hend, if_neg hend, State.followed, if_pos hsame, hrest]
      rfl

/-- A command on free bytes whose pass has read the bytes `b` ends as one that has read nothing. -/
theorem Passes.replayFree_of_reads {s : State} {b : List Byte} (hb : Passes s b) (i : Instr) (hp : s.past = b.map .read)
    (hspan : i.shape = .span → s.lat.src.toNat + s.lat.len.toNat ≤ addressSpace)
    (htext : i.shape = .text → ∀ v ∈ b, v ≠ 0#8) : s.replayFree i = s.fresh.replayFree i := by
  rw [State.replayFree, State.replayFree, digest_fresh]
  cases hs : i.shape with
  | span =>
    have hread := readSpan_free_of_reads s b _ _ hp hb.holds hb.limit
    have hgather (u : State) (hu : u.lat = s.lat) :
        gatherSpan true u u.lat.len.toNat = readSpan true s.lat.len.toNat s.lat.src.toNat u := by
      rw [gatherSpan, hu]
      exact if_neg fun h => Nat.not_lt.2 (hspan hs) h.2
    simp only [State.spanRun]
    rw [hgather s rfl, hgather s.fresh rfl, hread]
  | text =>
    have hgather : gatherText true s = gatherText true s.fresh :=
      scanText_free_of_reads s _ b _ 0 hp hb.holds (htext hs) hb.limit hb.space
    simp only [State.measuredTextRun, State.textRun, hgather]

/-! The working registers have no part in the end of a command -/

/-- `t` is `s` but for the phase, the working registers and the record of the pass. -/
structure SameButWork (s t : State) : Prop where
  ended : t.endCommand = s.endCommand
  dirty : t.dirty = s.dirty

/-- The two states agree wherever the end of a command leaves `s` as it was. -/
theorem SameButWork.field {α : Type} {s t : State} (h : SameButWork s t) (g : State → α) :
    g t.endCommand = g s.endCommand :=
  congrArg g h.ended

/-- What a command's end computes and does depends on no working register. -/
theorem SameButWork.finish {s t : State} (h : SameButWork s t) (f : List Byte → Digest) (g : Gathered) (d : Nat) :
    finishCommand f (g, t.fresh.withDraws d) = finishCommand f (g, s.fresh.withDraws d) := by
  have hclear (u : State) : finishCommand f (g, u.fresh.withDraws d) = finishCommand f (g, u.endCommand.withDraws d) := by
    cases g <;> rfl
  rw [hclear t, hclear s, h.ended]

/-- The two states answer alike. -/
theorem SameButWork.alike {s t : State} (h : SameButWork s t) : Alike s.fresh t.fresh where
  platform := h.field State.platform
  lat := h.field State.lat
  dirty := h.dirty
  draws := h.field State.draws
  past := ⟨rfl, rfl⟩
  mem a _ _ := h.field (·.mem.read a)

/-- The two states compute the same. -/
theorem SameButWork.digest {s t : State} (h : SameButWork s t) (a : Alg) (d : Bool) : t.digest a d = s.digest a d :=
  digest_congr a d (h.field State.build) (h.field (·.lat.seed))
    fun _ _ n => h.field (·.tableAt n)

/-- Commands of the two states that end in the same way end in the same state. -/
theorem SameButWork.eq_of_sameEnd {s t u v : State} (h : SameButWork s t) (i : Instr)
    (he : SameEnd s.fresh t.fresh (s.fresh.digest i.alg i.dseed) (t.fresh.digest i.alg i.dseed) u v) : v = u := by
  obtain ⟨g, d, rfl, rfl⟩ := he
  rw [digest_fresh, digest_fresh, h.digest, h.finish]

/-- A command on free bytes from its first read ends in the same state. -/
theorem SameButWork.replayFree {s t : State} (h : SameButWork s t) (i : Instr) :
    t.fresh.replayFree i = s.fresh.replayFree i :=
  h.eq_of_sameEnd i (h.alike.replayFree i)

/-- A pass of the one goes over what a pass of the other does. -/
theorem SameButWork.passes {s t : State} (h : SameButWork s t) {b : List Byte} (hb : Passes s b) : Passes t b := by
  have hmem : t.mem = s.mem := h.field State.mem
  have hlat : t.lat = s.lat := h.field State.lat
  have heffects (lo hi : Nat) : t.sideEffectIn lo hi = s.sideEffectIn lo hi := h.field (·.sideEffectIn lo hi)
  obtain ⟨hm, ⟨hdirty, hquiet⟩, hlimit, hspace⟩ := hb
  rw [← h.dirty] at hdirty
  rw [← heffects] at hquiet
  constructor <;> rw [hlat]
  · rwa [hmem]
  · exact ⟨hdirty, hquiet⟩
  · exact hlimit
  · exact hspace

/-- A pass of `s` that has read the bytes `b` ends on free bytes as the command does from its first read. -/
theorem SameButWork.replayFree_of_reads {s t : State} (h : SameButWork s t) (i : Instr) {b : List Byte} (hb : Passes s b)
    (hp : t.past = b.map .read) (hspan : i.shape = .span → s.lat.src.toNat + s.lat.len.toNat ≤ addressSpace)
    (htext : i.shape = .text → ∀ v ∈ b, v ≠ 0#8) : t.replayFree i = s.fresh.replayFree i := by
  have hlat : t.lat = s.lat := h.field State.lat
  rw [(h.passes hb).replayFree_of_reads i hp (by rwa [hlat]) htext, h.replayFree i]

/-- A command from its first read ends in the same state. -/
theorem SameButWork.run {s t : State} (h : SameButWork s t) (i : Instr) : t.run i = s.run i :=
  h.eq_of_sameEnd i (h.alike.replay i)

end Sys2Proof.Machine
end

section
/-! SUPPORT. The engine byte by byte (40_command.md R102 to R107, R113): the states of its passes, indexed by the bytes read so
far, the steps between them, and the end they come to, which is the one `exec` answers with (10_state.md R42). -/

namespace Sys2Proof.Machine

/-! The states of a pass -/

/-- A scan that has read the bytes `b`. -/
def scanning (s : State) (i : Instr) (b : List Byte) : State :=
  { s with phase := .scan i, cursor := b.length, past := b.map .read }

/-- A hash pass of length `n` that has read the bytes `b`, after the reads `p` of a scan. -/
def hashing (s : State) (i : Instr) (n : Nat) (p b : List Byte) : State :=
  { s with
    phase := .hash i
    cursor := b.length
    len := n
    acc := (absorbAll s i.alg (startAcc s i n, []) b).1
    tail := (absorbAll s i.alg (startAcc s i n, []) b).2
    past := (p ++ b).map .read }

/-- A scan has changed no more than the working registers. -/
theorem sameButWork_scanning (s : State) (i : Instr) (b : List Byte) : SameButWork s (scanning s i b) := ⟨rfl, rfl⟩

/-- A hash pass has changed no more than the working registers. -/
theorem sameButWork_hashing (s : State) (i : Instr) (n : Nat) (p b : List Byte) : SameButWork s (hashing s i n p b) :=
  ⟨rfl, rfl⟩

/-- A byte consumed is one more byte of the hash pass. -/
theorem consume_hashing (s : State) (i : Instr) (n : Nat) (p b : List Byte) (v : Byte) :
    (hashing s i n p b).consume i v = hashing s i n p (b ++ [v]) := by
  have hpast : ((p ++ b).map .read ++ [.read v] : List Moment) = (p ++ (b ++ [v])).map .read := by simp
  have hcursor : b.length + 1 = (b ++ [v]).length := by simp
  simp only [hashing, absorbAll_append, ← hpast, ← hcursor]
  rfl

/-- A byte measured is one more byte of the scan. -/
theorem noted_scanning (s : State) (i : Instr) (b : List Byte) (v : Byte) :
    { (scanning s i b).noted v with cursor := (scanning s i b).cursor + 1 } = scanning s i (b ++ [v]) := by
  simp [scanning, State.noted]

/-- What the next step of a scan does, `st` being its states and `after` those that the terminator leaves (40_command.md
R105): NOTERM, RANGE, a side effect, BUS, the terminator, or a byte of the text. -/
def scanNext (s : State) (i : Instr) (st after : List Byte → State) (b : List Byte) : State :=
  if b.length = s.lat.len.toNat then s.cmdError .noterm s.lat.src
  else if s.lat.src.toNat + b.length ≥ addressSpace then s.cmdError .range s.lat.src
  else if s.sideEffectAt (s.lat.src.toNat + b.length) then (st b).replayFree i
  else
    (s.mem.read (s.lat.src.toNat + b.length)).elim (s.cmdError .bus (BitVec.ofNat 32 (s.lat.src.toNat + b.length)))
      fun v => if v = 0#8 then after b else st (b ++ [v])

/-- The state that the terminator leaves a two-pass TEXT in: its second pass, over the bytes measured. -/
def secondPass (s : State) (i : Instr) (b : List Byte) : State := hashing s i b.length (b ++ [0#8]) []

/-- The terminator begins the second pass. -/
theorem terminate_scanning (s : State) (i : Instr) (b : List Byte) :
    ((scanning s i b).noted 0#8).beginHash i b.length = secondPass s i b := by
  have hpast : (b.map .read ++ [.read 0#8] : List Moment) = (b ++ [0#8] ++ []).map .read := by simp
  simp only [secondPass, hashing, ← hpast]
  rfl

/-- The state that the terminator leaves a one-pass TEXT in: its length is known. -/
def measured (s : State) (i : Instr) (b : List Byte) : State :=
  { (hashing s i s.lat.len.toNat [] b).noted 0#8 with len := b.length }

/-- An undisturbed scan takes the steps of its pass. -/
theorem engineStep_of_scan (s : State) (i : Instr) (hp : s.phase = .scan i) (hd : s.disturbed = false) :
    s.engineStep = s.scanStep i := by
  rw [State.engineStep, hp]
  exact if_neg (Bool.eq_false_iff.1 hd)

/-- An undisturbed hash pass takes the steps of its pass. -/
theorem engineStep_of_hash (s : State) (i : Instr) (hp : s.phase = .hash i) (hd : s.disturbed = false) :
    s.engineStep = if onePassText i then s.textHashStep i else s.spanHashStep i := by
  rw [State.engineStep, hp]
  exact if_neg (Bool.eq_false_iff.1 hd)

/-- The steps of the scan of a two-pass TEXT (40_command.md R106). -/
theorem engineStep_scanning (s : State) (i : Instr) (b : List Byte) (hd : s.disturbed = false) :
    (scanning s i b).engineStep = scanNext s i (scanning s i) (secondPass s i) b := by
  rw [engineStep_of_scan (scanning s i b) i rfl hd]
  refine ite_congr rfl (fun _ => rfl) fun _ => ite_congr rfl (fun _ => rfl) fun _ => ite_congr rfl (fun _ => rfl) fun _ => ?_
  split
  · rename_i hv
    rw [show s.mem.read (s.lat.src.toNat + b.length) = none from hv]
    rfl
  · rename_i v hv
    rw [show s.mem.read (s.lat.src.toNat + b.length) = some v from hv, Option.elim_some]
    by_cases h0 : v = 0#8
    · rw [if_pos h0, if_pos h0, h0]
      exact terminate_scanning s i b
    · rw [if_neg h0, if_neg h0, noted_scanning]

/-- The steps of the one pass of a TEXT (40_command.md R105). -/
theorem engineStep_hashing_text (s : State) (i : Instr) (b : List Byte) (hone : onePassText i = true)
    (hd : s.disturbed = false) :
    (hashing s i s.lat.len.toNat [] b).engineStep =
      scanNext s i (hashing s i s.lat.len.toNat []) (measured s i) b := by
  rw [engineStep_of_hash (hashing s i _ [] b) i rfl hd, if_pos hone]
  refine ite_congr rfl (fun _ => rfl) fun hlen => (if_neg hlen).trans ?_
  refine ite_congr rfl (fun _ => rfl) fun _ => ite_congr rfl (fun _ => rfl) fun _ => ?_
  split
  · rename_i hv
    rw [show s.mem.read (s.lat.src.toNat + b.length) = none from hv]
    rfl
  · rename_i v hv
    rw [show s.mem.read (s.lat.src.toNat + b.length) = some v from hv, Option.elim_some]
    by_cases h0 : v = 0#8
    · rw [if_pos h0, if_pos h0, h0]
      rfl
    · rw [if_neg h0, if_neg h0, consume_hashing]

/-- What the next step of a span pass does (40_command.md R104): RANGE, the end, a side effect, BUS, or a byte of the span. -/
def spanNext (s : State) (i : Instr) (n : Nat) (p b : List Byte) : State :=
  if b.length = 0 ∧ 0 < n ∧ s.lat.src.toNat + n > addressSpace then s.cmdError .range s.lat.src
  else if b.length = n then
    s.complete (finishAcc s i.alg (hashing s i n p b).acc (hashing s i n p b).tail n) n
  else if s.sideEffectAt (s.lat.src.toNat + b.length) then (hashing s i n p b).replayFree i
  else
    (s.mem.read (s.lat.src.toNat + b.length)).elim (s.cmdError .bus (BitVec.ofNat 32 (s.lat.src.toNat + b.length)))
      fun v => hashing s i n p (b ++ [v])

/-- Of a state, only the build has a part in how an accumulator is finished. -/
theorem finishAcc_congr {s t : State} (h : t.build = s.build) (a : Alg) (acc : DWord) (tail : List Byte) (n : Nat) :
    finishAcc t a acc tail n = finishAcc s a acc tail n := by
  cases a <;> simp only [finishAcc, h]

/-- The steps of a span pass (40_command.md R104). -/
theorem engineStep_hashing_span (s : State) (i : Instr) (n : Nat) (p b : List Byte) (hone : onePassText i = false)
    (hd : s.disturbed = false) : (hashing s i n p b).engineStep = spanNext s i n p b := by
  rw [engineStep_of_hash (hashing s i n p b) i rfl hd, if_neg (Bool.eq_false_iff.1 hone)]
  refine ite_congr rfl (fun _ => rfl) fun _ => ite_congr rfl (fun _ => ?_) fun _ => ite_congr rfl (fun _ => rfl) fun _ => ?_
  · exact congrArg (s.complete · n) (finishAcc_congr rfl ..)
  split
  · rename_i hv
    rw [show s.mem.read (s.lat.src.toNat + b.length) = none from hv]
    rfl
  · rename_i v hv
    rw [show s.mem.read (s.lat.src.toNat + b.length) = some v from hv, consume_hashing]
    rfl

/-! Where the passes come to -/

/-- A scan comes over its text to the end, which is the command's, or to the terminator of a text in memory. -/
theorem scan_ends (s : State) (i : Instr) (st after : List Byte → State) (htext : i.shape = .text)
    (hd : s.disturbed = false) (hstep : ∀ b, (st b).engineStep = scanNext s i st after b)
    (hwork : ∀ b, SameButWork s (st b) ∧ (st b).past = b.map .read) :
    ∃ b, Passes s b ∧
      (State.engineRun (b.length + 1) (st []) = s.run i ∨
        (TextInput s b ∧ State.engineRun (b.length + 1) (st []) = after b)) := by
  obtain ⟨b, hb, hz, hstop⟩ := exists_passes s (· ≠ 0#8) hd
  have hrun : State.engineRun b.length (st []) = st b := by
    refine engineRun_along st (fun c => Passes s c ∧ ∀ v ∈ c, v ≠ 0#8) (fun c v ⟨hc, hcz⟩ => ?_) b ⟨hb, hz⟩
    obtain ⟨hc, hlt, htop, hquiet, hv⟩ := hc.of_append
    obtain ⟨hcz, hvz⟩ := List.forall_mem_append.1 hcz
    refine ⟨⟨hc, hcz⟩, ?_⟩
    rw [hstep, scanNext, if_neg hlt.ne, if_neg htop.not_ge, hquiet, hv]
    exact if_neg (hvz v (List.mem_singleton_self v))
  refine ⟨b, hb, ?_⟩
  rw [engineRun_succ, hrun, hstep, scanNext]
  by_cases hlen : b.length = s.lat.len.toNat
  · exact .inl ((if_pos hlen).trans (hb.run_noterm i htext hz hlen).symm)
  rw [if_neg hlen]
  have hlt := Nat.lt_of_le_of_ne hb.limit hlen
  by_cases hge : s.lat.src.toNat + b.length ≥ addressSpace
  · exact .inl ((if_pos hge).trans (hb.run_textRange i htext hz hlt (Nat.le_antisymm hb.space hge)).symm)
  rw [if_neg hge]
  have htop := Nat.lt_of_not_le hge
  cases hquiet : s.sideEffectAt (s.lat.src.toNat + b.length) with
  | true =>
    obtain ⟨hsame, hpast⟩ := hwork b
    have hfree := hsame.replayFree_of_reads i hb hpast (fun hspan => by rw [htext] at hspan; cases hspan) fun _ => hz
    exact .inl (hfree.trans (hb.run_textMeets i htext hz hlt htop hquiet).symm)
  | false =>
    cases hv : s.mem.read (s.lat.src.toNat + b.length) with
    | none => exact .inl (hb.run_textBus i htext hz hlt htop hquiet hv).symm
    | some v =>
      obtain rfl : v = 0#8 := not_not.1 (hstop hlt htop hquiet v hv)
      exact .inr ⟨hb.textInput hz hd hlt htop hquiet hv, rfl⟩

/-- A span pass inside the address space comes over the bytes it reads, up to its length. -/
theorem engineRun_hashing (s : State) (i : Instr) (n : Nat) (p b : List Byte) (hone : onePassText i = false)
    (hd : s.disturbed = false) (htop : s.lat.src.toNat + n ≤ addressSpace) (hb : Passes s b) (hn : b.length ≤ n) :
    State.engineRun b.length (hashing s i n p []) = hashing s i n p b := by
  refine engineRun_along (hashing s i n p) (fun c => Passes s c ∧ c.length ≤ n) (fun c v ⟨hc, hcn⟩ => ?_) b ⟨hb, hn⟩
  rw [List.length_append, List.length_singleton] at hcn
  obtain ⟨hc, _, _, hquiet, hv⟩ := hc.of_append
  refine ⟨⟨hc, Nat.le_of_succ_le hcn⟩, ?_⟩
  rw [engineStep_hashing_span s i n p c hone hd, spanNext, if_neg fun h => Nat.not_lt.2 htop h.2.2,
    if_neg (Nat.ne_of_lt hcn), hquiet, hv]
  rfl

/-- A span pass that has read all its bytes completes with their digest (40_command.md R107, R111). -/
theorem engineStep_hashing_full (s : State) (i : Instr) (p b : List Byte) (hone : onePassText i = false)
    (hd : s.disturbed = false) (htop : s.lat.src.toNat + b.length ≤ addressSpace) :
    (hashing s i b.length p b).engineStep = s.complete (s.digest i.alg i.dseed b) b.length := by
  rw [engineStep_hashing_span s i b.length p b hone hd, spanNext, if_neg fun h => Nat.not_lt.2 htop h.2.2, if_pos rfl]
  exact congrArg (s.complete · b.length) (finishAcc_absorbAll s i b)

/-- The span pass of a SPAN command comes to the command's end. -/
theorem span_ends (s : State) (i : Instr) (hspan : i.shape = .span) (hd : s.disturbed = false) :
    ∃ n, n ≤ s.lat.len.toNat + 1 ∧ State.engineRun n (hashing s i s.lat.len.toNat [] []) = s.run i := by
  have hone : onePassText i = false := by rw [onePassText, hspan]; rfl
  by_cases htop : s.lat.src.toNat + s.lat.len.toNat ≤ addressSpace
  · obtain ⟨b, hb, _, hstop⟩ := exists_passes s (fun _ => True) hd
    refine ⟨b.length + 1, Nat.succ_le_succ hb.limit, ?_⟩
    rw [engineRun_succ, engineRun_hashing s i _ [] b hone hd htop hb hb.limit]
    by_cases hlen : b.length = s.lat.len.toNat
    · rw [← hlen, engineStep_hashing_full s i [] b hone hd hb.space]
      exact (run_of_spanInput s i b hspan ⟨hlen.symm, hb.space, hb.holds, hb.steady⟩).symm
    · have hlt := Nat.lt_of_le_of_ne hb.limit hlen
      rw [engineStep_hashing_span s i _ [] b hone hd, spanNext, if_neg fun h => Nat.not_lt.2 htop h.2.2, if_neg hlen]
      cases hquiet : s.sideEffectAt (s.lat.src.toNat + b.length) with
      | true =>
        have hfree := (sameButWork_hashing s i s.lat.len.toNat [] b).replayFree_of_reads i hb rfl (fun _ => htop)
          fun htext => by rw [hspan] at htext; cases htext
        exact hfree.trans (hb.run_spanMeets i hspan hlt htop hquiet).symm
      | false =>
        cases hv : s.mem.read (s.lat.src.toNat + b.length) with
        | none => exact (hb.run_spanBus i hspan hlt htop hquiet hv).symm
        | some v => exact absurd trivial (hstop hlt ((Nat.add_lt_add_left hlt _).trans_le htop) hquiet v hv)
  · have hrange := Nat.lt_of_not_le htop
    have h0 : 0 < s.lat.len.toNat := by have := s.lat.src.isLt; simp only [addressSpace] at hrange; omega
    refine ⟨1, by omega, ?_⟩
    rw [engineRun_succ, State.engineRun, engineStep_hashing_span s i _ [] [] hone hd, spanNext, if_pos ⟨rfl, h0, hrange⟩]
    exact (run_spanRange s i hspan h0 hrange).symm

/-- The passes of a two-pass TEXT come to the command's end (40_command.md R106). -/
theorem scan_twoPass_ends (s : State) (i : Instr) (h2 : twoPass i = true) (hd : s.disturbed = false) :
    ∃ n, n ≤ 2 * s.lat.len.toNat + 2 ∧ State.engineRun n (scanning s i []) = s.run i := by
  have htext : i.shape = .text := ((twoPass_iff i).1 h2).1
  obtain ⟨b, hb, hrun | ⟨hin, hrun⟩⟩ := scan_ends s i (scanning s i) (secondPass s i) htext hd
    (fun b => engineStep_scanning s i b hd) fun b => ⟨sameButWork_scanning s i b, rfl⟩
  · exact ⟨_, by have := hb.limit; omega, hrun⟩
  · have hone := onePassText_false_of_twoPass i h2
    refine ⟨b.length + 1 + (b.length + 1), by have := hb.limit; omega, ?_⟩
    rw [engineRun_add, hrun, engineRun_succ, secondPass,
      engineRun_hashing s i b.length _ b hone hd hb.space hb (Nat.le_refl _), engineStep_hashing_full s i _ b hone hd hb.space]
    exact (run_of_textInput s i b htext hin).symm

/-- Only the MurMur family takes the length up front (44_murmur2.md R171, R173). -/
theorem startAcc_of_onePassText (s : State) (i : Instr) (n m : Nat) (h : onePassText i = true) :
    startAcc s i n = startAcc s i m := by
  have hmurmur : Alg.isMurmur i.alg = false := by simpa using (Bool.and_eq_true_iff.1 h).2
  unfold startAcc
  generalize i.alg = a at hmurmur ⊢
  cases a
  case murmur2 => cases hmurmur
  case murmur2_64 => cases hmurmur
  all_goals rfl

/-- The step after the terminator of a one-pass TEXT completes the command with the digest of its text (40_command.md R105,
R111). -/
theorem engineStep_measured (s : State) (i : Instr) (b : List Byte) (hone : onePassText i = true)
    (hd : s.disturbed = false) (hlt : b.length < s.lat.len.toNat) :
    (measured s i b).engineStep = s.complete (s.digest i.alg i.dseed b) b.length := by
  rw [engineStep_of_hash (measured s i b) i rfl hd, if_pos hone, State.textHashStep]
  refine (if_neg hlt.ne).trans ((if_pos rfl).trans ?_)
  have hfinish := finishAcc_absorbAll s i b
  rw [startAcc_of_onePassText s i b.length s.lat.len.toNat hone] at hfinish
  exact congrArg (s.complete · b.length) ((finishAcc_congr rfl ..).trans hfinish)

/-- The pass of a one-pass TEXT comes to the command's end (40_command.md R105). -/
theorem scan_onePass_ends (s : State) (i : Instr) (hone : onePassText i = true) (hd : s.disturbed = false) :
    ∃ n, n ≤ s.lat.len.toNat + 2 ∧ State.engineRun n (hashing s i s.lat.len.toNat [] []) = s.run i := by
  have htext : i.shape = .text := eq_of_beq (Bool.and_eq_true_iff.1 hone).1
  obtain ⟨b, hb, hrun | ⟨hin, hrun⟩⟩ := scan_ends s i (hashing s i s.lat.len.toNat []) (measured s i) htext hd
    (fun b => engineStep_hashing_text s i b hone hd) fun b => ⟨sameButWork_hashing s i _ [] b, rfl⟩
  · exact ⟨_, by have := hb.limit; omega, hrun⟩
  · refine ⟨b.length + 1 + 1, by have := hb.limit; omega, ?_⟩
    rw [engineRun_succ, hrun, engineStep_measured s i b hone hd hin.2.1]
    exact (run_of_textInput s i b htext hin).symm

/-- A command whose input range is already written when its first pass begins ends at the next step, as from its first read
(log 6). -/
theorem engineStep_of_disturbed (s t : State) (i : Instr) (h : SameButWork s t) (hp : t.past = [])
    (hphase : t.phase = .scan i ∨ t.phase = .hash i) (hd : t.disturbed = true) : t.engineStep = s.run i := by
  have hreplay : t.engineStep = t.replay i := by
    rw [State.engineStep]
    obtain hphase | hphase := hphase <;> rw [hphase] <;> exact if_pos hd
  rw [hreplay, ← h.run i, State.run, fresh_of_nil t hp]

/-- A command that is not held waits for nothing (40_command.md R102). -/
theorem started_of_not_held (s : State) (i : Instr) (h : s.holds i = false) : s.started i.alg = s := by
  by_cases ha : i.alg = .crc32
  · rw [ha]
    refine s.awaitTable_of_ready fun hen => (tableReady_iff s).1 ?_
    simpa [State.holds, ha, hen] using h
  · exact s.started_of_ne i.alg ha

/-- From the start of its first pass a command comes to its end, as the shape's passes do. -/
theorem passes_end (s : State) (i : Instr) :
    ∃ n, n ≤ 2 * s.lat.len.toNat + 2 ∧
      State.engineRun n (if twoPass i then scanning s i [] else hashing s i s.lat.len.toNat [] []) = s.run i := by
  cases hd : s.disturbed with
  | true =>
    refine ⟨1, by omega, ?_⟩
    split
    · exact engineStep_of_disturbed s _ i (sameButWork_scanning s i []) rfl (.inl rfl) hd
    · exact engineStep_of_disturbed s _ i (sameButWork_hashing s i _ [] []) rfl (.inr rfl) hd
  | false =>
    by_cases h2 : twoPass i = true
    · rw [if_pos h2]
      exact scan_twoPass_ends s i h2 hd
    · rw [if_neg h2]
      cases hs : i.shape with
      | span =>
        obtain ⟨n, hn, hrun⟩ := span_ends s i hs hd
        exact ⟨n, by omega, hrun⟩
      | text =>
        have hone : onePassText i = true := by simpa [onePassText, twoPass, hs] using h2
        obtain ⟨n, hn, hrun⟩ := scan_onePass_ends s i hone hd
        exact ⟨n, by omega, hrun⟩

/-- Settles O22: the first step starts the first pass, and the passes come to the end that `exec` answers with. -/
theorem engineStepsReachTheCommandsCompletion : Obligations.EngineStepsReachTheCommandsCompletion := by
  intro i s hp hdecode hheld
  obtain ⟨n, hn, hrun⟩ := passes_end s i
  have hfirst : s.engineStep = if twoPass i then scanning s i [] else hashing s i s.lat.len.toNat [] [] := by
    rw [s.engineStep_of_held i hp hdecode hheld]
    rfl
  refine ⟨n + 1, Nat.succ_le_succ hn, ?_⟩
  rw [exec_of_run rfl, started_of_not_held s i hheld, State.engineRun, hfirst, hrun]

end Sys2Proof.Machine
end

section
/-! SUPPORT. The CRC32 engine's arithmetic (41_crc32.md R130, R134): the bit step is linear over XOR and a plain shift on an
even word, so the low byte of `step^8` can be looked up; and the folds of the byte-wise families, which chain (R135). -/

namespace Sys2Proof.Machine

/-! The bit step -/

/-- A bit step shifts right, and XORs the polynomial in when the bit shifted out is 1. -/
theorem crcStep_eq (p r : Word) : crcStep p r = (r >>> 1) ^^^ (if r.getLsbD 0 then p else 0#32) := by
  rw [crcStep, BitVec.and_one_eq_setWidth_ofBool_getLsbD]
  cases r.getLsbD 0
  · simp
  · have hmask : (0#32 - BitVec.setWidth 32 (BitVec.ofBool true) : Word) = BitVec.allOnes 32 := by decide
    rw [hmask, BitVec.and_allOnes, if_pos rfl]

/-- The bit step is linear over XOR. -/
theorem crcStep_xor (p x y : Word) : crcStep p (x ^^^ y) = crcStep p x ^^^ crcStep p y := by
  have hpoly : (if (x ^^^ y).getLsbD 0 then p else 0#32) =
      (if x.getLsbD 0 then p else 0#32) ^^^ (if y.getLsbD 0 then p else 0#32) := by
    rw [BitVec.getLsbD_xor]
    cases x.getLsbD 0 <;> cases y.getLsbD 0 <;> simp
  rw [crcStep_eq, crcStep_eq, crcStep_eq, hpoly, BitVec.ushiftRight_xor_distrib]
  ac_rfl

/-- Eight bit steps are linear over XOR. -/
theorem crcStep8_xor (p x y : Word) : crcStep8 p (x ^^^ y) = crcStep8 p x ^^^ crcStep8 p y := by
  simp only [crcStep8, crcStep_xor]

/-- `k` bit steps on a word that has its low `k` bits 0 only shift it: none of them sees the polynomial. -/
theorem crcStep_iterate_of_low_zero (p r : Word) (k : Nat) (h : ∀ j < k, r.getLsbD j = false) :
    (crcStep p)^[k] r = r >>> k := by
  induction k with
  | zero => simp
  | succ k ih =>
    have hbit : (r >>> k).getLsbD 0 = false := by simpa using h k (Nat.lt_succ_self k)
    rw [Function.iterate_succ_apply', ih fun j hj => h j (by omega), crcStep_eq, hbit, BitVec.shiftRight_add]
    simp

/-- With the polynomial 0 a bit step is a shift. -/
theorem crcStep_zeroPoly (r : Word) : crcStep 0#32 r = r >>> 1 := by
  rw [crcStep_eq, ite_self, BitVec.xor_zero]

/-- With the polynomial 0 eight bit steps shift the low byte out. -/
theorem crcStep8_zeroPoly (r : Word) : crcStep8 0#32 r = r >>> 8 := by
  simp only [crcStep8, crcStep_zeroPoly, ← BitVec.shiftRight_add]

/-- Eight bit steps on a word whose low byte is 0 shift it by a byte. -/
theorem crcStep8_of_lowByte_zero (p r : Word) (h : ∀ j < 8, r.getLsbD j = false) : crcStep8 p r = r >>> 8 :=
  crcStep_iterate_of_low_zero p r 8 h

/-- A word below 256 has nothing above its low byte. -/
theorem ushiftRight_eight_of_lt (x : Word) (h : x.toNat < 256) : x >>> 8 = 0#32 := by
  apply BitVec.eq_of_toNat_eq
  rw [BitVec.toNat_ushiftRight, Nat.shiftRight_eq_div_pow]
  exact Nat.div_eq_of_lt h

/-! The entries -/

/-- The entry at an index that is held in a word of any width. -/
theorem crcEntry_toNat {w : Nat} (p : Word) (n : BitVec w) : crcEntry p n.toNat = crcStep8 p (n.setWidth 32) := by
  rw [crcEntry, BitVec.ofNat_toNat]

/-- Seven shifts bring the bit of 0x80 down to 1, and the eighth step turns it into the polynomial (41_crc32.md R130). -/
theorem crcEntry_0x80 (p : Word) : crcEntry p 0x80 = p := by
  have hshift : (crcStep p)^[7] 0x80#32 = 1#32 := crcStep_iterate_of_low_zero p 0x80#32 7 (by decide)
  calc crcEntry p 0x80 = crcStep p ((crcStep p)^[7] 0x80#32) := rfl
    _ = p := by rw [hshift, crcStep_eq]; simp

/-- Settles O39: no step on 0 sees the polynomial, the last step on 0x80 alone does, and the polynomial 0 leaves a shift by
the whole byte. -/
theorem tableEntryCorners : Obligations.TableEntryCorners := by
  refine fun p => ⟨crcStep8_of_lowByte_zero p 0#32 (by decide), crcEntry_0x80 p, fun n hn => ?_⟩
  rw [crcEntry, crcStep8_zeroPoly, ushiftRight_eight_of_lt _ (by rw [BitVec.toNat_ofNat]; omega)]

/-! The table form and the bitwise form -/

/-- A word is its upper bytes and its low byte, joined by XOR. -/
theorem xor_lowByte (x : Word) : ((x >>> 8) <<< 8) ^^^ (x &&& 0xFF#32) = x := by
  rw [← lowByte_setWidth]
  apply BitVec.eq_of_getLsbD_eq
  intro j hj
  by_cases hlow : j < 8
  · simp [hj, hlow]
  · simp [hj, hlow, show 8 + (j - 8) = j by omega]

/-- Eight bit steps shift the low byte out and XOR in the eight bit steps on it alone (41_crc32.md R134). -/
theorem crcStep8_eq_lowByte (p x : Word) : crcStep8 p x = (x >>> 8) ^^^ crcStep8 p (x &&& 0xFF#32) := by
  have hlow : ∀ j < 8, ((x >>> 8) <<< 8).getLsbD j = false := fun j hj => by simp [hj]
  have hhigh : ((x >>> 8) <<< 8) >>> 8 = x >>> 8 := by
    apply BitVec.eq_of_getLsbD_eq
    intro j hj
    by_cases hin : 8 + j < 32
    · simp [hin]
    · simp [hin, BitVec.getLsbD_of_ge x (8 + j) (by omega)]
  calc crcStep8 p x = crcStep8 p ((x >>> 8) <<< 8) ^^^ crcStep8 p (x &&& 0xFF#32) := by rw [← crcStep8_xor, xor_lowByte]
    _ = (x >>> 8) ^^^ crcStep8 p (x &&& 0xFF#32) := by rw [crcStep8_of_lowByte_zero p _ hlow, hhigh]

/-- XORing a byte into a word leaves the word's upper bytes. -/
theorem xor_zext32_ushiftRight (c : Word) (b : Byte) : (c ^^^ zext32 b) >>> 8 = c >>> 8 := by
  have hb : zext32 b >>> 8 = 0#32 := ushiftRight_eight_of_lt _ (by rw [zext32, BitVec.toNat_setWidth]; omega)
  rw [BitVec.ushiftRight_xor_distrib, hb, BitVec.xor_zero]

/-- The update through the table of 41_crc32.md R130 is the bitwise one. -/
theorem crcUpdTable_eq_crcUpdBitwise (p : Word) (t : BitVec 8 → Word) (ht : ∀ n, t n = crcStep8 p (n.setWidth 32)) :
    crcUpdTable t = crcUpdBitwise p := by
  funext c b
  rw [crcUpdTable, crcUpdBitwise, crcStep8_eq_lowByte p (c ^^^ zext32 b), xor_zext32_ushiftRight, ht, ← lowByte_setWidth,
    BitVec.setWidth_eq_extractLsb' (show 8 ≤ 32 by decide)]

/-- Settles O40: the entry of the byte shifted out is its eight bit steps, so each update is the same, and the folds are. -/
theorem tableAndBitwiseFormsAgree : Obligations.TableAndBitwiseFormsAgree := by
  refine fun p => ⟨fun c b => ?_, fun b seed => ?_⟩
  · rw [crcEntry_toNat, BitVec.setWidth_eq, crcStep8_eq_lowByte p (c ^^^ _), ← xor_zext32_ushiftRight c b, zext32]
  · rw [crcUpdTable_eq_crcUpdBitwise p _ fun n => crcEntry_toNat p n]

/-! Chaining -/

/-- The seed of a CRC and its result are both complemented, so the complements between two runs cancel (41_crc32.md R135). -/
theorem fCrc32_append (u : Word → Byte → Word) (x y : List Byte) (s : Word) :
    fCrc32 u (x ++ y) s = fCrc32 u y (fCrc32 u x s) := by
  rw [fCrc32, fCrc32, fCrc32, BitVec.not_not, List.foldl_append]

/-- The DJB step's shift and addition multiply by 33. -/
theorem add_shiftLeft_five (h : Word) : h + (h <<< 5) = h * 33#32 :=
  calc h + (h <<< 5) = h * 1#32 + h * BitVec.twoPow 32 5 := by rw [BitVec.shiftLeft_eq_mul_twoPow, BitVec.mul_one]
    _ = h * 33#32 := by rw [← BitVec.mul_add]; rfl

/-- Settles O42: each function is a fold over its bytes, and the complements of CRC32 cancel. -/
theorem seedChaining : Obligations.SeedChaining := fun x y =>
  ⟨fun u s => fCrc32_append u x y s, fun _ => ⟨List.foldl_append, List.foldl_append⟩, add_shiftLeft_five,
    fun _ _ => List.foldl_append, fun _ _ => List.foldl_append⟩

end Sys2Proof.Machine
end

section
/-! SUPPORT. The table generator's run (41_crc32.md R131): a step writes one entry of those the run to the end writes, so the
run to the end stays the same along it, and 256 steps from FILL(0) are that run. -/

namespace Sys2Proof.Machine

/-! One step -/

@[simp] theorem tableStep_table_length (s : State) : s.tableStep.table.length = s.table.length := by
  unfold State.tableStep
  split <;> simp

/-- In FILL(n) before the last entry the generator moves to FILL(n+1). -/
theorem tableStep_tgen_fill (s : State) (n : Fin 256) (h : s.tgen = .fill n) (hn : n.val + 1 < 256) :
    s.tableStep.tgen = .fill ⟨n.val + 1, hn⟩ := by
  simp [State.tableStep, h, hn]

/-- After the last entry the generator is READY. -/
theorem tableStep_tgen_last (s : State) (n : Fin 256) (h : s.tgen = .fill n) (hn : ¬n.val + 1 < 256) :
    s.tableStep.tgen = .ready := by
  simp [State.tableStep, h, hn]

/-- A ready table has nothing left to run. -/
theorem finishTable_of_ready (s : State) (h : s.tgen = .ready) : s.finishTable = s := by
  simp [State.finishTable, h]

/-- Writing an entry makes one more entry of the front of the table a written one. -/
theorem take_succ_set (l : List Word) (n : Nat) (e : Word) (h : n < l.length) :
    (l.set n e).take (n + 1) = l.take n ++ [e] := by
  rw [List.take_add_one, List.take_set_of_le (Nat.le_refl n), List.getElem?_set_self h, Option.toList_some]

/-- A generator step is the first of the run to the end. -/
theorem finishTable_tableStep (s : State) (hlen : s.table.length = 256) : s.tableStep.finishTable = s.finishTable := by
  cases hg : s.tgen with
  | ready => rw [tableStep_of_ready s hg]
  | absent => simp [State.tableStep, hg]
  | fill n =>
    have hrest : crcEntries s.build.crcPoly (256 - n.val) n.val =
        crcEntry s.build.crcPoly n.val :: crcEntries s.build.crcPoly (256 - (n.val + 1)) (n.val + 1) := by
      rw [show 256 - n.val = 256 - (n.val + 1) + 1 by omega, crcEntries]
    have hfront := take_succ_set s.table n.val (crcEntry s.build.crcPoly n.val) (by omega)
    by_cases hn : n.val + 1 < 256
    · simp [State.finishTable, State.tableStep, hg, hn, hrest, hfront]
    · have hlast : n.val + 1 = 256 := by omega
      rw [hlast, List.take_of_length_le (by simp [hlen])] at hfront
      simp [State.finishTable, State.tableStep, hg, hrest, hfront, hlast, crcEntries]

/-! Steps in a row -/

/-- A run from FILL(n) that ends before the last entry. -/
theorem tableRun_tgen_fill (k : Nat) (s : State) (n : Fin 256) (h : s.tgen = .fill n) (hk : n.val + k < 256) :
    (s.tableRun k).tgen = .fill ⟨n.val + k, hk⟩ := by
  induction k generalizing s n with
  | zero => exact h
  | succ k ih =>
    rw [State.tableRun, ih _ _ (tableStep_tgen_fill s n h (by omega)) (by simp only; omega)]
    simp only [Nat.add_assoc, Nat.add_comm 1]

/-- READY is the end of every run. -/
theorem tableRun_of_ready (k : Nat) (s : State) (h : s.tgen = .ready) : s.tableRun k = s := by
  induction k with
  | zero => rfl
  | succ k ih => rw [State.tableRun, tableStep_of_ready s h, ih]

/-- A run from FILL(n) over all the entries left is READY. -/
theorem tableRun_tgen_ready (k : Nat) (s : State) (n : Fin 256) (h : s.tgen = .fill n) (hk : 256 ≤ n.val + k) :
    (s.tableRun k).tgen = .ready := by
  induction k generalizing s n with
  | zero => omega
  | succ k ih =>
    rw [State.tableRun]
    by_cases hn : n.val + 1 < 256
    · exact ih _ _ (tableStep_tgen_fill s n h hn) (by simp only; omega)
    · have hready := tableStep_tgen_last s n h hn
      rw [tableRun_of_ready k _ hready, hready]

/-- Steps do not change what the run to the end comes to. -/
theorem finishTable_tableRun (k : Nat) (s : State) (hlen : s.table.length = 256) :
    (s.tableRun k).finishTable = s.finishTable := by
  induction k generalizing s with
  | zero => rfl
  | succ k ih => rw [State.tableRun, ih s.tableStep (by rw [tableStep_table_length, hlen]), finishTable_tableStep s hlen]

/-- 256 or more steps from FILL(0) are the run to the end. -/
theorem tableRun_eq_finishTable (k : Nat) (s : State) (h : s.tgen = .fill 0) (hlen : s.table.length = 256)
    (hk : 256 ≤ k) : s.tableRun k = s.finishTable := by
  have hready := tableRun_tgen_ready k s 0 h (by simpa using hk)
  rw [← finishTable_tableRun k s hlen, finishTable_of_ready _ hready]

/-- The run to the end from FILL(0) writes every entry of 41_crc32.md R130. -/
theorem finishTable_tableAt (s : State) (h : s.tgen = .fill 0) (n : BitVec 8) :
    s.finishTable.tableAt n = crcStep8 s.build.crcPoly (n.setWidth 32) := by
  have htable : s.finishTable.table = crcEntries s.build.crcPoly 256 0 := by simp [State.finishTable, h]
  rw [State.tableAt, htable, List.getD_eq_getElem?_getD, crcEntries_getElem? _ _ _ _ n.isLt, Nat.zero_add, Option.getD_some,
    crcEntry_toNat]

/-- Settles O38: the generator is in FILL(k) after k steps, and 256 or more steps are the run to the end that a CRC32 command
waits for. -/
theorem generatorFillsTheTable : Obligations.GeneratorFillsTheTable := by
  intro s h hlen
  have hrun (k : Nat) (hk : 256 ≤ k) : s.tableRun k = s.finishTable := tableRun_eq_finishTable k s h hlen hk
  refine ⟨fun k hk => ?_, fun k hk => ?_, ?_, fun n => ?_, fun hen => ?_⟩
  · rw [State.tableReady, tableRun_tgen_fill k s 0 h (by simpa using hk)]
    rfl
  · rw [hrun k hk, hrun 256 (Nat.le_refl _)]
  · exact (tableReady_iff _).2 (tableRun_tgen_ready 256 s 0 h (by simp))
  · rw [hrun 256 (Nat.le_refl _), finishTable_tableAt s h n]
  · rw [hrun 256 (Nat.le_refl _), State.awaitTable, if_pos hen]

end Sys2Proof.Machine
end

section
/-! SUPPORT. What a CRC32 command computes (41_crc32.md R132, R133): the bitwise CRC, whether the build has the table or not. -/

namespace Sys2Proof.Machine

/-- After the wait of 40_command.md R102 the update of the build in hand is the bitwise one. -/
theorem crcUpd_started (s : State) (h : TableSound s) :
    (s.started .crc32).crcUpd = crcUpdBitwise s.build.crcPoly := by
  funext c v
  rw [State.crcUpd, State.started_build]
  split
  · rw [crcUpdTable_eq_crcUpdBitwise _ _ (tableAt_started s h ‹_›)]
  · rfl

/-- After the wait, CRC32 is the bitwise CRC with the seed of 40_command.md R103. -/
theorem digest_crc32_started (s : State) (h : TableSound s) (d : Bool) (b : List Byte) :
    (s.started .crc32).digest .crc32 d b =
      .w32 (fCrc32 (crcUpdBitwise s.build.crcPoly) b (s.seed32 s.build.crcDefaultSeed d)) := by
  rw [State.digest, State.digestCrc32, crcUpd_started s h, State.seed32, State.started_build, State.started_lat, State.seed32]

/-- Settles O8: each shape completes on its input, with the bitwise CRC. -/
theorem crc32CommandsComplete : Obligations.Crc32CommandsComplete := by
  refine fun d s b h => ⟨fun hb => ?_, fun hb => ?_⟩
  · exact (exec_of_spanInput .crc32 d s b hb).trans (by rw [digest_crc32_started s h]; rfl)
  · exact (exec_of_textInput .crc32 d s b hb).trans (by rw [digest_crc32_started s h]; rfl)

end Sys2Proof.Machine
end

section
/-! SUPPORT. What the DJB commands compute (42_djb.md R150, R151), and the completion of both shapes of any algorithm. -/

namespace Sys2Proof.Machine

/-- Both shapes of an algorithm complete on their input with what it computes (40_command.md R107, R111). -/
theorem completes_digest (a : Alg) (d : Bool) (s : State) (b : List Byte) :
    Claims.Completes (instrOf a .span d) (instrOf a .text d) s (s.started a) b ((s.started a).digest a d b) :=
  ⟨exec_of_spanInput a d s b, exec_of_textInput a d s b⟩

/-- DJB2 folds its byte step over the input from the seed of 40_command.md R103. -/
theorem digest_djb2 (d : Bool) (s : State) (b : List Byte) :
    s.digest .djb2 d b =
      .w32 (b.foldl (fun h v => h + (h <<< 5) + v.setWidth 32) (Claims.seedOf32 s d s.build.djbBasis)) := rfl

/-- DJB2A folds its byte step over the input from the seed of 40_command.md R103. -/
theorem digest_djb2a (d : Bool) (s : State) (b : List Byte) :
    s.digest .djb2a d b =
      .w32 (b.foldl (fun h v => (h + (h <<< 5)) ^^^ v.setWidth 32) (Claims.seedOf32 s d s.build.djbBasis)) := rfl

/-- Settles O9: a DJB command waits for nothing, and completes with the fold of its algorithm. -/
theorem djbCommandsComplete : Obligations.DjbCommandsComplete := by
  refine fun d s b => ⟨?_, ?_⟩
  · rw [← digest_djb2]
    exact completes_digest .djb2 d s b
  · rw [← digest_djb2a]
    exact completes_digest .djb2a d s b

end Sys2Proof.Machine
end

section
/-! SUPPORT. What the FNV commands compute (43_fnv.md R160, R161). -/

namespace Sys2Proof.Machine

/-- FNV1A folds its byte step over the input from the seed of 40_command.md R103, with the build's prime and basis. -/
theorem digest_fnv1a (d : Bool) (s : State) (b : List Byte) :
    s.digest .fnv1a d b =
      .w32 (b.foldl (fun h v => (h ^^^ v.setWidth 32) * s.build.fnv32Prime) (Claims.seedOf32 s d s.build.fnv32Basis)) := rfl

/-- FNV1A64 folds its byte step over the input from the 64-bit seed of 40_command.md R103, with the build's prime and
basis. -/
theorem digest_fnv1a64 (d : Bool) (s : State) (b : List Byte) :
    s.digest .fnv1a64 d b =
      .w64 (b.foldl (fun h v => (h ^^^ v.setWidth 64) * s.build.fnv64Prime) (Claims.seedOf64 s d s.build.fnv64Basis)) := rfl

/-- Settles O10: an FNV command waits for nothing, and completes with the fold of its algorithm. -/
theorem fnvCommandsComplete : Obligations.FnvCommandsComplete := by
  refine fun d s b => ⟨?_, ?_⟩
  · rw [← digest_fnv1a]
    exact completes_digest .fnv1a d s b
  · rw [← digest_fnv1a64]
    exact completes_digest .fnv1a64 d s b

end Sys2Proof.Machine
end

section
/-! SUPPORT. The input of a MurMur command (44_murmur2.md R171 to R173, 45_murmur3.md R190): the word loads read the whole
words in order, and the bytes of the tail at their little-endian places are the tail's number (20_memory.md R64, R66). -/

namespace Sys2Proof.Machine

/-! The whole words -/

section
variable {α : Type} {n : Nat} {enc : α → List Byte} (henc : ∀ w, (enc w).length = n)
include henc

/-- Words of `n` bytes each have so many bytes together. -/
theorem length_flatMap_words (ws : List α) : (ws.flatMap enc).length = n * ws.length := by
  rw [List.length_flatMap, funext henc, List.map_const', List.sum_replicate_nat, Nat.mul_comm]

/-- Before a tail shorter than a word stand exactly the whole words. -/
theorem length_words_append_div (ws : List α) (t : List Byte) (ht : t.length < n) :
    (ws.flatMap enc ++ t).length / n = ws.length := by
  rw [List.length_append, length_flatMap_words henc, Nat.mul_add_div (by omega), Nat.div_eq_of_lt ht, Nat.add_zero]

/-- After the whole words stands the tail. -/
theorem drop_words_append (ws : List α) (t : List Byte) : (ws.flatMap enc ++ t).drop (n * ws.length) = t :=
  List.drop_left' (length_flatMap_words henc ws)

/-- A load that reads a word back from its bytes at any offset reads the whole words in order. -/
theorem foldl_load_words {β : Type} {load : List Byte → Nat → α}
    (hload : ∀ p q w, load (p ++ enc w ++ q) p.length = w) (g : β → α → β) (x : β) (ws : List α) (t : List Byte) :
    (List.range ws.length).foldl (fun h j => g h (load (ws.flatMap enc ++ t) (n * j))) x = ws.foldl g x := by
  induction ws using List.reverseRecOn generalizing t with
  | nil => rfl
  | append_singleton ws w ih =>
    have hbytes : (ws ++ [w]).flatMap enc ++ t = ws.flatMap enc ++ (enc w ++ t) := by simp
    have hlast : load (ws.flatMap enc ++ (enc w ++ t)) (n * ws.length) = w := by
      rw [← length_flatMap_words henc, ← List.append_assoc, hload]
    rw [hbytes, List.length_append, List.length_singleton, List.range_succ, List.foldl_concat, List.foldl_concat, ih,
      hlast]

end

/-- A word has four bytes. -/
theorem length_bytesOf32 (w : Word) : (Claims.bytesOf32 w).length = 4 := rfl

/-- A double word has eight bytes. -/
theorem length_bytesOf64 (w : DWord) : (Claims.bytesOf64 w).length = 8 := rfl

/-- `LE32` at the places of the words reads the words in order (20_memory.md R66). -/
theorem foldl_le32_words (g : Word → Word → Word) (x : Word) (ws : List Word) (t : List Byte) :
    (List.range ws.length).foldl (fun h j => g h (le32 (ws.flatMap Claims.bytesOf32 ++ t) (4 * j))) x = ws.foldl g x :=
  foldl_load_words length_bytesOf32 (fun p q w => (wordLoadsAreLittleEndian p q w 0#64).1) g x ws t

/-- `LE64` at the places of the double words reads the double words in order (20_memory.md R66). -/
theorem foldl_le64_words (g : DWord → DWord → DWord) (x : DWord) (ws : List DWord) (t : List Byte) :
    (List.range ws.length).foldl (fun h j => g h (le64 (ws.flatMap Claims.bytesOf64 ++ t) (8 * j))) x = ws.foldl g x :=
  foldl_load_words length_bytesOf64 (fun p q w => (wordLoadsAreLittleEndian p q 0#32 w).2) g x ws t

/-! The tail -/

/-- The unsigned number whose little-endian bytes are `t` (20_memory.md R64), in `n` bits. -/
def leNumber (n : Nat) (t : List Byte) : BitVec n := t.foldr (fun v k => (k <<< 8) ||| v.setWidth n) 0#n

/-- A byte at its little-endian place, XORed into `h`. -/
def xorAtPlace {n : Nat} (h : BitVec n) (x : Byte × Nat) : BitVec n := h ^^^ (x.1.setWidth n <<< (8 * x.2))

/-- A number with one more byte below it, which shares no bit with the others. -/
theorem leNumber_cons (n : Nat) (v : Byte) (t : List Byte) :
    leNumber n (v :: t) = (leNumber n t <<< 8) ^^^ v.setWidth n := by
  apply BitVec.eq_of_getLsbD_eq
  intro i hi
  by_cases h : i < 8
  · simp [leNumber, h]
  · simp [leNumber, BitVec.getLsbD_of_ge v i (Nat.le_of_not_lt h)]

/-- The bytes XORed at their places, from place `k` on, are their number at place `k`. -/
theorem foldr_zipIdx_xorAtPlace {n : Nat} (t : List Byte) (h : BitVec n) (k : Nat) :
    (t.zipIdx k).foldr (fun x h => xorAtPlace h x) h = h ^^^ (leNumber n t <<< (8 * k)) := by
  induction t generalizing k with
  | nil => simp [leNumber]
  | cons v t ih =>
    rw [List.zipIdx_cons, List.foldr_cons, ih, xorAtPlace, leNumber_cons, BitVec.shiftLeft_xor_distrib,
      ← BitVec.shiftLeft_add, Nat.mul_succ, Nat.add_comm 8, BitVec.xor_assoc]

/-- The tail XORed from the highest offset down is XORed as its number. -/
theorem foldl_downTail_xorAtPlace {n : Nat} (t : List Byte) (h : BitVec n) :
    (downTail t).foldl xorAtPlace h = h ^^^ leNumber n t := by
  rw [downTail, List.foldl_reverse, foldr_zipIdx_xorAtPlace, Nat.mul_zero, BitVec.shiftLeft_zero]

/-- The combined tail is the tail's little-endian number (44_murmur2.md R172, 45_murmur3.md R190). -/
theorem combinedTail_eq_leWord (t : List Byte) : combinedTail t = Claims.leWord t :=
  (foldl_downTail_xorAtPlace t 0#32).trans BitVec.zero_xor

end Sys2Proof.Machine
end

section
/-! SUPPORT. What the MURMUR2 and MURMUR2A commands compute (44_murmur2.md R170 to R172). -/

namespace Sys2Proof.Machine

/-- MURMUR2 XORs a tail of one to three bytes as its number, with one multiply (44_murmur2.md R171). -/
theorem murmur2Tail_eq (m h : Word) (t : List Byte) (ht : t.length ≤ 3) :
    murmur2Tail m h t = if t = [] then h else (h ^^^ Claims.leWord t) * m := by
  have hxor : h ^^^ Claims.leWord t = (downTail t).foldl xorAtPlace h := (foldl_downTail_xorAtPlace t h).symm
  rw [hxor]
  match t, ht with
  | [], _ => rfl
  | [x], _ => simp [murmur2Tail, downTail, byteAt, xorAtPlace, zext32]
  | [x, y], _ => simp [murmur2Tail, downTail, byteAt, xorAtPlace, zext32]
  | [x, y, z], _ => simp [murmur2Tail, downTail, byteAt, xorAtPlace, zext32]

/-- MURMUR2A mixes a tail of up to three bytes one by one under PER_BYTE (44_murmur2.md R172). -/
theorem murmur2aTail_perByte (m h : Word) (t : List Byte) (ht : t.length ≤ 3) :
    murmur2aTail .perByte m h t = Claims.perByteTail m h t := by
  have hlow (v : Byte) : zext32 v <<< (8 * 0) = v.setWidth 32 := BitVec.shiftLeft_zero _
  match t, ht with
  | [], _ => rfl
  | [x], _ => exact congrArg (mmix m _) (hlow x)
  | [x, y], _ => exact congrArg (mmix m _) (hlow x)
  | [x, y, z], _ => exact congrArg (mmix m _) (hlow x)

/-- MURMUR2A mixes the tail as one number under COMBINED (44_murmur2.md R172). -/
theorem murmur2aTail_combined (m h : Word) (t : List Byte) :
    murmur2aTail .combined m h t = Claims.mixWord m h (Claims.leWord t) :=
  congrArg (mmix m h) (combinedTail_eq_leWord t)

/-- MURMUR2 on whole words and a tail (44_murmur2.md R171). -/
theorem fMurmur2_words (m seed : Word) (ws : List Word) (t : List Byte) (ht : t.length ≤ 3) :
    let b := ws.flatMap Claims.bytesOf32 ++ t
    let h := ws.foldl (Claims.mixWord m) (seed ^^^ BitVec.ofNat 32 b.length)
    fMurmur2 m b seed = Claims.finishMurmur2 m (if t = [] then h else (h ^^^ Claims.leWord t) * m) := by
  intro b h
  have hq : b.length / 4 = ws.length := length_words_append_div length_bytesOf32 ws t (by omega)
  have hdrop : b.drop (4 * ws.length) = t := drop_words_append length_bytesOf32 ws t
  simp only [fMurmur2, hq, hdrop]
  rw [foldl_le32_words (mmix m), murmur2Tail_eq m _ t ht]
  rfl

/-- MURMUR2A on whole words and a tail, the length mixed as a last word (44_murmur2.md R172). -/
theorem fMurmur2a_words (form : Config.Mm2aTail) (m seed : Word) (ws : List Word) (t : List Byte) (ht : t.length ≤ 3) :
    let b := ws.flatMap Claims.bytesOf32 ++ t
    let h := ws.foldl (Claims.mixWord m) seed
    fMurmur2a form m b seed =
      Claims.finishMurmur2 m (Claims.mixWord m (murmur2aTail form m h t) (BitVec.ofNat 32 b.length)) := by
  intro b h
  have hq : b.length / 4 = ws.length := length_words_append_div length_bytesOf32 ws t (by omega)
  have hdrop : b.drop (4 * ws.length) = t := drop_words_append length_bytesOf32 ws t
  simp only [fMurmur2a, hq, hdrop]
  rw [foldl_le32_words (mmix m)]
  rfl

/-- Settles O11: a MURMUR2 command waits for nothing, and completes with its algorithm on the words and the tail. -/
theorem murmur2CommandsComplete : Obligations.Murmur2CommandsComplete := by
  intro d s ws t ht m b h
  rw [← fMurmur2_words m _ ws t ht]
  exact completes_digest .murmur2 d s b

/-- Settles O12: a MURMUR2A command waits for nothing, and completes with its algorithm on the words and the tail. -/
theorem murmur2aCommandsComplete : Obligations.Murmur2aCommandsComplete := by
  intro d s ws t ht m b h h1
  have htail : murmur2aTail s.build.mm2aTail m h t = h1 := by
    simp only [h1]
    cases s.build.mm2aTail with
    | perByte => exact murmur2aTail_perByte m h t ht
    | combined => exact murmur2aTail_combined m h t
  rw [← htail, ← fMurmur2a_words _ m _ ws t ht]
  exact completes_digest .murmur2a d s b

end Sys2Proof.Machine
end

section
/-! SUPPORT. What the MURMUR2_64 commands compute (44_murmur2.md R173). -/

namespace Sys2Proof.Machine

/-- MURMUR2_64 XORs its tail as its number, with one multiply (44_murmur2.md R173). -/
theorem murmur64Tail_eq (m h : DWord) (t : List Byte) :
    murmur64Tail m h t = if t = [] then h else (h ^^^ Claims.leDWord t) * m := by
  have hxor : (downTail t).foldl (fun h x => h ^^^ (zext64 x.1 <<< (8 * x.2))) h = h ^^^ Claims.leDWord t :=
    foldl_downTail_xorAtPlace t h
  cases t with
  | nil => rfl
  | cons v t => rw [murmur64Tail, hxor, if_pos (by simp), if_neg (List.cons_ne_nil v t)]

/-- MURMUR2_64 on whole double words and a tail (44_murmur2.md R173). -/
theorem fMurmur64_words (fold : Config.Mm64Fold) (m seed : DWord) (ws : List DWord) (t : List Byte) (ht : t.length ≤ 7) :
    let b := ws.flatMap Claims.bytesOf64 ++ t
    let h := ws.foldl (Claims.mixDWord fold m) (seed ^^^ (BitVec.ofNat 64 b.length * m))
    fMurmur64 fold m b seed = Claims.finishMurmur64 m (if t = [] then h else (h ^^^ Claims.leDWord t) * m) := by
  intro b h
  have hq : b.length / 8 = ws.length := length_words_append_div length_bytesOf64 ws t (by omega)
  have hdrop : b.drop (8 * ws.length) = t := drop_words_append length_bytesOf64 ws t
  simp only [fMurmur64, hq, hdrop]
  rw [foldl_le64_words (mix64 fold m), murmur64Tail_eq]
  rfl

/-- Settles O13: a MURMUR2_64 command waits for nothing, and completes with its algorithm on the words and the tail. -/
theorem murmur64CommandsComplete : Obligations.Murmur64CommandsComplete := by
  intro d s ws t ht m b h
  rw [← fMurmur64_words _ m _ ws t ht]
  exact completes_digest .murmur2_64 d s b

end Sys2Proof.Machine
end

section
/-! SUPPORT. The MurMur family does not chain its seeds (44_murmur2.md R174, 45_murmur3.md R191): with the bytes "a" and "b"
and seed 0 each algorithm shows it. -/

namespace Sys2Proof.Machine

/-- Settles O43: each part is one evaluation on "a" and "b". -/
theorem murmurFamilyDoesNotChain : Obligations.MurmurFamilyDoesNotChain :=
  ⟨⟨[0x61#8], [0x62#8], 0#32, by decide⟩, ⟨[0x61#8], [0x62#8], 0#32, by decide⟩, ⟨[0x61#8], [0x62#8], 0#64, by decide⟩,
    [0x61#8], [0x62#8], 0#32, by decide⟩

end Sys2Proof.Machine
end

section
/-! SUPPORT. What the MURMUR3 commands compute (45_murmur3.md R190). The obligation states the rotations with Lean's own
`rotateLeft`, and the model with `rotl32`. -/

namespace Sys2Proof.Machine

/-- The model's rotation by less than the word's width is Lean's. -/
theorem rotl32_eq_rotateLeft (x : Word) (n : Nat) (hn : n < 32) : rotl32 x n = x.rotateLeft n := by
  rw [BitVec.rotateLeft_def, Nat.mod_eq_of_lt hn]
  rfl

/-- The scramble with Lean's rotation. -/
theorem scr3_eq (c : Config.Build) (k : Word) : scr3 c k = (k * c.mm3C1).rotateLeft 15 * c.mm3C2 := by
  rw [scr3, rotl32_eq_rotateLeft _ 15 (by decide)]

/-- The mix of one word with Lean's rotation. -/
theorem mix3_eq (c : Config.Build) (h k : Word) : mix3 c h k = (h ^^^ scr3 c k).rotateLeft 13 * 5#32 + c.mm3C3 := by
  rw [mix3, rotl32_eq_rotateLeft _ 13 (by decide)]

/-- MURMUR3 XORs the scramble of its tail's number into the state, and nothing for no tail. -/
theorem murmur3Tail_eq (c : Config.Build) (h : Word) (t : List Byte) :
    murmur3Tail c h t = if t = [] then h else h ^^^ scr3 c (Claims.leWord t) := by
  rw [murmur3Tail, combinedTail_eq_leWord]
  cases t with
  | nil => rfl
  | cons v t => rw [if_pos (by simp), if_neg (List.cons_ne_nil v t)]

/-- MURMUR3 on whole words and a tail. -/
theorem fMurmur3_words (c : Config.Build) (seed : Word) (ws : List Word) (t : List Byte) (ht : t.length ≤ 3) :
    let b := ws.flatMap Claims.bytesOf32 ++ t
    let h := ws.foldl (mix3 c) seed
    let h1 := if t = [] then h else h ^^^ scr3 c (Claims.leWord t)
    fMurmur3 c b seed = Claims.finishMurmur3 c.mm3F1 c.mm3F2 (h1 ^^^ BitVec.ofNat 32 b.length) := by
  intro b h h1
  have hq : b.length / 4 = ws.length := length_words_append_div length_bytesOf32 ws t (by omega)
  have hdrop : b.drop (4 * ws.length) = t := drop_words_append length_bytesOf32 ws t
  simp only [fMurmur3, hq, hdrop]
  rw [foldl_le32_words (mix3 c), murmur3Tail_eq]
  rfl

/-- Settles O14: a MURMUR3 command waits for nothing, and completes with its algorithm on the words and the tail. -/
theorem murmur3CommandsComplete : Obligations.Murmur3CommandsComplete := by
  intro d s ws t ht
  simp only [← scr3_eq, ← mix3_eq]
  rw [← fMurmur3_words s.build _ ws t ht]
  exact completes_digest .murmur3 d s (ws.flatMap Claims.bytesOf32 ++ t)

end Sys2Proof.Machine
end

section
/-! SUPPORT. How a command ends and what can stop the machine (60_exceptions.md R201 to R206, R215): each agent's event ends a
running command in a completion or is the host's soft reset, none but a memory event of the host faults, and a LENGTH of 0, the
interrupt output, an idle block and a hardware reset do what the rules say. -/

namespace Sys2Proof.Machine

/-! The end of a command -/

/-- Settles O7: a command's run is one completion, a success or an error with its code. -/
theorem everyCommandEndsInOneCompletion : Obligations.EveryCommandEndsInOneCompletion := by
  intro i s
  refine ⟨_, exec_eq i s, ?_⟩
  obtain ⟨_, _, e⟩ | ⟨_, _, _, hcode, e⟩ := runCommand_cases i s <;> rw [e]
  · exact ⟨rfl, rfl, rfl, .inl ⟨rfl, rfl⟩⟩
  · exact ⟨rfl, rfl, rfl, .inr ⟨rfl, hcode⟩⟩

/-- `s` is busy and `t` is not: the event between them ends a command. -/
structure BusyFalls (s t : State) : Prop where
  before : s.busy = true
  after : t.busy = false

/-- An event that leaves BUSY as it is ends no command. -/
theorem BusyFalls.not_of_busy_eq {s t : State} (h : BusyFalls s t) (e : t.busy = s.busy) : False := by
  have hafter := h.after
  rw [e, h.before] at hafter
  cases hafter

/-- A write to CTRL ends a command only by a soft reset (40_command.md R113). -/
theorem srst_of_writeCtrl_busyFalls (s : State) (v : Word) (h : BusyFalls s (s.writeCtrl v)) : v.getLsbD 1 = true := by
  by_contra hsrst
  rw [s.writeCtrl_of_not_srst v hsrst] at h
  exact h.not_of_busy_eq rfl

/-- A register write ends a command only by a soft reset. -/
theorem srst_of_writeReg_busyFalls (s : State) (o : BitVec 8) (v : Word) (h : BusyFalls s (s.writeReg o v)) :
    o = 0x0C#8 ∧ v.getLsbD 1 = true := by
  obtain e | ⟨ho, e⟩ | ⟨_, e⟩ | ⟨_, e⟩ | ⟨_, e⟩ | ⟨_, e⟩ | ⟨_, e⟩ | ⟨_, e⟩ | ⟨_, e⟩ := writeReg_cases s o v <;> rw [e] at h
  case inr.inl => exact ⟨ho, srst_of_writeCtrl_busyFalls s v h⟩
  case inr.inr.inl =>
    rw [s.writeCmd_of_busy v h.before] at h
    exact (h.not_of_busy_eq rfl).elim
  all_goals exact (h.not_of_busy_eq rfl).elim

/-- The host's next event is a soft reset: the 32-bit write to CTRL with SRST = 1 (70_reset_and_hazards.md R232). -/
def NextIsSoftReset (s : State) : Prop :=
  ∃ v rest, s.script = .write .w32 0x0C#8 v :: rest ∧ v.getLsbD 1 = true

/-- A host event ends a command only by a soft reset. -/
theorem softReset_of_hostStep_busyFalls (s t : State) (hs : s.hostStep = .next t) (h : BusyFalls s t) :
    NextIsSoftReset s := by
  obtain rfl | ⟨o, v, rest, hscript, rfl⟩ | ⟨_, _, rfl⟩ | ⟨_, _, _, _, _, rfl⟩ | ⟨_, _, _, rfl⟩ | ⟨_, _, rfl⟩ :=
    hostStep_cases s t hs
  case inr.inl =>
    obtain ⟨rfl, hsrst⟩ := srst_of_writeReg_busyFalls s o v ⟨h.before, h.after⟩
    exact ⟨v, rest, hscript, hsrst⟩
  all_goals exact (h.not_of_busy_eq rfl).elim

/-- An engine step ends a command only by a completion. -/
theorem done_of_engineStep_busyFalls (s : State) (h : BusyFalls s s.engineStep) : s.engineStep.done = true := by
  obtain e | ⟨_, ⟨_, _, _, e⟩ | ⟨_, _, e⟩ | ⟨_, _, _, _, e⟩ | ⟨_, _, _, _, e⟩ | ⟨_, _, _, _, e⟩ | ⟨_, _, _, e⟩ |
    ⟨_, _, _, _, e⟩⟩ := engineStep_cases s <;> rw [e] at h ⊢
  case inr.inl | inr.inr.inl => cases h.after
  case inr.inr.inr.inr.inr.inr.inl | inr.inr.inr.inr.inr.inr.inr => rfl
  all_goals exact (h.not_of_busy_eq rfl).elim

/-- A turn `command` ends a command only by a completion. -/
theorem done_of_commandStep_busyFalls (s t : State) (hs : s.commandStep = .next t) (h : BusyFalls s t) :
    t.done = true := by
  obtain ⟨i, _, _, e⟩ | ⟨_, _, _, e⟩ | ⟨_, e⟩ := commandStep_cases s <;> rw [e] at hs <;> cases hs
  · obtain ⟨_, _, hdone, _⟩ := runCommand_results i s h.before
    exact hdone
  · rfl
  · exact done_of_engineStep_busyFalls s h

/-- The event of an agent ends a command only by a completion, or by a soft reset in the host's turn. -/
theorem agentStep_busyFalls (a : Config.Turn) (s t : State) (hs : State.agentStep a s = .next t) (h : BusyFalls s t) :
    t.done = true ∨ a = .host ∧ NextIsSoftReset s := by
  cases a with
  | host => exact .inr ⟨rfl, softReset_of_hostStep_busyFalls s t hs h⟩
  | engine => cases hs; exact .inl (done_of_engineStep_busyFalls s h)
  | tableGen => cases hs; exact (h.not_of_busy_eq (by simp [State.busy])).elim
  | command => exact .inl (done_of_commandStep_busyFalls s t hs h)

/-- Settles O58: a step is a hardware reset or one agent's event, and that ends a command only by a completion or a soft
reset. -/
theorem busyEndsByCompletionOrReset : Obligations.BusyEndsByCompletionOrReset := by
  intro s t hbusy hs hidle
  obtain ⟨hreset, _⟩ | ⟨_, hagent⟩ := step_cases s t hs
  · exact .inl hreset
  · obtain ⟨l, n, e⟩ := nextTurn_frame s
    rw [e] at hagent
    obtain hdone | ⟨hhost, v, rest, hscript, hsrst⟩ :=
      agentStep_busyFalls _ (s.withSchedule l n) t hagent ⟨hbusy, hidle⟩
    · exact .inr (.inl hdone)
    · exact .inr (.inr ⟨v, rest, hscript, hsrst, hhost⟩)

/-! What stops the machine -/

/-- With the reset input asserted, a step is the hardware reset (60_exceptions.md R206). -/
theorem step_of_reset (s : State) (h : s.resetLine = true) : step s = .next s.hardReset := if_pos h

/-- The turn of every agent but the host goes on. -/
theorem agentStep_goesOn (a : Config.Turn) (s : State) (h : a ≠ .host) : GoesOn (State.agentStep a s) := by
  cases a with
  | host => exact absurd rfl h
  | engine => exact ⟨s.engineStep, rfl⟩
  | tableGen => exact ⟨s.tableStep, rfl⟩
  | command =>
    obtain ⟨i, _, _, e⟩ | ⟨_, _, _, e⟩ | ⟨_, e⟩ := commandStep_cases s <;> exact ⟨_, e⟩

/-- Everything a step can do: go on, or be the host's event. -/
theorem step_goesOn_or_hostStep (s : State) :
    GoesOn (step s) ∨ s.nextTurn.1 = .host ∧ step s = s.nextTurn.2.hostStep := by
  cases hline : s.resetLine with
  | true => exact .inl ⟨_, step_of_reset s hline⟩
  | false =>
    have hstep : step s = State.agentStep s.nextTurn.1 s.nextTurn.2 := if_neg (by simp [hline])
    rw [hstep]
    by_cases hhost : s.nextTurn.1 = .host
    · exact .inr ⟨hhost, by rw [hhost]; rfl⟩
    · exact .inl (agentStep_goesOn _ _ hhost)

/-- Settles O59: every agent but the host goes on, and the host stops only at a memory event that leaves the address
space. -/
theorem noCommandStopsTheMachine : Obligations.NoCommandStopsTheMachine := by
  intro s
  obtain ⟨t, e⟩ | ⟨hhost, e⟩ := step_goesOn_or_hostStep s <;> rw [e]
  · exact ⟨fun _ h => (nomatch h), fun _ h => (nomatch h)⟩
  · obtain ⟨l, n, hturn⟩ := nextTurn_frame s
    rw [hturn]
    obtain ⟨hrefused, hfault⟩ := hostStep_fault (s.withSchedule l n)
    refine ⟨hrefused, fun f h => ?_⟩
    obtain ⟨hf, hmemb⟩ := hfault f h
    exact ⟨hf, hhost, hmemb⟩

/-! LENGTH = 0 -/

/-- A latched length of 0 names the empty span, wherever it starts (40_command.md R104). -/
theorem spanInput_nil (s : State) (h : s.lat.len = 0#32) : SpanInput s [] :=
  have hb := passes_nil s
  ⟨by rw [h]; rfl, hb.space, hb.holds, hb.steady⟩

/-- Settles O18: a SPAN's input is the empty sequence, and a TEXT's scan is at its limit before its first read. -/
theorem zeroLengthOutcomes : Obligations.ZeroLengthOutcomes := by
  intro i s hlen
  have hlen' : (s.started i.alg).lat.len = 0#32 := by rw [State.started_lat, hlen]
  refine ⟨fun hspan => exec_of_run (run_of_spanInput _ i [] hspan (spanInput_nil _ hlen')), fun htext => ?_⟩
  have h := (passes_nil (s.started i.alg)).run_noterm i htext (fun _ hv => (nomatch hv)) (by rw [hlen']; rfl)
  rw [State.started_lat] at h
  exact exec_of_run h

/-! The interrupt output -/

/-- With DONE = 0 the interrupt output is low (10_state.md R44). -/
theorem State.irq_of_not_done (s : State) (h : s.done = false) : s.irq = false := by rw [State.irq, h, Bool.and_false]

/-- With DONE = 1 the interrupt output follows IE (60_exceptions.md R204). -/
theorem State.irq_of_done (s : State) (h : s.done = true) : s.irq = s.ie := by rw [State.irq, h, Bool.and_true]

/-- A write to CTRL with SRST = 1 is a soft reset, which writes IE too (70_reset_and_hazards.md R232). -/
theorem State.writeCtrl_of_srst (s : State) (v : Word) (h : v.getLsbD 1 = true) :
    s.writeCtrl v = { s.softReset with ie := v.getLsbD 0 } := by
  rw [State.writeCtrl, if_pos h]

/-- Setting IE with DONE = 1 raises the interrupt output (60_exceptions.md R204). -/
theorem State.irq_writeCtrl_ie (s : State) (h : s.done = true) : (s.writeCtrl 1#32).irq = true := by
  rw [s.writeCtrl_of_not_srst 1#32 (by decide)]
  exact State.irq_of_done { s with ie := true } h

/-- The interrupt output drives its own line and no other (60_exceptions.md R204). -/
theorem State.irqLine_eq (s : State) (l : Nat) : s.irqLine l = if l = s.platform.hcIrq then s.irq else false := by
  by_cases h : l = s.platform.hcIrq <;> simp [State.irqLine, h]

/-- Settles O35: a completion leaves DONE = 1, the four events leave DONE = 0, and the output is IE and DONE. -/
theorem interruptFollowsCompletion : Obligations.InterruptFollowsCompletion := by
  intro s h n c a w v
  refine ⟨rfl, (s.complete h n).irq_of_done rfl, (s.cmdError c a).irq_of_done rfl,
    (s.complete h n).irq_writeCtrl_ie rfl, (s.cmdError c a).irq_writeCtrl_ie rfl, fun hv => ⟨?_, ?_⟩, fun hidle => ?_,
    s.hardReset.irq_of_not_done rfl, (s.irqLine_eq _).trans (if_pos rfl),
    fun l hl => (s.irqLine_eq l).trans (if_neg hl)⟩
  · rw [State.writeReg_status]
    exact (s.writeStatus v).irq_of_not_done (by simp [hv])
  · rw [State.writeReg_ctrl, s.writeCtrl_of_srst v hv]
    exact State.irq_of_not_done _ rfl
  · rw [State.writeReg_cmd, s.writeCmd_of_idle w hidle]
    exact (s.accept w).irq_of_not_done rfl

/-! An idle block -/

/-- The block is idle when the engine is and the generator takes no step (60_exceptions.md R215). -/
theorem quiescent_iff (s : State) : s.quiescent = true ↔ s.phase = .idle ∧ (s.tgen = .ready ∨ s.tgen = .absent) := by
  simp [State.quiescent]

/-- An idle engine takes no step (10_state.md R42). -/
theorem State.engineStep_of_idle (s : State) (h : s.phase = .idle) : s.engineStep = s := by rw [State.engineStep, h]

/-- In phase IDLE a turn `command` changes nothing. -/
theorem State.commandStep_of_idle (s : State) (h : s.phase = .idle) : s.commandStep = .next s := by
  rw [State.commandStep, h]
  exact congrArg _ (s.engineStep_of_idle h)

/-- A build without the table has no generator step to take (41_crc32.md R131). -/
theorem tableStep_of_absent (s : State) (h : s.tgen = .absent) : s.tableStep = s := by
  unfold State.tableStep
  rw [h]

/-- Settles O50: phase IDLE stops the engine, and READY or ABSENT stops the generator. -/
theorem idleBlockTakesNoStep : Obligations.IdleBlockTakesNoStep := by
  refine fun s => ⟨quiescent_iff s, fun h => ?_⟩
  obtain ⟨hidle, hgen⟩ := (quiescent_iff s).1 h
  exact ⟨s.engineStep_of_idle hidle, hgen.elim (tableStep_of_ready s) (tableStep_of_absent s),
    s.commandStep_of_idle hidle⟩

/-! The reset input -/

/-- Settles O52: the step is the reset, and a reset leaves an idle engine and the input released. -/
theorem hardwareResetTakesPrecedence : Obligations.HardwareResetTakesPrecedence :=
  fun s h => ⟨step_of_reset s h, rfl, rfl, s.hardReset.engineStep_of_idle rfl⟩

end Sys2Proof.Machine
end

section
/-! SUPPORT. The soft reset (70_reset_and_hazards.md R232): the command ends, and the table generator goes on. -/

namespace Sys2Proof.Machine

/-- The table generator goes on as it would without the soft reset (41_crc32.md R131). -/
theorem tableStep_softReset (s : State) (e : Bool) :
    State.tableStep { s.softReset with ie := e } = { s.tableStep.softReset with ie := e } := by
  have hsame : ({ s.softReset with ie := e } : State).tgen = s.tgen := rfl
  unfold State.tableStep
  rw [hsame]
  split <;> rfl

/-- Settles O28: a write with SRST = 1 writes the fields named and no other, stops the engine, and the generator goes on. -/
theorem softResetAbortsAndKeepsTheRest : Obligations.SoftResetAbortsAndKeepsTheRest := by
  intro s v hv
  rw [State.writeReg_ctrl, State.writeReg_ctrl, s.writeCtrl_of_srst v hv, s.tableStep.writeCtrl_of_srst v hv]
  exact ⟨rfl, rfl, rfl, rfl, rfl, rfl, rfl, rfl, rfl, rfl, rfl, rfl, rfl, rfl, rfl, rfl, rfl, rfl, rfl, rfl, rfl,
    State.engineStep_of_idle _ rfl, (tableStep_softReset s _).symm⟩

end Sys2Proof.Machine
end

section
/-! SUPPORT. One engine read (20_memory.md R60 to R63, 70_reset_and_hazards.md R240): what answers it, a read that has taken
place or the memory at the instant it chooses, and what a scan does with the reads after it. -/

namespace Sys2Proof.Machine

/-! The moments -/

/-- Changes alone hold no read. -/
theorem nextRead_changes (ms : List Memory) : Moment.nextRead (ms.map .change) = none := by
  induction ms with
  | nil => rfl
  | cons m ms ih => exact ih

/-- The next read is the one after the changes before it. -/
theorem nextRead_changes_read (ms : List Memory) (v : Byte) (l : List Moment) :
    Moment.nextRead (ms.map .change ++ .read v :: l) = some (v, l) := by
  induction ms with
  | nil => rfl
  | cons m ms ih => exact ih

/-- The moments without the reads are the changes. -/
theorem changes_eq_memories (l : List Moment) : Moment.changes l = (Claims.memories l).map .change := by
  induction l with
  | nil => rfl
  | cons e l ih =>
    cases e with
    | read v => exact ih
    | change m => exact congrArg (.change m :: ·) ih

/-- After the first `k` changes the memory is the one the next change found, and after all of them the present one. -/
theorem memory_drop_changes (now : Memory) (ms : List Memory) (k : Nat) (hk : k ≤ ms.length) :
    Moment.memory now ((ms.drop k).map .change) = (ms ++ [now]).getD k [] := by
  induction ms generalizing k with
  | nil =>
    obtain rfl := Nat.le_zero.1 hk
    rfl
  | cons m ms ih =>
    cases k with
    | zero => rfl
    | succ k => exact ih k (Nat.le_of_succ_le_succ hk)

/-- A read still to come takes place after the changes that a free instant names (log 6). -/
theorem answer_of_changes (s : State) (ms : List Memory) (a : Nat) (hne : ms ≠ []) (hp : s.past = ms.map .change) :
    s.answer a =
      (((ms ++ [s.mem]).getD (Config.freeInstant s.draws % (ms.length + 1)) []).read a,
        s.withReads ((ms.drop (Config.freeInstant s.draws % (ms.length + 1))).map .change) (s.draws + 1)) := by
  have hinstant : s.instant =
      (Moment.memory s.mem ((ms.drop (Config.freeInstant s.draws % (ms.length + 1))).map .change),
        s.withReads ((ms.drop (Config.freeInstant s.draws % (ms.length + 1))).map .change) (s.draws + 1)) := by
    obtain ⟨m, ms, rfl⟩ := List.exists_cons_of_ne_nil hne
    rw [State.instant, hp, List.map_cons]
    simp [List.map_drop]
  rw [State.answer, hp, nextRead_changes]
  dsimp only
  rw [hinstant, memory_drop_changes _ _ _ (Nat.le_of_lt_succ (Nat.mod_lt _ (Nat.succ_pos _)))]

/-! What a read makes of its answer -/

section
variable {s s1 : State} {a : Nat} {v : Byte}

/-- An unsteady byte is read as a fresh free byte. -/
theorem memRead_free_of_answer {u : Bool} (h : s.answer a = (some v, s1)) (hu : u = true ∨ a ∈ s1.dirty) :
    s.memRead a u = (.byte (Config.freeByte s1.draws), s1.withDraws (s1.draws + 1)) := by
  rw [State.memRead, h]
  exact if_pos (by simpa using hu)

/-- A steady byte is read as it is answered. -/
theorem memRead_steady_of_answer (h : s.answer a = (some v, s1)) (hd : a ∉ s1.dirty) :
    s.memRead a false = (.byte v, s1) := by
  rw [State.memRead, h]
  exact if_neg (by simpa using hd)

/-- A read answered BusError is one, steady or not. -/
theorem memRead_busError_of_answer (u : Bool) (h : s.answer a = (none, s1)) : s.memRead a u = (.busError, s1) := by
  rw [State.memRead, h]

end

/-- A read with no past is answered by the memory. -/
theorem freshReads : Claims.FreshReads := by
  intro s a v u hp
  refine ⟨fun hv hu => ?_, fun hv hd => memRead_steady s a v hp hv hd, fun hnone => memRead_busError s a u hp hnone⟩
  have hanswer := answer_of_nil s a hp
  rw [hv] at hanswer
  exact memRead_free_of_answer hanswer hu

/-- A read that has taken place is answered what it was. -/
theorem pastReadsStand : Claims.PastReadsStand := by
  intro s ms l a v u hp
  have hanswer := answer_of_read s a v l (by rw [hp, nextRead_changes_read])
  exact ⟨fun hu => memRead_free_of_answer hanswer hu, fun hd => memRead_steady_of_answer hanswer hd⟩

/-- A read still to come is answered by the memory at its instant. -/
theorem readsToComeChooseTheirInstant : Claims.ReadsToComeChooseTheirInstant := by
  intro s ms a v u hne hp k s1 m
  have hanswer : s.answer a = (m.read a, s1) := answer_of_changes s ms a hne hp
  refine ⟨fun hnone => ?_, fun hv hd => ?_, fun hv hu => ?_⟩
  · rw [hnone] at hanswer
    exact memRead_busError_of_answer u hanswer
  · rw [hv] at hanswer
    exact memRead_steady_of_answer hanswer hd
  · rw [hv] at hanswer
    exact memRead_free_of_answer hanswer hu

/-! A scan's read -/

/-- A scan's read that answers a byte is a read, followed as the moment it consumes says. -/
theorem scanRead_of_memRead {s s1 : State} {a : Nat} {v : Byte} {u : Bool} (h : s.memRead a u = (.byte v, s1)) :
    s.scanRead a u = (.byte v, s1.followed ((Moment.nextRead s.past).map Prod.fst) v) := by
  rw [State.scanRead, h]

/-- A read that has taken place is the first of the moments it leaves behind, whatever it answers. -/
theorem memRead_past_of_read (s : State) (a : Nat) (u : Bool) (w : Byte) (l : List Moment)
    (h : Moment.nextRead s.past = some (w, l)) : (s.memRead a u).2.past = l := by
  have hleft : (s.answer a).2.past = l := by rw [answer_of_read s a w l h]; rfl
  obtain ⟨_, e⟩ | ⟨_, _, _, _, e⟩ | ⟨_, _, _, e⟩ := memRead_cases s a u <;> rw [e] <;> exact hleft

/-- A scan follows the reads that have taken place up to the first that ends the text differently. -/
theorem scansFollowTheirReads : Claims.ScansFollowTheirReads := by
  intro s s1 ms a v u hread
  have hscan := scanRead_of_memRead hread
  refine ⟨fun hp => ?_, fun w l hp => ?_⟩
  · rw [hscan, hp, nextRead_changes]
    rfl
  · have hnext : Moment.nextRead s.past = some (w, l) := by rw [hp, nextRead_changes_read]
    have hleft := memRead_past_of_read s a u w l hnext
    rw [hread] at hleft
    have hsame : ((w == 0#8) == (v == 0#8)) = true ↔ (v = 0#8 ↔ w = 0#8) := by
      rw [beq_iff_eq, Bool.eq_iff_iff, beq_iff_eq, beq_iff_eq]
      exact iff_comm
    rw [hscan, hnext, Option.map_some, State.followed]
    refine ⟨fun h => by rw [if_pos (hsame.2 h)], fun h => ?_⟩
    rw [if_neg (mt hsame.1 h), hleft, changes_eq_memories]
    rfl

end Sys2Proof.Machine
end

section
/-! SUPPORT. The hazards in a running pass (70_reset_and_hazards.md R240, 20_memory.md R63): what a pass remembers, the end of
a command whose input was written or whose next read has a side effect, and the bytes a run on free bytes reads. -/

namespace Sys2Proof.Machine

/-! The step at the next read of a pass -/

/-- The MurMur family of 40_command.md R106. -/
theorem isMurmur_iff (a : Alg) : Alg.isMurmur a = true ↔ a ∈ Claims.murmurs := by
  cases a <;> decide

/-- A TEXT command outside the MurMur family looks for its terminator in its one pass (40_command.md R106). -/
theorem onePassText_iff (i : Instr) : onePassText i = true ↔ i.shape = .text ∧ i.alg ∉ Claims.murmurs := by
  simp [onePassText, ← isMurmur_iff]

section
variable {s : State} (i : Instr)

section
variable (hlimit : s.cursor < s.lat.len.toNat) (hspace : s.lat.src.toNat + s.cursor < addressSpace)
include hlimit hspace

/-- A scan whose next read has a side effect ends on free bytes. -/
theorem scanStep_of_sideEffect (h : s.sideEffectAt (s.lat.src.toNat + s.cursor) = true) :
    s.scanStep i = s.replayFree i := by
  rw [State.scanStep, if_neg hlimit.ne, if_neg hspace.not_ge, if_pos h]

/-- A scan measures the nonzero byte it reads. -/
theorem scanStep_of_byte (h : s.sideEffectAt (s.lat.src.toNat + s.cursor) = false) {v : Byte}
    (hv : s.mem.read (s.lat.src.toNat + s.cursor) = some v) (hz : v ≠ 0#8) :
    s.scanStep i = { s.noted v with cursor := s.cursor + 1 } := by
  rw [State.scanStep, if_neg hlimit.ne, if_neg hspace.not_ge, if_neg (Bool.eq_false_iff.1 h), hv]
  exact if_neg hz

/-- The one pass of a TEXT whose next read has a side effect ends on free bytes. -/
theorem textHashStep_of_sideEffect (hlen : s.cursor < s.len)
    (h : s.sideEffectAt (s.lat.src.toNat + s.cursor) = true) : s.textHashStep i = s.replayFree i := by
  rw [State.textHashStep, if_neg hlimit.ne, if_neg hlen.ne, if_neg hspace.not_ge, if_pos h]

/-- The one pass of a TEXT consumes the nonzero byte it reads. -/
theorem textHashStep_of_byte (hlen : s.cursor < s.len) (h : s.sideEffectAt (s.lat.src.toNat + s.cursor) = false)
    {v : Byte} (hv : s.mem.read (s.lat.src.toNat + s.cursor) = some v) (hz : v ≠ 0#8) :
    s.textHashStep i = s.consume i v := by
  rw [State.textHashStep, if_neg hlimit.ne, if_neg hlen.ne, if_neg hspace.not_ge, if_neg (Bool.eq_false_iff.1 h), hv]
  exact if_neg hz

end

section
variable (hlen : s.cursor < s.len) (htop : s.lat.src.toNat + s.len ≤ addressSpace)
include hlen htop

/-- A span whose next read has a side effect ends on free bytes. -/
theorem spanHashStep_of_sideEffect (h : s.sideEffectAt (s.lat.src.toNat + s.cursor) = true) :
    s.spanHashStep i = s.replayFree i := by
  rw [State.spanHashStep, if_neg fun hr => Nat.not_lt.2 htop hr.2.2, if_neg hlen.ne, if_pos h]

/-- A span consumes the byte it reads. -/
theorem spanHashStep_of_byte (h : s.sideEffectAt (s.lat.src.toNat + s.cursor) = false) {v : Byte}
    (hv : s.mem.read (s.lat.src.toNat + s.cursor) = some v) : s.spanHashStep i = s.consume i v := by
  rw [State.spanHashStep, if_neg fun hr => Nat.not_lt.2 htop hr.2.2, if_neg hlen.ne, if_neg (Bool.eq_false_iff.1 h), hv]

end
end

/-- The engine's next read of a location with side effects ends the command on free bytes, in each pass. -/
theorem sideEffectsFreeTheEngine : Claims.SideEffectsFreeTheEngine := by
  intro i s hdirty hspace heffect
  have hd := (disturbed_eq_false_iff s).2 hdirty
  refine ⟨fun hp hlimit => ?_, fun hp htext hne hlimit hlen => ?_, fun hp hspan hlen htop => ?_⟩
  · rw [engineStep_of_scan s i hp hd]
    exact scanStep_of_sideEffect i hlimit hspace heffect
  · rw [engineStep_of_hash s i hp hd, if_pos ((onePassText_iff i).2 ⟨htext, hne⟩)]
    exact textHashStep_of_sideEffect i hlimit hspace hlen heffect
  · have hone : ¬onePassText i = true := by simp [onePassText_iff, hspan]
    rw [engineStep_of_hash s i hp hd, if_neg hone]
    exact spanHashStep_of_sideEffect i hlen htop heffect

/-! What is remembered -/

/-- A memory write while BUSY = 1 marks its addresses (70_reset_and_hazards.md R240). -/
theorem writeMem_dirty_of_busy (s : State) (x : Nat) (b : List Byte) (h : s.busy = true) :
    (s.writeMem x b).dirty = s.dirty ++ (List.range b.length).map (x + ·) :=
  if_pos h

/-- A memory write while BUSY = 0 marks nothing. -/
theorem writeMem_dirty_of_idle (s : State) (x : Nat) (b : List Byte) (h : s.busy = false) :
    (s.writeMem x b).dirty = s.dirty :=
  if_neg (Bool.eq_false_iff.1 h)

/-- A running pass remembers the memory before a change. -/
theorem pastChange_of_pass (s : State) (i : Instr) (h : s.phase = .scan i ∨ s.phase = .hash i) :
    s.pastChange = s.past ++ [.change s.mem] := by
  unfold State.pastChange
  obtain h | h := h <;> rw [h]

/-- A pass that reads a byte remembers it and goes on. -/
theorem engineStep_of_byte (s : State) (i : Instr) (v : Byte) (hd : s.disturbed = false)
    (hspace : s.lat.src.toNat + s.cursor < addressSpace) (hlimit : s.cursor < s.lat.len.toNat)
    (hquiet : s.sideEffectAt (s.lat.src.toNat + s.cursor) = false)
    (hv : s.mem.read (s.lat.src.toNat + s.cursor) = some v) (hz : v ≠ 0#8 ∨ s.phase = .hash i ∧ i.shape = .span)
    (hp : s.phase = .scan i ∨ s.phase = .hash i ∧ s.cursor < s.len ∧
      (i.shape = .text ∧ i.alg ∉ Claims.murmurs ∨ s.lat.src.toNat + s.len ≤ addressSpace)) :
    s.engineStep = { s.noted v with cursor := s.cursor + 1 } ∨ s.engineStep = s.consume i v := by
  obtain hp | ⟨hp, hlen, hroom⟩ := hp
  · have hz : v ≠ 0#8 := hz.resolve_right fun h => by rw [hp] at h; cases h.1
    rw [engineStep_of_scan s i hp hd]
    exact .inl (scanStep_of_byte i hlimit hspace hquiet hv hz)
  · rw [engineStep_of_hash s i hp hd]
    by_cases hone : onePassText i = true
    · have htext := ((onePassText_iff i).1 hone).1
      have hz : v ≠ 0#8 := hz.resolve_right fun h => by rw [htext] at h; cases h.2
      rw [if_pos hone]
      exact .inr (textHashStep_of_byte i hlimit hspace hlen hquiet hv hz)
    · have htop := hroom.resolve_left (mt (onePassText_iff i).2 hone)
      rw [if_neg hone]
      exact .inr (spanHashStep_of_byte i hlen htop hquiet hv)

/-- Writes are marked while BUSY = 1, and a pass remembers its reads and the memories that change. -/
theorem thePastIsRemembered : Claims.ThePastIsRemembered := by
  refine ⟨fun s x b a w => ⟨writeMem_dirty_of_busy s x b, writeMem_dirty_of_idle s x b, rfl, rfl, fun i hp => ?_⟩,
    fun s i v hdirty hspace hlimit hquiet hv hz hp => ?_⟩
  · exact ⟨pastChange_of_pass s i hp, pastChange_of_pass s i hp⟩
  · have hd := (disturbed_eq_false_iff s).2 hdirty
    obtain h | h := engineStep_of_byte s i v hd hspace hlimit hquiet hv hz hp <;> rw [h] <;> exact ⟨rfl, rfl, rfl⟩

/-! The end of a command on reads of one kind -/

/-- A legal command on reads that are all of one kind, `unsteady` or not, in its shape (40_command.md R104 to R107). -/
def runReads (unsteady : Bool) (i : Instr) (s : State) : State :=
  match i.shape with
  | .span => s.spanRun unsteady (s.digest i.alg i.dseed)
  | .text =>
    if Alg.isMurmur i.alg then s.measuredTextRun unsteady (s.digest i.alg i.dseed)
    else s.textRun unsteady (s.digest i.alg i.dseed)

/-- On free bytes every read is unsteady. -/
theorem replayFree_eq_runReads (s : State) (i : Instr) : s.replayFree i = runReads true i s := rfl

/-- A command that meets no side effect reads steadily. -/
theorem replay_eq_runReads (s : State) (i : Instr)
    (h : s.sideEffectIn s.lat.src.toNat (s.lat.src.toNat + s.lat.len.toNat) = false) :
    s.replay i = runReads false i s := by
  rw [State.replay, State.spanReplay, State.measuredTextReplay, State.textReplay, spanMeets_none s h, textMeets_none s h]
  rfl

/-- A SPAN command gathers its span (40_command.md R104). -/
theorem runReads_span (u : Bool) (i : Instr) (s : State) (h : i.shape = .span) :
    runReads u i s = finishCommand (s.digest i.alg i.dseed) (gatherSpan u s s.lat.len.toNat) := by
  rw [runReads, h]
  rfl

/-- A one-pass TEXT command gathers its text (40_command.md R105). -/
theorem runReads_text (u : Bool) (i : Instr) (s : State) (h : i.shape = .text) (hne : i.alg ∉ Claims.murmurs) :
    runReads u i s = finishCommand (s.digest i.alg i.dseed) (scanText u s.lat.src s.lat.len.toNat 0 s) := by
  rw [runReads, h]
  exact if_neg (mt (isMurmur_iff _).1 hne)

/-- A two-pass TEXT command runs on the length its scan measures (40_command.md R106). -/
theorem runReads_measuredText (u : Bool) (i : Instr) (s : State) (h : i.shape = .text) (hm : i.alg ∈ Claims.murmurs) :
    runReads u i s = s.measuredTextRun u (s.digest i.alg i.dseed) := by
  rw [runReads, h]
  exact if_pos ((isMurmur_iff _).2 hm)

/-- The scan's bytes are gathered again as a span, and its error is the command's (40_command.md R106). -/
theorem measuredTextRun_eq (u : Bool) (s : State) (f : List Byte → Digest) :
    s.measuredTextRun u f = match (scanText u s.lat.src s.lat.len.toNat 0 s).1 with
      | .bytes c => finishCommand f (gatherSpan u (scanText u s.lat.src s.lat.len.toNat 0 s).2 c.length)
      | .error c a => (scanText u s.lat.src s.lat.len.toNat 0 s).2.cmdError c a := by
  rw [State.measuredTextRun, gatherText]
  generalize scanText u s.lat.src s.lat.len.toNat 0 s = r
  obtain ⟨g, s1⟩ := r
  cases g <;> rfl

/-- The step of a pass whose input range was written ends the command (70_reset_and_hazards.md R240; log 6). -/
theorem engineStep_of_written (s : State) (i : Instr) (hp : s.phase = .scan i ∨ s.phase = .hash i)
    (hd : s.disturbed = true) : s.engineStep = s.replay i := by
  rw [State.engineStep]
  obtain hp | hp := hp <;> rw [hp] <;> exact if_pos hd

/-- In a pass a turn `command` is an engine step (10_state.md R42). -/
theorem commandStep_of_pass (s : State) (i : Instr) (hp : s.phase = .scan i ∨ s.phase = .hash i) :
    s.commandStep = .next s.engineStep := by
  rw [State.commandStep]
  obtain hp | hp := hp <;> rw [hp]

/-- A pass whose input range was written ends in one step, in each phase. -/
theorem writtenReadsAreRedrawn : Claims.WrittenReadsAreRedrawn := by
  refine ⟨fun s i y hp hy hin => ?_, fun i s hquiet => ?_⟩
  · have hd : s.disturbed = true := by
      rw [← Bool.not_eq_false, disturbed_eq_false_iff]
      exact fun h => h y hy hin
    have hengine := engineStep_of_written s i hp hd
    exact ⟨hengine, (commandStep_of_pass s i hp).trans (congrArg _ hengine)⟩
  · rw [replay_eq_runReads s i hquiet]
    exact ⟨runReads_span false i s, runReads_text false i s,
      fun h hm => (runReads_measuredText false i s h hm).trans (measuredTextRun_eq ..)⟩

/-- A command that comes to a side effect after steady bytes runs on free bytes from its first read. -/
theorem sideEffectsFreeTheCommand : Claims.SideEffectsFreeTheCommand := by
  intro i s b hm hs hlimit hspace heffect
  have hb := passes_started s i.alg b ⟨hm, hs, hlimit.le, hspace.le⟩
  have heffect' : (s.started i.alg).sideEffectAt ((s.started i.alg).lat.src.toNat + b.length) = true := by
    simpa [State.sideEffectAt, State.sideEffectIn] using heffect
  rw [← s.started_lat i.alg] at hlimit hspace ⊢
  exact ⟨fun hspan htop => exec_of_run (hb.run_spanMeets i hspan hlimit htop heffect'),
    fun htext hz => exec_of_run (hb.run_textMeets i htext hz hlimit hspace heffect')⟩

/-! The bytes of a run on free bytes -/

/-- Free bytes, the first apart. -/
theorem freeBytes_succ (d n : Nat) : Claims.freeBytes d (n + 1) = Config.freeByte d :: Claims.freeBytes (d + 1) n := by
  simp [Claims.freeBytes, List.range_succ_eq_map, Nat.add_assoc, Nat.add_comm 1]

/-- A free span pass with no past draws a byte for each byte in memory. -/
theorem readSpan_free (s : State) (c : List Byte) (a : Nat) (hp : s.past = []) (hm : HoldsAt s.mem a c) :
    readSpan true c.length a s = (.bytes (Claims.freeBytes s.draws c.length), s.withDraws (s.draws + c.length)) := by
  induction c generalizing s a with
  | nil => rfl
  | cons v c ih =>
    have hread := (freshReads s a v true hp).1 (hm 0 (Nat.succ_pos _)) (.inl rfl)
    have hrest := ih { s with draws := s.draws + 1 } (a + 1) hp hm.tail
    rw [List.length_cons, readSpan, hread]
    dsimp only
    rw [hrest, freeBytes_succ, Nat.add_comm c.length, ← Nat.add_assoc]
    rfl

/-- A free span pass draws a byte for each read that has taken place, and then one for each byte in memory after them. -/
theorem readSpan_free_past (s : State) (b c : List Byte) (a : Nat) (hp : s.past = b.map .read)
    (hm : HoldsAt s.mem (a + b.length) c) :
    readSpan true (b.length + c.length) a s =
      (.bytes (Claims.freeBytes s.draws (b.length + c.length)),
        s.withReads [] (s.draws + (b.length + c.length))) := by
  induction b generalizing s a with
  | nil =>
    rw [List.length_nil, Nat.zero_add, readSpan_free s c a hp hm, ← fresh_of_nil s hp]
    rfl
  | cons v b ih =>
    have hrest := ih (s.withReads (b.map .read) (s.draws + 1)) (a + 1) rfl (by rw [Nat.add_right_comm]; exact hm)
    rw [List.length_cons, Nat.add_right_comm, readSpan, memRead_of_read s a v _ hp]
    dsimp only
    rw [hrest, freeBytes_succ, Nat.add_comm (b.length + c.length) 1, ← Nat.add_assoc s.draws 1]
    rfl

/-- A free scan with no past draws a byte at the next address, which ends the text if it is zero. -/
theorem scanText_free (s : State) (k j : Nat) (v : Byte) (hp : s.past = [])
    (hv : s.mem.read (s.lat.src.toNat + j) = some v) (hspace : s.lat.src.toNat + j < addressSpace) :
    scanText true s.lat.src (k + 1) j s =
      if Config.freeByte s.draws = 0#8 then (.bytes [], s.withDraws (s.draws + 1))
      else ((scanText true s.lat.src k (j + 1) (s.withDraws (s.draws + 1))).1.cons (Config.freeByte s.draws),
        (scanText true s.lat.src k (j + 1) (s.withDraws (s.draws + 1))).2) := by
  have hread := (scanRead_of_nil s _ true hp).trans ((freshReads s _ v true hp).1 hv (.inl rfl))
  rw [scanText, if_neg hspace.not_ge, hread]
  rfl

/-- A run on free bytes draws one at every read, in each shape. -/
theorem freeRunsDrawEveryByte : Claims.FreeRunsDrawEveryByte := by
  refine ⟨fun s b c hp hm htop => ?_, scanText_free, fun i s => ?_⟩
  · exact (if_neg fun h => Nat.not_lt.2 htop h.2).trans (readSpan_free_past s b c _ hp hm)
  · rw [replayFree_eq_runReads]
    exact ⟨runReads_span true i s, runReads_text true i s,
      fun h hm => (runReads_measuredText true i s h hm).trans (measuredTextRun_eq ..)⟩

/-- Settles O45: one theorem for each part. -/
theorem unsteadyInputReadsAreFreshBytes : Obligations.UnsteadyInputReadsAreFreshBytes :=
  ⟨freshReads, pastReadsStand, readsToComeChooseTheirInstant, scansFollowTheirReads, thePastIsRemembered,
    writtenReadsAreRedrawn, sideEffectsFreeTheCommand, sideEffectsFreeTheEngine, freeRunsDrawEveryByte⟩

end Sys2Proof.Machine
end
